-- ==== Sys2Proof/Word.lean ====
section
/-!
DEFINITION. The word types of HUFFCORE: every value is an unsigned integer of a stated width (00_scope.md R6, R10).
-/

namespace Sys2Proof

/-- A command word, a read-back word, a count or a weight: CMD_W = RSP_W = WEIGHT_W = 32 (00_scope.md R6). -/
abbrev Word := BitVec 32

/-- A byte of the packed stream, or an operand of format V or X (30_encoding.md R82). -/
abbrev Byte := BitVec 8

/-- A symbol 0..127: SYM_W = 7 (00_scope.md R6). -/
abbrev Symbol := BitVec 7

/-- A node index: IDX_W = 8 (00_scope.md R6). Index 255 is not an entry of NODE (10_state.md R23). -/
abbrev NodeIdx := BitVec 8

end Sys2Proof
end

