-- ==== Sys2Proof/Config.lean ====
section
/-!
DEFINITION. What an implementation fixes: the one OPEN parameter of the spec, BITBUF_CAP (00_scope.md R6; 92_eei_decisions.md D11).
-/

namespace Sys2Proof

/-- BITBUF_CAP less one. It has no body, so that nothing can be proved of it but its range (notes/assumptions/3.md). -/
opaque Config.bitbufCapPred : Fin 4294967295

/-- BITBUF_CAP, the capacity of the bit buffer in bits: OPEN, "a natural number with 1 ≤ BITBUF_CAP < 2^32"
(00_scope.md R6). -/
def Config.bitbufCap : Nat := Config.bitbufCapPred.val + 1

/-- The identification word of CSR ID, a constant (10_state.md R43). -/
def Config.idWord : Word := 0x48550180#32

end Sys2Proof
end

