-- ==== Sys2Proof/Syntax.lean ====
section
/-!
DEFINITION. The eighteen commands, one constructor per row of spec/opcode_table.json (30_encoding.md R84).
-/

namespace Sys2Proof

/-- A command with its operands (30_encoding.md R82, R83). Operands are the fields the format gives them: a symbol is 7 bits, so
a word with bit 23 set has no term; a CSR number and a node index are 8 bits, bounded by `Instr.wf`. -/
inductive Instr where
  /-- NOP (45_system.md R200). -/
  | nop
  /-- CLR (45_system.md R201). -/
  | clr
  /-- RDCSR k (45_system.md R202). -/
  | rdcsr (k : Byte)
  /-- RDNODE i (45_system.md R203). -/
  | rdnode (i : NodeIdx)
  /-- RDWT i (45_system.md R204). -/
  | rdwt (i : NodeIdx)
  /-- RDLEN s (45_system.md R205). -/
  | rdlen (s : Symbol)
  /-- RDCODE s, k (45_system.md R206). -/
  | rdcode (s : Symbol) (k : BitVec 2)
  /-- SYM s (40_frequency.md R100). -/
  | sym (s : Symbol)
  /-- ADDF s, n (40_frequency.md R101). -/
  | addf (s : Symbol) (n : BitVec 16)
  /-- FIN (40_frequency.md R102). -/
  | fin
  /-- BUILD (41_treebuilder.md R120). -/
  | build
  /-- TABLE (42_codetable.md R140). -/
  | table
  /-- ENC s (43_bitpacker.md R160). -/
  | enc (s : Symbol)
  /-- PBIT v (43_bitpacker.md R161). -/
  | pbit (v : Byte)
  /-- PACK (43_bitpacker.md R162). -/
  | pack
  /-- DBEG (44_unpacker_decoder.md R180). -/
  | dbeg
  /-- UBYTE b (44_unpacker_decoder.md R181). -/
  | ubyte (b : Byte)
  /-- DEND (44_unpacker_decoder.md R182). -/
  | dend
  deriving DecidableEq, Repr

end Sys2Proof
end

