-- ==== Sys2Proof/WellFormed.lean ====
section
/-!
DEFINITION. Which terms of `Instr` stand for a well-formed command word: the operand limits that the widths alone do not give
(30_encoding.md R82, R84, R85).
-/

namespace Sys2Proof

/-- The CSR number of RDCSR is at most 5 (30_encoding.md R84, R85 c). -/
def csrNumberOk (k : Byte) : Bool := decide (k ≤ 5#8)

/-- The node index of RDNODE and RDWT is at most 254 (30_encoding.md R84, R85 d). -/
def nodeIndexOk (i : NodeIdx) : Bool := decide (i ≤ 254#8)

/-- The command meets its format's operand limits. Every other operand may take every value of its width (30_encoding.md R82). -/
def Instr.wf : Instr → Bool
  | .rdcsr k => csrNumberOk k
  | .rdnode i => nodeIndexOk i
  | .rdwt i => nodeIndexOk i
  | .nop => true
  | .clr => true
  | .rdlen _ => true
  | .rdcode _ _ => true
  | .sym _ => true
  | .addf _ _ => true
  | .fin => true
  | .build => true
  | .table => true
  | .enc _ => true
  | .pbit _ => true
  | .pack => true
  | .dbeg => true
  | .ubyte _ => true
  | .dend => true

end Sys2Proof
end

