-- ==== Sys2Proof/Decode.lean ====
section
/-!
DEFINITION. Command words to commands and back (30_encoding.md R80 to R86): the fields, the six formats, the decoder, the encoder,
and the spec's own table of match and mask (R84).
-/

namespace Sys2Proof

/-! ## Fields (R81, R83) -/

/-- OPC, bits [31:24]. -/
def fieldOpc (w : Word) : Byte := w.extractLsb' 24 8
/-- Operand A, bits [23:16]. -/
def fieldA (w : Word) : Byte := w.extractLsb' 16 8
/-- Operand B, bits [15:0]. -/
def fieldB (w : Word) : BitVec 16 := w.extractLsb' 0 16
/-- The symbol of formats S, SN and SK, bits [22:16]. -/
def fieldSymbol (w : Word) : Symbol := w.extractLsb' 16 7
/-- The chunk number of format SK, bits [1:0]. -/
def fieldChunk (w : Word) : BitVec 2 := w.extractLsb' 0 2

/-! ## The decoder -/

/-- Why a word is illegal (R85). The block raises IllegalCommand for each alike (60_exceptions.md R227). -/
inductive Reject where
  /-- R85 (a): an OPC value not in the table. -/
  | unassignedOpc
  /-- R85 (b): a 1 in a must-be-zero bit of the format. -/
  | mustBeZero
  /-- R85 (c): RDCSR with k in 6..255. -/
  | csrNumber
  /-- R85 (d): RDNODE or RDWT with i = 255. -/
  | nodeIndex
  deriving DecidableEq, Repr

/-- Format Z: A and B must be 0 (R82). -/
def formatZ (w : Word) (i : Instr) : Except Reject Instr :=
  if fieldA w = 0 ∧ fieldB w = 0 then .ok i else .error .mustBeZero

/-- Format S: bit 23 and B must be 0 (R82). -/
def formatS (w : Word) (f : Symbol → Instr) : Except Reject Instr :=
  if w.getLsbD 23 = false ∧ fieldB w = 0 then .ok (f (fieldSymbol w)) else .error .mustBeZero

/-- Format SN: bit 23 must be 0; B is the count (R82). -/
def formatSN (w : Word) (f : Symbol → BitVec 16 → Instr) : Except Reject Instr :=
  if w.getLsbD 23 = false then .ok (f (fieldSymbol w) (fieldB w)) else .error .mustBeZero

/-- Format V: B must be 0; A is any value (R82). -/
def formatV (w : Word) (f : Byte → Instr) : Except Reject Instr :=
  if fieldB w = 0 then .ok (f (fieldA w)) else .error .mustBeZero

/-- Format X: B must be 0; A is an index with the command's own limit (R82). -/
def formatX (w : Word) (inRange : Byte → Bool) (otherwise : Reject) (f : Byte → Instr) : Except Reject Instr :=
  if fieldB w = 0 then
    if inRange (fieldA w) then .ok (f (fieldA w)) else .error otherwise
  else .error .mustBeZero

/-- Format SK: bits 23 and [15:2] must be 0; bits [1:0] are the chunk number (R82). -/
def formatSK (w : Word) (f : Symbol → BitVec 2 → Instr) : Except Reject Instr :=
  if w.getLsbD 23 = false ∧ w.extractLsb' 2 14 = 0 then .ok (f (fieldSymbol w) (fieldChunk w)) else .error .mustBeZero

/-- The command a word stands for, or why it stands for none (R84, R85). Unassigned OPC values are illegal, not skipped (R86). -/
def decode (w : Word) : Except Reject Instr :=
  if fieldOpc w = 0x00 then formatZ w .nop
  else if fieldOpc w = 0x01 then formatZ w .clr
  else if fieldOpc w = 0x08 then formatX w csrNumberOk .csrNumber .rdcsr
  else if fieldOpc w = 0x09 then formatX w nodeIndexOk .nodeIndex .rdnode
  else if fieldOpc w = 0x0A then formatX w nodeIndexOk .nodeIndex .rdwt
  else if fieldOpc w = 0x0B then formatS w .rdlen
  else if fieldOpc w = 0x0C then formatSK w .rdcode
  else if fieldOpc w = 0x10 then formatS w .sym
  else if fieldOpc w = 0x11 then formatSN w .addf
  else if fieldOpc w = 0x12 then formatZ w .fin
  else if fieldOpc w = 0x20 then formatZ w .build
  else if fieldOpc w = 0x30 then formatZ w .table
  else if fieldOpc w = 0x40 then formatS w .enc
  else if fieldOpc w = 0x41 then formatV w .pbit
  else if fieldOpc w = 0x42 then formatZ w .pack
  else if fieldOpc w = 0x50 then formatZ w .dbeg
  else if fieldOpc w = 0x51 then formatV w .ubyte
  else if fieldOpc w = 0x52 then formatZ w .dend
  else .error .unassignedOpc

/-! ## The encoder -/

/-- The word with the given OPC, A and B (R81). -/
def mkWord (opc a : Byte) (b : BitVec 16) : Word := opc ++ a ++ b

/-- The word of a command (R82 to R84). It is also `cmd`, the word a fault records in ERRCMD (00_scope.md R12, notes/assumptions/10.md). -/
def encode : Instr → Word
  | .nop => mkWord 0x00 0 0
  | .clr => mkWord 0x01 0 0
  | .rdcsr k => mkWord 0x08 k 0
  | .rdnode i => mkWord 0x09 i 0
  | .rdwt i => mkWord 0x0A i 0
  | .rdlen s => mkWord 0x0B (s.setWidth 8) 0
  | .rdcode s k => mkWord 0x0C (s.setWidth 8) (k.setWidth 16)
  | .sym s => mkWord 0x10 (s.setWidth 8) 0
  | .addf s n => mkWord 0x11 (s.setWidth 8) n
  | .fin => mkWord 0x12 0 0
  | .build => mkWord 0x20 0 0
  | .table => mkWord 0x30 0 0
  | .enc s => mkWord 0x40 (s.setWidth 8) 0
  | .pbit v => mkWord 0x41 v 0
  | .pack => mkWord 0x42 0 0
  | .dbeg => mkWord 0x50 0 0
  | .ubyte b => mkWord 0x51 b 0
  | .dend => mkWord 0x52 0 0

/-! ## The spec's table of rows (R84), kept as data beside the decoder -/

/-- One row of R84: a word selects it when `(w & mask) = match` and cmd[23:16] is at most `limit` (255 where the row has no extra
condition). -/
structure OpRow where
  /-- The mnemonic. -/
  mnemonic : String
  /-- The column `match`. -/
  value : Word
  /-- The column `mask`. -/
  mask : Word
  /-- The extra condition, as the largest operand A allowed. -/
  limit : Byte
  deriving DecidableEq, Repr

/-- The eighteen rows of R84, in its order. -/
def opRows : List OpRow :=
  [ ⟨"NOP", 0x00000000, 0xFFFFFFFF, 255⟩, ⟨"CLR", 0x01000000, 0xFFFFFFFF, 255⟩,
    ⟨"RDCSR", 0x08000000, 0xFFF8FFFF, 5⟩, ⟨"RDNODE", 0x09000000, 0xFF00FFFF, 254⟩,
    ⟨"RDWT", 0x0A000000, 0xFF00FFFF, 254⟩, ⟨"RDLEN", 0x0B000000, 0xFF80FFFF, 255⟩,
    ⟨"RDCODE", 0x0C000000, 0xFF80FFFC, 255⟩, ⟨"SYM", 0x10000000, 0xFF80FFFF, 255⟩,
    ⟨"ADDF", 0x11000000, 0xFF800000, 255⟩ ] ++
  [ ⟨"FIN", 0x12000000, 0xFFFFFFFF, 255⟩, ⟨"BUILD", 0x20000000, 0xFFFFFFFF, 255⟩,
    ⟨"TABLE", 0x30000000, 0xFFFFFFFF, 255⟩, ⟨"ENC", 0x40000000, 0xFF80FFFF, 255⟩,
    ⟨"PBIT", 0x41000000, 0xFF00FFFF, 255⟩, ⟨"PACK", 0x42000000, 0xFFFFFFFF, 255⟩,
    ⟨"DBEG", 0x50000000, 0xFFFFFFFF, 255⟩, ⟨"UBYTE", 0x51000000, 0xFF00FFFF, 255⟩,
    ⟨"DEND", 0x52000000, 0xFFFFFFFF, 255⟩ ]

/-- The word selects the row (R84). -/
def OpRow.selects (r : OpRow) (w : Word) : Bool := decide (w &&& r.mask = r.value) && decide (fieldA w ≤ r.limit)

/-- The mnemonic of a command (R84). -/
def Instr.mnemonic : Instr → String
  | .nop => "NOP"
  | .clr => "CLR"
  | .rdcsr _ => "RDCSR"
  | .rdnode _ => "RDNODE"
  | .rdwt _ => "RDWT"
  | .rdlen _ => "RDLEN"
  | .rdcode _ _ => "RDCODE"
  | .sym _ => "SYM"
  | .addf _ _ => "ADDF"
  | .fin => "FIN"
  | .build => "BUILD"
  | .table => "TABLE"
  | .enc _ => "ENC"
  | .pbit _ => "PBIT"
  | .pack => "PACK"
  | .dbeg => "DBEG"
  | .ubyte _ => "UBYTE"
  | .dend => "DEND"

/-! ## Words numbered as the opcode table numbers them -/

/-- The command word whose low `nbits` bits are those of `w` and whose other bits are 0. A command is one whole 32-bit word with no
byte order (R80; 20_memory.md R74), so the table's numbering is the word's own (notes/assumptions/15.md). -/
def tableWord (nbits w : Nat) : Word := BitVec.ofNat 32 (w % 2 ^ nbits)

/-- The command that the decoder reads from the table's word. -/
def decodeTableWord (nbits w : Nat) : Option Instr := (decode (tableWord nbits w)).toOption

end Sys2Proof
end

