-- ==== Sys2Proof/Machine/State.lean ====
section
/-!
DEFINITION. The complete state of HUFFCORE (10_state.md R20), as plain data, its reset value (R48), and the reasons the model may stop.
-/

namespace Sys2Proof.Machine

/-- The reasons a step may stop. Each marks a place that the spec shows no run can reach, so stopping there is safe: the model makes no
claim about what such a machine would do. None is an error of the block: those are recorded in ERR by `raise` (Machine/Ops.lean). -/
inductive Fault where
  /-- BUILD, TABLE or UBYTE reads or writes NODE[255], which is not an entry (10_state.md R23). Safe (notes/assumptions/6.md). -/
  | noSuchNode
  /-- BUILD takes a node while both queues are empty, a case that "does not arise" (41_treebuilder.md R122). Safe
  (notes/assumptions/7.md). -/
  | emptyQueues
  /-- BUILD makes more than 255 merges, where NLEAF - 1 end it (41_treebuilder.md R125). Safe (notes/assumptions/7.md). -/
  | mergeBound
  /-- TABLE meets a path longer than CODE_MAXLEN = 127 bits, which no code entry can hold (00_scope.md R6, 42_codetable.md R145). Safe
  (notes/assumptions/8.md). -/
  | pathTooLong
  deriving DecidableEq, Repr

/-- The reasons the model may refuse a command. -/
inductive Refusal where
  /-- Raised only by an arm of `exec` whose command has no meaning yet. Safe: the model says nothing of it. No arm is so. -/
  | notModelled (mnemonic : String)
  deriving DecidableEq, Repr

/-- The errors of the block and their names (60_exceptions.md R221). -/
inductive ErrorCode where
  /-- Code 1 (R222). -/
  | emptyInput
  /-- Code 2 (R223). -/
  | invalidBit
  /-- Code 3 (R224). -/
  | malformedStream
  /-- Code 4: set aside, never raised by the block (R226). -/
  | ioFailure
  /-- Code 5 (R227). -/
  | illegalCommand
  /-- Code 6 (R228). -/
  | sequence
  /-- Code 7 (R229). -/
  | unsetCode
  /-- Code 8 (R225). -/
  | bufferOverflow
  /-- Code 9 (R230). -/
  | countOverflow
  deriving DecidableEq, Repr

/-- One entry of NODE, 56 bits (10_state.md R23). -/
structure NodeEntry where
  /-- The node is a leaf. -/
  leaf : Bool
  /-- The leaf's symbol; 0 for an internal node. -/
  sym : Symbol
  /-- The weight. -/
  weight : Word
  /-- The left child; 0 for a leaf. -/
  left : NodeIdx
  /-- The right child; 0 for a leaf. -/
  right : NodeIdx
  deriving DecidableEq, Repr

/-- The unused entry: "An unused entry holds all zeros" (R23). -/
def NodeEntry.zero : NodeEntry := ⟨false, 0, 0, 0, 0⟩

/-- One entry of CODE, 135 bits (10_state.md R28). -/
structure CodeEntry where
  /-- The entry is set. -/
  valid : Bool
  /-- The length of the code, 0 when unset. -/
  len : BitVec 7
  /-- The code, left-aligned: code bit i is `bits[126 - i]`. -/
  bits : BitVec 127
  deriving DecidableEq, Repr

/-- The unset entry (R28). -/
def CodeEntry.unset : CodeEntry := ⟨false, 0, 0⟩

/-- A memory of whole entries: the indices that do not hold the entry an unlisted index reads as, strictly rising
(20_memory.md R60, R61; notes/assumptions/5.md). -/
abbrev Memory (α : Type) := List (Nat × α)

/-- What the host may do next to the block: present a command word, or assert reset (00_scope.md R8, 10_state.md R50). -/
inductive PortEvent where
  /-- The next word the command port accepts. -/
  | cmd (w : Word)
  /-- Hardware reset (70_reset_and_hazards.md R250; notes/assumptions/2.md). -/
  | rst
  deriving DecidableEq, Repr

/-- The complete state of HUFFCORE (10_state.md R20), and, in the model's own field `port`, what the host has still to send
(00_scope.md R9; notes/assumptions/1.md). BLEN is the length of `bitbuf` (R29; notes/assumptions/4.md). -/
structure State where
  /-- FREQ, 128 counts (R21). -/
  freq : Memory Word
  /-- TOTAL (R22). -/
  total : Word
  /-- NODE, 255 node entries (R23). -/
  node : Memory NodeEntry
  /-- NLEAF (R24). -/
  nleaf : BitVec 8
  /-- SRC_HEAD (R25). -/
  srcHead : NodeIdx
  /-- TGT_HEAD (R25). -/
  tgtHead : NodeIdx
  /-- TGT_TAIL (R25). -/
  tgtTail : NodeIdx
  /-- TB_A (R26). -/
  tbA : NodeIdx
  /-- TB_B (R26). -/
  tbB : NodeIdx
  /-- TBSTATE (R26). -/
  tbState : BitVec 3
  /-- ROOT (R27). -/
  root : NodeIdx
  /-- CODE, 128 code entries (R28). -/
  code : Memory CodeEntry
  /-- BITBUF[0] to BITBUF[BLEN-1], first bit first (R29). -/
  bitbuf : List Bool
  /-- ACC (R30). -/
  acc : BitVec 8
  /-- NBITS (R30). -/
  nbits : BitVec 4
  /-- UPHASE (R31). -/
  uphase : BitVec 2
  /-- CURSOR (R32). -/
  cursor : NodeIdx
  /-- PHASE (R33). -/
  phase : BitVec 2
  /-- ERR (R34). -/
  err : BitVec 4
  /-- ERRCMD (R35). -/
  errcmd : Word
  /-- OUTB, the trace of packed bytes, oldest first (R36). -/
  outb : List Byte
  /-- OUTS, the trace of decoded symbols, oldest first (R36). -/
  outs : List Symbol
  /-- RSP, the trace of read-back words, oldest first (R36). -/
  rsp : List Word
  /-- The model's own field: the events of the command port and of rst still to come, the next one first. -/
  port : List PortEvent
  deriving DecidableEq, Repr

/-- The state after hardware reset (R48, R251). The host has nothing waiting (notes/assumptions/1.md). -/
def State.reset : State where
  freq := []
  total := 0
  node := []
  nleaf := 0
  srcHead := 0
  tgtHead := 0
  tgtTail := 0
  tbA := 0
  tbB := 0
  tbState := 0
  root := 0
  code := []
  bitbuf := []
  acc := 0
  nbits := 0
  uphase := 0
  cursor := 0
  phase := 0
  err := 0
  errcmd := 0
  outb := []
  outs := []
  rsp := []
  port := []

/-- The outcome of a step of this machine. -/
abbrev Result := Host.Outcome State Fault Refusal

end Sys2Proof.Machine
end

