-- ==== Sys2Proof/Machine/Flags.lean ====
section
/-!
DEFINITION. The flag-like state (10_state.md R45) and its views: error codes (60_exceptions.md R221), the values of PHASE, UPHASE and
TBSTATE (10_state.md R26, R31, R33), phase legality (30_encoding.md R91), fault_o (60_exceptions.md R236) and the CSR words
(10_state.md R37 to R43). The block has no arithmetic condition codes.
-/

namespace Sys2Proof.Machine

/-- The numeric code of an error (60_exceptions.md R221). -/
def ErrorCode.code : ErrorCode → BitVec 4
  | .emptyInput => 1
  | .invalidBit => 2
  | .malformedStream => 3
  | .ioFailure => 4
  | .illegalCommand => 5
  | .sequence => 6
  | .unsetCode => 7
  | .bufferOverflow => 8
  | .countOverflow => 9

/-- PHASE 0, P_ANALYSE (10_state.md R33). -/
abbrev pAnalyse : BitVec 2 := 0#2
/-- PHASE 1, P_SORTED (10_state.md R33). -/
abbrev pSorted : BitVec 2 := 1#2
/-- PHASE 2, P_TREE (10_state.md R33). -/
abbrev pTree : BitVec 2 := 2#2
/-- PHASE 3, P_READY (10_state.md R33). -/
abbrev pReady : BitVec 2 := 3#2

/-- UPHASE 0, U_IDLE (10_state.md R31). -/
abbrev uIdle : BitVec 2 := 0#2
/-- UPHASE 1, U_FIRST (10_state.md R31). -/
abbrev uFirst : BitVec 2 := 1#2
/-- UPHASE 2, U_PAYLOAD (10_state.md R31). -/
abbrev uPayload : BitVec 2 := 2#2

/-- TBSTATE 0, TB_IDLE (10_state.md R26). -/
abbrev tbIdle : BitVec 3 := 0#3
/-- TBSTATE 1, TB_TAKE1 (10_state.md R26). -/
abbrev tbTake1 : BitVec 3 := 1#3
/-- TBSTATE 2, TB_TAKE2 (10_state.md R26). -/
abbrev tbTake2 : BitVec 3 := 2#3
/-- TBSTATE 3, TB_MERGE (10_state.md R26). -/
abbrev tbMerge : BitVec 3 := 3#3
/-- TBSTATE 4, TB_DONE (10_state.md R26). -/
abbrev tbDone : BitVec 3 := 4#3

/-- The service commands, which execute in every phase and while faulted (30_encoding.md R87). -/
def isService : Instr → Bool
  | .nop => true
  | .clr => true
  | .rdcsr _ => true
  | .rdnode _ => true
  | .rdwt _ => true
  | .rdlen _ => true
  | .rdcode _ _ => true
  | .sym _ => false
  | .addf _ _ => false
  | .fin => false
  | .build => false
  | .table => false
  | .enc _ => false
  | .pbit _ => false
  | .pack => false
  | .dbeg => false
  | .ubyte _ => false
  | .dend => false

/-- The phase legality table (30_encoding.md R91). Service commands are legal always. -/
def legal (i : Instr) (s : State) : Bool :=
  match i with
  | .nop => true
  | .clr => true
  | .rdcsr _ => true
  | .rdnode _ => true
  | .rdwt _ => true
  | .rdlen _ => true
  | .rdcode _ _ => true
  | .sym _ => decide (s.phase = pAnalyse)
  | .addf _ _ => decide (s.phase = pAnalyse)
  | .fin => decide (s.phase = pAnalyse)
  | .build => decide (s.phase = pSorted)
  | .table => decide (s.phase = pTree)
  | .enc _ => decide (s.phase = pReady)
  | .pbit _ => true
  | .pack => true
  | .dbeg => decide (pTree ≤ s.phase) && decide (s.uphase = uIdle)
  | .ubyte _ => decide (s.uphase ≠ uIdle)
  | .dend => decide (s.uphase ≠ uIdle)

/-- The block is faulted (10_state.md R34). -/
def State.faulted (s : State) : Bool := decide (s.err ≠ 0)

/-- The output fault_o, 1 exactly while ERR is not 0 (60_exceptions.md R236). -/
def State.faultO (s : State) : BitVec 1 := BitVec.ofBool s.faulted

/-- BLEN, the number of bits held (10_state.md R29, notes/assumptions/4.md). -/
def State.blen (s : State) : Word := BitVec.ofNat 32 s.bitbuf.length

/-- CSR 0, STATUS (10_state.md R38). -/
def State.status (s : State) : Word := s.cursor ++ s.root ++ s.nleaf ++ s.uphase ++ s.phase ++ s.err

/-- CSR 4, QPTR (10_state.md R42). -/
def State.qptr (s : State) : Word := 0#5 ++ s.tbState ++ s.tgtTail ++ s.tgtHead ++ s.srcHead

/-- CSR(k) for k in 0..5 (10_state.md R37). Numbers above 5 are no CSR: RDCSR never asks for one (30_encoding.md R85), and the last arm
is then not reached. -/
def State.csr (s : State) (k : Byte) : Word :=
  if k = 0 then s.status
  else if k = 1 then s.errcmd
  else if k = 2 then s.total
  else if k = 3 then s.blen
  else if k = 4 then s.qptr
  else Config.idWord

end Sys2Proof.Machine
end

