-- ==== Sys2Proof/Machine/Operands.lean ====
section
/-!
DEFINITION. Operands as the rules use them: zero extension (30_encoding.md R83), the bits of a byte in stream order
(20_memory.md R63), the sentinel scan (44_unpacker_decoder.md R183), padding (43_bitpacker.md R163), codes as bit sequences
(42_codetable.md R143, R144) and the chunks of RDCODE (45_system.md R206). A bit sequence is a list, first bit first (00_scope.md R11).
-/

namespace Sys2Proof.Machine

/-- The count of ADDF, "zero-extended to 32 for the addition" (30_encoding.md R83). -/
def countOperand (n : BitVec 16) : Word := n.setWidth 32

/-- The bits `b[j-1], ..., b[0]`, in that order. -/
def bitsBelow (b : Byte) (j : Nat) : List Bool := (List.range j).reverse.map fun k => b.getLsbD k

/-- The bits of a byte in stream order, b[7] first (20_memory.md R63). -/
def byteBits (b : Byte) : List Bool := bitsBelow b 8

/-- The largest index j in 0..7 with b[j] = 1, scanning from bit 7 down; none for the byte 0 (44_unpacker_decoder.md R181, R183). -/
def sentinelIndex (b : Byte) : Option Nat := [7, 6, 5, 4, 3, 2, 1, 0].find? fun j => b.getLsbD j

/-- The number of padding bits before a payload of `n` bits (43_bitpacker.md R163). -/
def padding (n : Nat) : Nat := 8 - n % 8

/-- The padding bits: zeros, then the sentinel (43_bitpacker.md R163). -/
def paddingBits (n : Nat) : List Bool := List.replicate (padding n - 1) false ++ [true]

/-- A bit sequence left-aligned in 127 bits: sequence bit j in `bits[126 - j]`, 0 below (42_codetable.md R143, 10_state.md R28). -/
def leftAlign : List Bool → BitVec 127
  | [] => 0
  | b :: p => (BitVec.ofBool b ++ 0#126) ||| (leftAlign p >>> 1)

/-- Entry(p), the code entry of the bit sequence p (42_codetable.md R143). -/
def entryOf (p : List Bool) : CodeEntry := ⟨true, BitVec.ofNat 7 p.length, leftAlign p⟩

/-- The bits of a code entry as a sequence: `bits[126], ..., bits[127 - len]` (42_codetable.md R144). -/
def CodeEntry.sequence (e : CodeEntry) : List Bool := (List.range e.len.toNat).map fun j => e.bits.getMsbD j

/-- Chunk k of a left-aligned code: V[127-32k : 96-32k] of V = bits followed by one 0 (45_system.md R206). -/
def codeChunk (bits : BitVec 127) (k : BitVec 2) : Word := (bits ++ 0#1 : BitVec 128).extractLsb' (96 - 32 * k.toNat) 32

end Sys2Proof.Machine
end

