-- ==== Sys2Proof/Machine/Ops.lean ====
section
/-!
DEFINITION. The named operations over memories and registers, the one fault entry (60_exceptions.md R231) and the one way back
(45_system.md R201), the dispatch order around a command (30_encoding.md R87), and taking the next event of the port.
-/

namespace Sys2Proof.Machine

/-! ## Memories of whole entries (20_memory.md R61) -/

/-- MemRead: the entry at an index; an unlisted index reads as `dflt`. -/
def Memory.read {α : Type} (dflt : α) : Memory α → Nat → α
  | [], _ => dflt
  | (k, v) :: m, i => if k = i then v else Memory.read dflt m i

/-- The memory without any entry at the index. -/
def Memory.erase {α : Type} (m : Memory α) (i : Nat) : Memory α := m.filter fun c => c.1 != i

/-- The entry put at its place in rising order. -/
def Memory.insert {α : Type} (i : Nat) (v : α) : Memory α → Memory α
  | [] => [(i, v)]
  | (k, x) :: m => if i < k then (i, v) :: (k, x) :: m else (k, x) :: Memory.insert i v m

/-- MemWrite: the whole entry at an index replaced. Writing what an unlisted index reads as removes the entry, so that equal memories
are equal lists. -/
def Memory.write {α : Type} [DecidableEq α] (dflt : α) (m : Memory α) (i : Nat) (v : α) : Memory α :=
  if v = dflt then Memory.erase m i else Memory.insert i v (Memory.erase m i)

/-- Indices rise strictly from `lo`, lie below `size`, and no entry equals `dflt`. -/
def Memory.wfFrom {α : Type} [DecidableEq α] (dflt : α) (size : Nat) : Nat → Memory α → Bool
  | _, [] => true
  | lo, (k, v) :: m => decide (lo ≤ k) && decide (k < size) && decide (v ≠ dflt) && Memory.wfFrom dflt size (k + 1) m

/-- The canonical form of a memory of `size` entries. -/
def Memory.wf {α : Type} [DecidableEq α] (dflt : α) (size : Nat) (m : Memory α) : Bool := Memory.wfFrom dflt size 0 m

/-! ## The block's memories -/

/-- FREQ[x] (10_state.md R21). -/
def freqAt (s : State) (x : Symbol) : Word := Memory.read 0 s.freq x.toNat

/-- FREQ[x] <- v. -/
def setFreq (x : Symbol) (v : Word) (s : State) : State := { s with freq := Memory.write 0 s.freq x.toNat v }

/-- NODE[i] for an index of the space (10_state.md R23). -/
def nodeAt (s : State) (i : NodeIdx) : NodeEntry := Memory.read .zero s.node i.toNat

/-- NODE[i] <- e for an index of the space. -/
def setNode (i : NodeIdx) (e : NodeEntry) (s : State) : State := { s with node := Memory.write .zero s.node i.toNat e }

/-- NODE[i] read by a command that takes its index from a register or a child field; "Index 255 is not an entry" (10_state.md R23,
notes/assumptions/6.md). -/
def readNode (s : State) (i : NodeIdx) : Except Fault NodeEntry :=
  if i = 255#8 then .error .noSuchNode else .ok (nodeAt s i)

/-- NODE[i] written by a command that takes its index from a register. -/
def writeNode (i : NodeIdx) (e : NodeEntry) (s : State) : Except Fault State :=
  if i = 255#8 then .error .noSuchNode else .ok (setNode i e s)

/-- CODE[x] (10_state.md R28). -/
def codeAt (s : State) (x : Symbol) : CodeEntry := Memory.read .unset s.code x.toNat

/-! ## Output traces (00_scope.md R12, 10_state.md R36) -/

/-- emitB: append a byte to OUTB. -/
def emitB (b : Byte) (s : State) : State := { s with outb := s.outb ++ [b] }

/-- emitS: append a symbol to OUTS. -/
def emitS (x : Symbol) (s : State) : State := { s with outs := s.outs ++ [x] }

/-- emitR: append a word to RSP. -/
def emitR (w : Word) (s : State) : State := { s with rsp := s.rsp ++ [w] }

/-! ## Fault entry, clearing, reset -/

/-- `raise E(cmd)`: ERR and ERRCMD written and nothing else (60_exceptions.md R231). -/
def raise (e : ErrorCode) (cmd : Word) (s : State) : State := { s with err := e.code, errcmd := cmd }

/-- The only command that leaves the faulted state: every register and memory at its reset value, the three traces unchanged
(45_system.md R201, 60_exceptions.md R234). What the host has still to send is not the block's and stays. -/
def clearAll (s : State) : State := { State.reset with outb := s.outb, outs := s.outs, rsp := s.rsp, port := s.port }

/-- Hardware reset: the reset state with empty traces (70_reset_and_hazards.md R250 to R252). What the host has still to send stays. -/
def hardReset (s : State) : State := { State.reset with port := s.port }

/-! ## Dispatch order (30_encoding.md R87) -/

/-- A word that is no command: ignored while faulted, else IllegalCommand (30_encoding.md R85, 60_exceptions.md R227, R232). -/
def illegal (cmd : Word) (s : State) : State := if s.faulted then s else raise .illegalCommand cmd s

/-- A service command with an operand limit: executes even when faulted; out of its limit the word is illegal (30_encoding.md R85). -/
def service (i : Instr) (body : State → State) (s : State) : Result :=
  .next (if i.wf then body s else illegal (encode i) s)

/-- A work command: ignored while faulted, SequenceError out of phase, else its own rule (30_encoding.md R87, 60_exceptions.md R233). -/
def work (i : Instr) (body : State → Result) (s : State) : Result :=
  if s.faulted then .next s
  else if legal i s then body s
  else .next (raise .sequence (encode i) s)

/-- The outcome of a computation over NODE that may meet an index that is no entry. -/
def outcomeOf : Except Fault State → Result
  | .ok s => .next s
  | .error f => .fault f

/-! ## The port (10_state.md R44, R50) -/

/-- The next event of the port, and the state with it taken; none if the host sends nothing. -/
def takeEvent (s : State) : Option (PortEvent × State) :=
  match s.port with
  | [] => none
  | e :: rest => some (e, { s with port := rest })

/-- The state with one more command word before all that the host has still to send. -/
def presentFirst (w : Word) (s : State) : State := { s with port := .cmd w :: s.port }

/-- The state with command words after all that the host has still to send. -/
def present (ws : List Word) (s : State) : State := { s with port := s.port ++ ws.map .cmd }

end Sys2Proof.Machine
end

