-- ==== Sys2Proof/Machine/CodeTable.lean ====
section
/-!
DEFINITION. The encoding-table builder: TABLE (42_codetable.md R140 to R146).
-/

namespace Sys2Proof.Machine

/-- The subtree of node `i`, reached by the path `p`, walked depth first and left before right, each leaf's entry written into `code`
(42_codetable.md R141, R142). `depth` is how many more edges a path may have, the current one included; CODE_MAXLEN = 127 bounds it
(00_scope.md R6, notes/assumptions/8.md). -/
def walk (s : State) : Nat → NodeIdx → List Bool → Memory CodeEntry → Except Fault (Memory CodeEntry)
  | 0, _, _, _ => .error .pathTooLong
  | depth + 1, i, p, code => do
    let n ← readNode s i
    if n.leaf then .ok (Memory.write .unset code n.sym.toNat (entryOf p))
    else do
      let c ← walk s depth n.left (p ++ [false]) code
      walk s depth n.right (p ++ [true]) c

/-- The rule of TABLE once it is legal: the traversal starts at the root's two children, and the root is never visited as a leaf
(42_codetable.md R140, R142). -/
def buildTable (s : State) : Except Fault State := do
  let r ← readNode s s.root
  let c ← walk s 127 r.left [false] s.code
  let c ← walk s 127 r.right [true] c
  .ok { s with code := c, phase := pReady }

/-- TABLE: one code-table entry per leaf (42_codetable.md R140). -/
def execTable (s : State) : Result := work .table (fun s => outcomeOf (buildTable s)) s

end Sys2Proof.Machine
end

