-- ==== Sys2Proof/Machine/Decoder.lean ====
section
/-!
DEFINITION. The bit unpacker and Huffman decoder: DBEG, UBYTE, DEND (44_unpacker_decoder.md R180 to R189).
-/

namespace Sys2Proof.Machine

/-- DecodeBit(x): one step of the tree walk (44_unpacker_decoder.md R184). -/
def decodeBit (x : Bool) (s : State) : Except Fault State := do
  let n ← readNode s s.cursor
  let c := if x then n.right else n.left
  let m ← readNode s c
  if m.leaf then .ok { emitS m.sym s with cursor := s.root } else .ok { s with cursor := c }

/-- DecodeBit of each bit in order. -/
def decodeBits : List Bool → State → Except Fault State
  | [], s => .ok s
  | x :: xs, s => do
    let t ← decodeBit x s
    decodeBits xs t

/-- The rule of UBYTE once it is legal: the first byte is scanned for the sentinel, and a first byte 0 is MalformedStreamError; every
later byte is eight payload bits (44_unpacker_decoder.md R181, R183, R186). -/
def unpackByte (cmd : Word) (b : Byte) (s : State) : Except Fault State :=
  if s.uphase = uFirst then
    match sentinelIndex b with
    | none => .ok (raise .malformedStream cmd s)
    | some j => decodeBits (bitsBelow b j) { s with uphase := uPayload }
  else decodeBits (byteBits b) s

/-- The rule of DBEG once it is legal (44_unpacker_decoder.md R180). -/
def openSession (s : State) : State := { s with uphase := uFirst, cursor := s.root }

/-- The rule of DEND once it is legal: MalformedStreamError with no byte given, or with the cursor off the root
(44_unpacker_decoder.md R182, R185, R188). -/
def closeSession (cmd : Word) (s : State) : State :=
  if s.uphase = uFirst then raise .malformedStream cmd s
  else if s.cursor ≠ s.root then raise .malformedStream cmd s
  else { s with uphase := uIdle }

/-- DBEG: open a decode session (44_unpacker_decoder.md R180). -/
def execDbeg (s : State) : Result := work .dbeg (fun s => .next (openSession s)) s

/-- UBYTE b: take the next byte of the encoded sequence (44_unpacker_decoder.md R181). -/
def execUbyte (b : Byte) (s : State) : Result :=
  work (.ubyte b) (fun s => outcomeOf (unpackByte (encode (.ubyte b)) b s)) s

/-- DEND: close the session and give the verdict on the stream (44_unpacker_decoder.md R182). -/
def execDend (s : State) : Result := work .dend (fun s => .next (closeSession (encode .dend) s)) s

end Sys2Proof.Machine
end

