-- ==== Sys2Proof/Machine/Frequency.lean ====
section
/-!
DEFINITION. The frequency analyser: SYM, ADDF, FIN (40_frequency.md R100 to R107).
-/

namespace Sys2Proof.Machine

/-- A record of the SortedFrequencyList: a symbol and its weight (00_scope.md R7). -/
structure Record where
  /-- The symbol. -/
  sym : Symbol
  /-- The weight: the count, in place of the probability. -/
  weight : Word
  deriving DecidableEq, Repr

/-- The effect common to SYM and ADDF: CountOverflow if TOTAL + n exceeds 2^32 - 1, else n added to FREQ[x] and TOTAL
(40_frequency.md R100, R101; 60_exceptions.md R230). -/
def addCount (cmd : Word) (x : Symbol) (n : Word) (s : State) : State :=
  if s.total.toNat + n.toNat > 2 ^ 32 - 1 then raise .countOverflow cmd s
  else { setFreq x (freqAt s x + n) s with total := s.total + n }

/-- The record of a symbol, if it has one: FREQ[x] > 0 (10_state.md R21, 40_frequency.md R103). -/
def recordOf (s : State) (x : Symbol) : Option Record := if freqAt s x = 0 then none else some ⟨x, freqAt s x⟩

/-- Every symbol, in rising order. -/
def allSymbols : List Symbol := (List.range 128).map (BitVec.ofNat 7)

/-- RecordSet(), listed in symbol order (40_frequency.md R103). -/
def recordSet (s : State) : List Record := allSymbols.filterMap (recordOf s)

/-- The synthetic record of the one record (x, w): ((x + 1) mod 128, 0) (40_frequency.md R104). -/
def synthetic (r : Record) : Record := ⟨r.sym + 1, 0⟩

/-- The records with the synthetic one injected when there is exactly one (40_frequency.md R102, R104). -/
def withSynthetic : List Record → List Record
  | [r] => [r, synthetic r]
  | rs => rs

/-- The sort order: ascending by weight, ties broken by ascending symbol (40_frequency.md R105). -/
def recordBefore (a b : Record) : Bool := decide (a.weight < b.weight) || (decide (a.weight = b.weight) && decide (a.sym < b.sym))

/-- A record put at its place in a sorted list. -/
def insertRecord (r : Record) : List Record → List Record
  | [] => [r]
  | q :: rs => if recordBefore q r then q :: insertRecord r rs else r :: q :: rs

/-- Sort(R): the method is unobservable (40_frequency.md R105, 10_state.md R47; notes/assumptions/12.md). -/
def sortRecords : List Record → List Record
  | [] => []
  | r :: rs => insertRecord r (sortRecords rs)

/-- The leaf of a record (40_frequency.md R102, R106). -/
def leafOf (r : Record) : NodeEntry := ⟨true, r.sym, r.weight, 0, 0⟩

/-- Leaf seeding: the records of the list stored as leaves at NODE[i], NODE[i+1], ... (40_frequency.md R106). -/
def seedLeaves : Nat → List Record → State → State
  | _, [], s => s
  | i, r :: rs, s => seedLeaves (i + 1) rs (setNode (BitVec.ofNat 8 i) (leafOf r) s)

/-- The sorted list FIN stores (40_frequency.md R102). -/
def sortedList (s : State) : List Record := sortRecords (withSynthetic (recordSet s))

/-- The rule of FIN once it is legal (40_frequency.md R102). -/
def finish (cmd : Word) (s : State) : State :=
  if recordSet s = [] then raise .emptyInput cmd s
  else
    { seedLeaves 0 (sortedList s) s with
      nleaf := BitVec.ofNat 8 (sortedList s).length
      phase := pSorted }

/-- SYM x: consume one symbol (40_frequency.md R100). -/
def execSym (x : Symbol) (s : State) : Result :=
  work (.sym x) (fun s => .next (addCount (encode (.sym x)) x 1 s)) s

/-- ADDF x, n: add n to the count of x (40_frequency.md R101). -/
def execAddf (x : Symbol) (n : BitVec 16) (s : State) : Result :=
  work (.addf x n) (fun s => .next (addCount (encode (.addf x n)) x (countOperand n) s)) s

/-- FIN: end of input (40_frequency.md R102). -/
def execFin (s : State) : Result := work .fin (fun s => .next (finish (encode .fin) s)) s

end Sys2Proof.Machine
end

