-- ==== Sys2Proof/Machine/Packer.lean ====
section
/-!
DEFINITION. The encode path and bit packer: ENC, PBIT, PACK (43_bitpacker.md R160 to R167).
-/

namespace Sys2Proof.Machine

/-- Bits appended to BITBUF all or nothing: BufferOverflow if they do not fit in `cap` (43_bitpacker.md R160, R161;
60_exceptions.md R225). -/
def appendBits (cap : Nat) (cmd : Word) (bits : List Bool) (s : State) : State :=
  if s.bitbuf.length + bits.length > cap then raise .bufferOverflow cmd s
  else { s with bitbuf := s.bitbuf ++ bits }

/-- The rule of ENC with a buffer of `cap` bits: UnsetCodeError, then BufferOverflow (43_bitpacker.md R160). -/
def encodeSymbol (cap : Nat) (cmd : Word) (x : Symbol) (s : State) : State :=
  if (codeAt s x).valid then appendBits cap cmd (codeAt s x).sequence s else raise .unsetCode cmd s

/-- The rule of PBIT with a buffer of `cap` bits: InvalidBitError, then BufferOverflow (43_bitpacker.md R161). -/
def appendRawBit (cap : Nat) (cmd : Word) (v : Byte) (s : State) : State :=
  if v > 1 then raise .invalidBit cmd s else appendBits cap cmd [v.getLsbD 0] s

/-- ShiftIn(x): the accumulator with byte-boundary detection (43_bitpacker.md R164). -/
def shiftIn (s : State) (x : Bool) : State :=
  if s.nbits + 1 = 8 then { emitB (s.acc.extractLsb' 0 7 ++ BitVec.ofBool x) s with acc := 0, nbits := 0 }
  else { s with acc := s.acc.extractLsb' 0 7 ++ BitVec.ofBool x, nbits := s.nbits + 1 }

/-- The rule of PACK: the padding, then the buffer, shifted in; the buffer emptied (43_bitpacker.md R162, R163). -/
def packAll (s : State) : State :=
  { (paddingBits s.bitbuf.length ++ s.bitbuf).foldl shiftIn s with bitbuf := [] }

/-- ENC x: append the code of x to the bit buffer (43_bitpacker.md R160). -/
def execEnc (x : Symbol) (s : State) : Result :=
  work (.enc x) (fun s => .next (encodeSymbol Config.bitbufCap (encode (.enc x)) x s)) s

/-- PBIT v: append one raw bit to the bit buffer (43_bitpacker.md R161). -/
def execPbit (v : Byte) (s : State) : Result :=
  work (.pbit v) (fun s => .next (appendRawBit Config.bitbufCap (encode (.pbit v)) v s)) s

/-- PACK: pad, emit the bytes, empty the buffer (43_bitpacker.md R162). -/
def execPack (s : State) : Result := work .pack (fun s => .next (packAll s)) s

end Sys2Proof.Machine
end

