-- ==== Sys2Proof/Machine/Service.lean ====
section
/-!
DEFINITION. The service commands NOP, CLR, RDCSR, RDNODE, RDWT, RDLEN, RDCODE (45_system.md R200 to R206).
-/

namespace Sys2Proof.Machine

/-- The word of RDNODE: bit 24 leaf, bits [22:16] sym, [15:8] left, [7:0] right (45_system.md R203). -/
def nodeWord (e : NodeEntry) : Word := 0#7 ++ BitVec.ofBool e.leaf ++ 0#1 ++ e.sym ++ e.left ++ e.right

/-- The word of RDLEN: bit 8 valid, bits [6:0] len (45_system.md R205). -/
def lengthWord (e : CodeEntry) : Word := 0#23 ++ BitVec.ofBool e.valid ++ 0#1 ++ e.len

/-- NOP: do nothing (45_system.md R200). -/
def execNop (s : State) : Result := service .nop id s

/-- CLR: clear the block (45_system.md R201). -/
def execClr (s : State) : Result := service .clr clearAll s

/-- RDCSR k: append CSR(k) to RSP (45_system.md R202). -/
def execRdcsr (k : Byte) (s : State) : Result := service (.rdcsr k) (fun s => emitR (s.csr k) s) s

/-- RDNODE i: append the structure fields of NODE[i] to RSP (45_system.md R203). -/
def execRdnode (i : NodeIdx) (s : State) : Result := service (.rdnode i) (fun s => emitR (nodeWord (nodeAt s i)) s) s

/-- RDWT i: append NODE[i].weight to RSP (45_system.md R204). -/
def execRdwt (i : NodeIdx) (s : State) : Result := service (.rdwt i) (fun s => emitR (nodeAt s i).weight s) s

/-- RDLEN x: append the valid bit and length of CODE[x] to RSP (45_system.md R205). -/
def execRdlen (x : Symbol) (s : State) : Result := service (.rdlen x) (fun s => emitR (lengthWord (codeAt s x)) s) s

/-- RDCODE x, k: append chunk k of the code of x to RSP (45_system.md R206). -/
def execRdcode (x : Symbol) (k : BitVec 2) (s : State) : Result :=
  service (.rdcode x k) (fun s => emitR (codeChunk (codeAt s x).bits k) s) s

end Sys2Proof.Machine
end

