-- ==== Sys2Proof/Machine/TreeBuilder.lean ====
section
/-!
DEFINITION. The tree builder: BUILD as the loop of 41_treebuilder.md R120 over the pieces R121 to R125, and the two-queue merge FSM of
R123 over the same pieces.
-/

namespace Sys2Proof.Machine

/-- Seed() (41_treebuilder.md R121). -/
def seed (s : State) : State := { s with srcHead := 0, tgtHead := s.nleaf, tgtTail := s.nleaf }

/-- The source queue is empty (10_state.md R25). -/
def srcEmpty (s : State) : Bool := decide (s.srcHead = s.nleaf)

/-- The target queue is empty (10_state.md R25). -/
def tgtEmpty (s : State) : Bool := decide (s.tgtHead = s.tgtTail)

/-- The front of the source queue, and the state with it removed. -/
def takeSource (s : State) : NodeIdx × State := (s.srcHead, { s with srcHead := s.srcHead + 1 })

/-- The front of the target queue, and the state with it removed. -/
def takeTarget (s : State) : NodeIdx × State := (s.tgtHead, { s with tgtHead := s.tgtHead + 1 })

/-- Take(): from the only queue that holds a node, else from source when its front weight is at most target's front weight, else from
target (41_treebuilder.md R122). Both empty "does not arise" (notes/assumptions/7.md). -/
def take (s : State) : Except Fault (NodeIdx × State) :=
  if srcEmpty s then
    if tgtEmpty s then .error .emptyQueues else .ok (takeTarget s)
  else if tgtEmpty s then .ok (takeSource s)
  else do
    let a ← readNode s s.srcHead
    let b ← readNode s s.tgtHead
    if a.weight ≤ b.weight then .ok (takeSource s) else .ok (takeTarget s)

/-- TB_A <- Take() (41_treebuilder.md R120, R123). -/
def takeFirst (s : State) : Except Fault State := do
  let (i, t) ← take s
  .ok { t with tbA := i }

/-- TB_B <- Take() (41_treebuilder.md R120, R123). -/
def takeSecond (s : State) : Except Fault State := do
  let (i, t) ← take s
  .ok { t with tbB := i }

/-- The merged node written at the back of target, left = first taken, right = second taken, and TGT_TAIL advanced
(41_treebuilder.md R120, R124). -/
def writeMerged (s : State) : Except Fault State := do
  let a ← readNode s s.tbA
  let b ← readNode s s.tbB
  let t ← writeNode s.tgtTail ⟨false, 0, a.weight + b.weight, s.tbA, s.tbB⟩ s
  .ok { t with tgtTail := s.tgtTail + 1 }

/-- One merge: the body of the loop of R120. -/
def mergeOnce (s : State) : Except Fault State := do
  let s1 ← takeFirst s
  let s2 ← takeSecond s1
  writeMerged s2

/-- Remaining(): the number of nodes across both queues (41_treebuilder.md R125). -/
def remaining (s : State) : Nat := (s.nleaf.toNat - s.srcHead.toNat) + (s.tgtTail.toNat - s.tgtHead.toNat)

/-- The loop of R120, `repeat ... until Remaining() = 1`, with a bound on its merges that no run meets (41_treebuilder.md R125,
notes/assumptions/7.md). -/
def mergeLoop : Nat → State → Except Fault State
  | 0, _ => .error .mergeBound
  | bound + 1, s => do
    let t ← mergeOnce s
    if remaining t = 1 then .ok t else mergeLoop bound t

/-- The end of the build: ROOT, TBSTATE and PHASE (41_treebuilder.md R120). -/
def finishBuild (s : State) : State := { s with root := s.tgtHead, tbState := tbDone, phase := pTree }

/-- The rule of BUILD once it is legal (41_treebuilder.md R120). -/
def buildTree (s : State) : Except Fault State := do
  let t ← mergeLoop 255 (seed s)
  .ok (finishBuild t)

/-! ## The FSM (R123): the same build, one transition at a time -/

/-- One transition of the two-queue merge FSM after BUILD is accepted (41_treebuilder.md R123). TB_DONE and the values 5 to 7, which are
never taken (10_state.md R26), have no move. -/
def fsmStep (s : State) : Except Fault State :=
  if s.tbState = tbIdle then .ok { seed s with tbState := tbTake1 }
  else if s.tbState = tbTake1 then do
    let t ← takeFirst s
    .ok { t with tbState := tbTake2 }
  else if s.tbState = tbTake2 then do
    let t ← takeSecond s
    .ok { t with tbState := tbMerge }
  else if s.tbState = tbMerge then do
    let t ← writeMerged s
    if remaining t = 1 then .ok (finishBuild t) else .ok { t with tbState := tbTake1 }
  else .ok s

/-- `n` transitions of the FSM. -/
def fsmRun : Nat → State → Except Fault State
  | 0, s => .ok s
  | n + 1, s => do
    let t ← fsmStep s
    fsmRun n t

/-- BUILD: run the two-queue merge to completion (41_treebuilder.md R120). -/
def execBuild (s : State) : Result := work .build (fun s => outcomeOf (buildTree s)) s

end Sys2Proof.Machine
end

