-- ==== Sys2Proof/Machine/Dispatch.lean ====
section
/-!
DEFINITION. One arm per command, each a direct call of its meaning.
-/

namespace Sys2Proof.Machine

def exec (i : Instr) (s : State) : Host.Outcome State Fault Refusal :=
  match i with
  | .nop => Sys2Proof.Machine.execNop s
  | .clr => Sys2Proof.Machine.execClr s
  | .rdcsr k => Sys2Proof.Machine.execRdcsr k s
  | .rdnode j => Sys2Proof.Machine.execRdnode j s
  | .rdwt j => Sys2Proof.Machine.execRdwt j s
  | .rdlen x => Sys2Proof.Machine.execRdlen x s
  | .rdcode x k => Sys2Proof.Machine.execRdcode x k s
  | .sym x => Sys2Proof.Machine.execSym x s
  | .addf x n => Sys2Proof.Machine.execAddf x n s
  | .fin => Sys2Proof.Machine.execFin s
  | .build => Sys2Proof.Machine.execBuild s
  | .table => Sys2Proof.Machine.execTable s
  | .enc x => Sys2Proof.Machine.execEnc x s
  | .pbit v => Sys2Proof.Machine.execPbit v s
  | .pack => Sys2Proof.Machine.execPack s
  | .dbeg => Sys2Proof.Machine.execDbeg s
  | .ubyte b => Sys2Proof.Machine.execUbyte b s
  | .dend => Sys2Proof.Machine.execDend s

end Sys2Proof.Machine
end

