-- ==== Sys2Proof/Machine/Step.lean ====
section
/-!
DEFINITION. One step: the next event of the port taken (10_state.md R44, R50; 70_reset_and_hazards.md R255, R256).
-/

namespace Sys2Proof.Machine

/-- The instruction word placed where `step` takes its next one: before everything the host has still to send. -/
def State.withFetchWord (s : State) (nbits w : Nat) : State := presentFirst (tableWord nbits w) s

/-- One step. No event: the block "does nothing and keeps its state" (60_exceptions.md R245). Hardware reset: the reset state (70 R250).
A command word: the command it decodes to, or the rule for illegal words (30_encoding.md R87). -/
def step (s : State) : Host.Outcome State Fault Refusal :=
  match takeEvent s with
  | none => .next s
  | some (.rst, t) => .next (hardReset t)
  | some (.cmd w, t) =>
    match decode w with
    | .ok i => exec i t
    | .error _ => .next (illegal w t)

end Sys2Proof.Machine
end

