-- ==== Sys2Proof/Machine/Assembler.lean ====
section
/-!
DEFINITION. The textual form of commands (30_encoding.md R88) and the pseudo-instructions (R89). No step of the machine uses them: they
say which command words a line of text stands for. What R88 leaves open is in notes/assumptions/14.md.
-/

namespace Sys2Proof.Machine

/-! ## Pseudo-instructions (R89) -/

/-- ANALYSE: one SYM per symbol. -/
def analyse (t : List Symbol) : List Instr := t.map .sym

/-- ENCODE: one ENC per symbol. -/
def encodeText (t : List Symbol) : List Instr := t.map .enc

/-- BITS: one PBIT per bit. -/
def pushBits (bs : List Bool) : List Instr := bs.map fun b => .pbit (if b then 1 else 0)

/-- BYTES: one UBYTE per byte. -/
def sendBytes (bs : List Byte) : List Instr := bs.map .ubyte

/-- COMPRESS, the document's `encode(input_source)` (R89; 70_reset_and_hazards.md R253). Of an empty string it keeps CLR, FIN, BUILD, TABLE
and PACK: DESIGN CHOICE, safe (notes/assumptions/14.md). -/
def compress (t : List Symbol) : List Instr :=
  [.clr] ++ analyse t ++ [.fin, .build, .table] ++ encodeText t ++ [.pack]

/-- EXPAND, the document's `decode(encoded_bytes, tree)` (R89; 70_reset_and_hazards.md R254). Of an empty list it keeps DBEG and DEND:
DESIGN CHOICE, safe (notes/assumptions/14.md). -/
def expand (bs : List Byte) : List Instr := [.dbeg] ++ sendBytes bs ++ [.dend]

/-! ## One line of text (R88) -/

/-- The tokens of a line: a run of letters, a number, a string, a comma. -/
inductive Token where
  | word (cs : List Char)
  | number (n : Nat)
  | text (cs : List Char)
  | comma
  deriving DecidableEq, Repr

/-- Where the reader of a line stands. -/
inductive LexMode where
  /-- Between or inside words and numbers; the characters read of the current one. -/
  | plain (acc : List Char)
  /-- Inside a string; the characters read of it. -/
  | inText (acc : List Char)
  /-- After an opening single quote. -/
  | charBody
  /-- After the character, before the closing single quote. -/
  | charEnd (n : Nat)

/-- A single printable ASCII character. -/
def isPrintable (c : Char) : Bool := decide (32 ≤ c.toNat) && decide (c.toNat ≤ 126)

/-- A capital letter. -/
def isCapital (c : Char) : Bool := decide (65 ≤ c.toNat) && decide (c.toNat ≤ 90)

/-- The value of a decimal digit. -/
def decimalDigit (c : Char) : Option Nat := if 48 ≤ c.toNat ∧ c.toNat ≤ 57 then some (c.toNat - 48) else none

/-- The value of a hexadecimal digit, in either case. -/
def hexDigit (c : Char) : Option Nat :=
  if 65 ≤ c.toNat ∧ c.toNat ≤ 70 then some (c.toNat - 55)
  else if 97 ≤ c.toNat ∧ c.toNat ≤ 102 then some (c.toNat - 87)
  else decimalDigit c

/-- The value of a non-empty run of digits in a base. -/
def digits (digit : Char → Option Nat) (base : Nat) : Nat → List Char → Option Nat
  | n, [] => some n
  | n, c :: cs => (digit c).bind fun d => digits digit base (n * base + d) cs

/-- The token of a run of characters: a mnemonic in capitals, a decimal number, or a hexadecimal number. -/
def wordToken (cs : List Char) : Option Token :=
  if cs.all isCapital then some (.word cs)
  else
    match cs with
    | '0' :: 'x' :: d :: ds => (digits hexDigit 16 0 (d :: ds)).map .number
    | _ => (digits decimalDigit 10 0 cs).map .number

/-- The token of the current run, if there is one, before the tokens that follow. -/
def flush (acc : List Char) (rest : Option (List Token)) : Option (List Token) :=
  if acc = [] then rest else do
    let t ← wordToken acc
    let ts ← rest
    some (t :: ts)

/-- The tokens of a line. A `#` outside quotes (35) starts a comment; single quote is 39, double quote 34, comma 44, space 32, tab 9. -/
def lex : LexMode → List Char → Option (List Token)
  | .plain acc, [] => flush acc (some [])
  | .inText _, [] => none
  | .charBody, [] => none
  | .charEnd _, [] => none
  | .plain acc, c :: cs =>
    if c.toNat = 35 then flush acc (some [])
    else if c.toNat = 32 ∨ c.toNat = 9 then flush acc (lex (.plain []) cs)
    else if c.toNat = 44 then flush acc ((lex (.plain []) cs).map (.comma :: ·))
    else if c.toNat = 34 then (if acc = [] then lex (.inText []) cs else none)
    else if c.toNat = 39 then (if acc = [] then lex .charBody cs else none)
    else lex (.plain (acc ++ [c])) cs
  | .inText acc, c :: cs =>
    if c.toNat = 34 then (lex (.plain []) cs).map (.text acc :: ·)
    else if isPrintable c then lex (.inText (acc ++ [c])) cs
    else none
  | .charBody, c :: cs => if isPrintable c then lex (.charEnd c.toNat) cs else none
  | .charEnd n, c :: cs => if c.toNat = 39 then (lex (.plain []) cs).map (.number n :: ·) else none

/-- Operands separated by commas. -/
def operandList : List Token → Option (List Nat)
  | [] => some []
  | [.number n] => some [n]
  | .number n :: .comma :: t :: ts => (operandList (t :: ts)).map (n :: ·)
  | _ => none

/-- The operand as a symbol; "The assembler refuses an operand outside the format's range" (R88). -/
def symbolOperand (n : Nat) : Option Symbol := if n < 128 then some (BitVec.ofNat 7 n) else none

/-- The operand as a byte, refused outside 0..255. -/
def byteOperand (n : Nat) : Option Byte := if n < 256 then some (BitVec.ofNat 8 n) else none

/-- A command kept if its operands are in range. -/
def inRange (i : Instr) : Option Instr := if i.wf then some i else none

/-- The command of a mnemonic and its operands, in the operand order of R84. -/
def assembleCommand (m : List Char) (ops : List Nat) : Option Instr :=
  match ops with
  | [] =>
    if m = ['N', 'O', 'P'] then some .nop
    else if m = ['C', 'L', 'R'] then some .clr
    else if m = ['F', 'I', 'N'] then some .fin
    else if m = ['B', 'U', 'I', 'L', 'D'] then some .build
    else if m = ['T', 'A', 'B', 'L', 'E'] then some .table
    else if m = ['P', 'A', 'C', 'K'] then some .pack
    else if m = ['D', 'B', 'E', 'G'] then some .dbeg
    else if m = ['D', 'E', 'N', 'D'] then some .dend
    else none
  | [a] =>
    if m = ['R', 'D', 'C', 'S', 'R'] then (byteOperand a).bind fun k => inRange (.rdcsr k)
    else if m = ['R', 'D', 'N', 'O', 'D', 'E'] then (byteOperand a).bind fun i => inRange (.rdnode i)
    else if m = ['R', 'D', 'W', 'T'] then (byteOperand a).bind fun i => inRange (.rdwt i)
    else if m = ['R', 'D', 'L', 'E', 'N'] then (symbolOperand a).map .rdlen
    else if m = ['S', 'Y', 'M'] then (symbolOperand a).map .sym
    else if m = ['E', 'N', 'C'] then (symbolOperand a).map .enc
    else if m = ['P', 'B', 'I', 'T'] then (byteOperand a).map .pbit
    else if m = ['U', 'B', 'Y', 'T', 'E'] then (byteOperand a).map .ubyte
    else none
  | [a, b] =>
    if m = ['A', 'D', 'D', 'F'] then
      (symbolOperand a).bind fun x => if b < 65536 then some (.addf x (BitVec.ofNat 16 b)) else none
    else if m = ['R', 'D', 'C', 'O', 'D', 'E'] then
      (symbolOperand a).bind fun x => if b < 4 then some (.rdcode x (BitVec.ofNat 2 b)) else none
    else none
  | _ => none

/-- The symbols of a string of printable ASCII characters. -/
def symbolsOf (cs : List Char) : List Symbol := cs.map fun c => BitVec.ofNat 7 c.toNat

/-- The bits of a string of the characters 0 and 1. -/
def bitsOf (cs : List Char) : Option (List Bool) :=
  cs.mapM fun c => if c = '1' then some true else if c = '0' then some false else none

/-- The commands of a pseudo-instruction with a string (R89). -/
def assembleText (m cs : List Char) : Option (List Instr) :=
  if m = ['A', 'N', 'A', 'L', 'Y', 'S', 'E'] then some (analyse (symbolsOf cs))
  else if m = ['E', 'N', 'C', 'O', 'D', 'E'] then some (encodeText (symbolsOf cs))
  else if m = ['B', 'I', 'T', 'S'] then (bitsOf cs).map pushBits
  else if m = ['C', 'O', 'M', 'P', 'R', 'E', 'S', 'S'] then some (compress (symbolsOf cs))
  else none

/-- The commands of a mnemonic or pseudo-instruction with numeric operands. -/
def assembleNumbers (m : List Char) (ops : List Nat) : Option (List Instr) :=
  if m = ['B', 'Y', 'T', 'E', 'S'] then (ops.mapM byteOperand).map sendBytes
  else if m = ['E', 'X', 'P', 'A', 'N', 'D'] then (ops.mapM byteOperand).map expand
  else (assembleCommand m ops).map ([·])

/-- The commands a line stands for: none for an empty or comment line; refused if it is not of the form of R88 or R89. -/
def assembleLine (line : List Char) : Option (List Instr) :=
  (lex (.plain []) line).bind fun ts =>
    match ts with
    | [] => some []
    | [.word m, .text cs] => assembleText m cs
    | .word m :: ops => (operandList ops).bind (assembleNumbers m)
    | _ => none

/-- The command words of a line. -/
def assembleWords (line : List Char) : Option (List Word) := (assembleLine line).map fun is => is.map encode

end Sys2Proof.Machine
end

