-- ==== Sys2Proof/Safety.lean ====
section
/-!
DEFINITION. The terms that claims use: the run and its clean end (70_reset_and_hazards.md R255), the tree and the paths in it
(10_state.md R23, 42_codetable.md R141), and the invariants of every reachable state (10_state.md R46).
-/

namespace Sys2Proof.Machine

/-! ## Runs (70_reset_and_hazards.md R255) -/

/-- The result of a run: the command words applied to the reset state. -/
def runWords (ws : List Word) : Result := Sys2Proof.core.run ws.length (present ws State.reset)

/-- The clean end: no fault, no open decode session, no bits gathered but not packed (70_reset_and_hazards.md R255). -/
def State.endedCleanly (s : State) : Bool :=
  decide (s.err = 0) && decide (s.uphase = uIdle) && decide (s.bitbuf.length = 0)

/-! ## The tree -/

/-- The entry of NODE at a numeric index. -/
def nodeEntry (s : State) (i : Nat) : NodeEntry := Memory.read .zero s.node i

/-- Walking down from a node along edges, 0 left and 1 right, through internal entries only (42_codetable.md R141). -/
def followPath (s : State) : NodeIdx → List Bool → Option NodeIdx
  | i, [] => some i
  | i, b :: p =>
    if i = 255#8 ∨ (nodeAt s i).leaf = true then none
    else followPath s (if b then (nodeAt s i).right else (nodeAt s i).left) p

/-- The bit sequence leads from the root to a leaf of the symbol: it is that leaf's Path (42_codetable.md R141). -/
def isPathTo (s : State) (p : List Bool) (x : Symbol) : Prop :=
  p ≠ [] ∧ ∃ i, followPath s s.root p = some i ∧ i ≠ 255#8 ∧ (nodeAt s i).leaf = true ∧ (nodeAt s i).sym = x

/-- Entry `i` names entry `j` as a child. -/
def isChild (s : State) (i j : Nat) : Prop := (nodeEntry s i).left.toNat = j ∨ (nodeEntry s i).right.toNat = j

/-- NODE holds a strict tree over the NLEAF leaves with the node map of 20_memory.md R69 (10_state.md R46 item 4). -/
structure TreeShape (s : State) : Prop where
  /-- NLEAF is 2..128 (10_state.md R24). -/
  leafCount : 2 ≤ s.nleaf.toNat ∧ s.nleaf.toNat ≤ 128
  /-- ROOT = 2 NLEAF - 2. -/
  rootIndex : s.root.toNat = 2 * s.nleaf.toNat - 2
  /-- Entries below NLEAF are leaves. -/
  leaves : ∀ i, i < s.nleaf.toNat → (nodeEntry s i).leaf = true
  /-- Entries NLEAF..ROOT are internal, with two different children of lower index. -/
  internal : ∀ i, s.nleaf.toNat ≤ i → i ≤ 2 * s.nleaf.toNat - 2 →
    (nodeEntry s i).leaf = false ∧ (nodeEntry s i).left.toNat < i ∧ (nodeEntry s i).right.toNat < i ∧
      (nodeEntry s i).left ≠ (nodeEntry s i).right
  /-- Every entry below ROOT has a parent. -/
  parent : ∀ j, j < 2 * s.nleaf.toNat - 2 → ∃ i, s.nleaf.toNat ≤ i ∧ i ≤ 2 * s.nleaf.toNat - 2 ∧ isChild s i j
  /-- No entry has two parents. -/
  oneParent : ∀ i i' j, s.nleaf.toNat ≤ i → i ≤ 2 * s.nleaf.toNat - 2 → s.nleaf.toNat ≤ i' → i' ≤ 2 * s.nleaf.toNat - 2 →
    isChild s i j → isChild s i' j → i = i'

/-- The leaves are sorted by (weight, symbol), so their symbols differ pairwise (10_state.md R46 item 3). -/
def LeavesSorted (s : State) : Prop :=
  ∀ i j, i < j → j < s.nleaf.toNat →
    (nodeEntry s i).sym ≠ (nodeEntry s j).sym ∧
      ((nodeEntry s i).weight < (nodeEntry s j).weight ∨
        (nodeEntry s i).weight = (nodeEntry s j).weight ∧ (nodeEntry s i).sym < (nodeEntry s j).sym)

/-- Every internal entry's weight is the sum of its children's (10_state.md R46 item 4). -/
def WeightsAdd (s : State) : Prop :=
  ∀ i, s.nleaf.toNat ≤ i → i ≤ 2 * s.nleaf.toNat - 2 →
    (nodeEntry s i).weight.toNat =
      (nodeEntry s (nodeEntry s i).left.toNat).weight.toNat + (nodeEntry s (nodeEntry s i).right.toNat).weight.toNat

/-- The sum of the weights of entries 0..n-1. -/
def weightSum (s : State) (n : Nat) : Nat := ((List.range n).map fun i => (nodeEntry s i).weight.toNat).sum

/-- FREQ[0] + ... + FREQ[127] (10_state.md R22). -/
def countSum (s : State) : Nat := (allSymbols.map fun x => (freqAt s x).toNat).sum

/-- Every valid code entry of CODE holds the path of its symbol's leaf, and every leaf's symbol has one (10_state.md R46 item 5). -/
structure CodesArePaths (s : State) : Prop where
  /-- A valid entry is a path to its symbol. -/
  path : ∀ x, (codeAt s x).valid = true → isPathTo s (codeAt s x).sequence x
  /-- A leaf's symbol has a valid entry. -/
  complete : ∀ i, i < s.nleaf.toNat → (codeAt s (nodeEntry s i).sym).valid = true

/-! ## The invariants of every reachable state (10_state.md R46) -/

/-- The memories are in canonical form, within their spaces (20_memory.md R60; notes/assumptions/5.md). -/
abbrev MemoryForm (s : State) : Prop :=
  Memory.wf 0 128 s.freq = true ∧ Memory.wf .zero 255 s.node = true ∧ Memory.wf .unset 128 s.code = true

/-- R46 items 1, 7, 8 and 9, and the values TBSTATE and UPHASE take between commands (10_state.md R26, R31). -/
structure RegisterRules (s : State) : Prop where
  /-- Item 1. -/
  total : s.total.toNat = countSum s
  /-- Item 7: the buffer fits. -/
  fits : s.bitbuf.length ≤ Config.bitbufCap
  /-- Item 7: the accumulator is empty between commands. -/
  accumulator : s.acc = 0 ∧ s.nbits = 0
  /-- Item 8. -/
  errcmd : s.err = 0 ↔ s.errcmd = 0
  /-- Item 9. -/
  codes : s.err = 0 ∨ s.err = 1 ∨ s.err = 2 ∨ s.err = 3 ∨ s.err = 5 ∨ s.err = 6 ∨ s.err = 7 ∨ s.err = 8 ∨ s.err = 9
  /-- R26: 0 or 4 between commands. -/
  tbState : s.tbState = tbIdle ∨ s.tbState = tbDone
  /-- R31: the value 3 is never taken. -/
  uphase : s.uphase = uIdle ∨ s.uphase = uFirst ∨ s.uphase = uPayload

/-- R46 items 2 to 6: what each PHASE and an open session say of the pipeline's memories. -/
structure PipelineRules (s : State) : Prop where
  /-- Item 2. -/
  analyse : s.phase = pAnalyse → s.nleaf = 0 ∧ s.tbState = tbIdle ∧ (∀ i, nodeEntry s i = .zero) ∧ s.uphase = uIdle
  /-- Item 3, with the sum that item 4 needs. -/
  leaves : s.phase ≠ pAnalyse → 2 ≤ s.nleaf.toNat ∧ s.nleaf.toNat ≤ 128 ∧
    (∀ i, i < s.nleaf.toNat → (nodeEntry s i).leaf = true) ∧ LeavesSorted s ∧ weightSum s s.nleaf.toNat = s.total.toNat
  /-- Item 4, PHASE = 1. -/
  sorted : s.phase = pSorted → s.tbState = tbIdle ∧ s.uphase = uIdle ∧ ∀ i, s.nleaf.toNat ≤ i → nodeEntry s i = .zero
  /-- Item 4, PHASE at least 2. -/
  tree : pTree ≤ s.phase → s.tbState = tbDone ∧ s.srcHead = s.nleaf ∧ s.tgtHead = s.root ∧
    s.tgtTail.toNat = 2 * s.nleaf.toNat - 1 ∧ TreeShape s ∧ WeightsAdd s ∧
    (nodeEntry s s.root.toNat).weight = s.total ∧ ∀ i, s.root.toNat < i → nodeEntry s i = .zero
  /-- Item 5, PHASE = 3. -/
  table : s.phase = pReady → CodesArePaths s
  /-- Item 5, PHASE below 3. -/
  unset : s.phase ≠ pReady → ∀ x, codeAt s x = .unset
  /-- Item 6. -/
  session : s.uphase ≠ uIdle → pTree ≤ s.phase ∧ s.nleaf.toNat ≤ s.cursor.toNat ∧ s.cursor.toNat ≤ s.root.toNat

/-- All of R46, and the memories in the model's own canonical form (notes/assumptions/5.md). -/
structure Inv (s : State) : Prop where
  /-- The memories' form. -/
  memory : MemoryForm s
  /-- Items 1, 7, 8, 9. -/
  registers : RegisterRules s
  /-- Items 2 to 6. -/
  pipeline : PipelineRules s

end Sys2Proof.Machine
end

