-- ==== Sys2Proof/Certificates/Slice0/Obligations.lean ====
section
/-!
DEFINITION. The statements for the provers, each from the spec's numbered rules. Every statement about a command's result concludes that
`exec` answers a next state, and gives its frame as a record update: `t = { s with ... }` says that every field not named is unchanged.
-/

open Sys2Proof Sys2Proof.Machine

/-! ## Encoding (30_encoding.md) -/

/-- Words written out from the encoding rows of 30_encoding.md R84, its examples in R88 and the vectors of 95_test_vectors.md decode to the
commands they stand for; the nine words of section 2.7 there are illegal (R85). -/
def Obligations.SpecWordsDecode : Prop :=
  decode 0x00000000 = .ok .nop ∧ decode 0x01000000 = .ok .clr ∧ decode 0x08050000 = .ok (.rdcsr 5) ∧
  decode 0x09040000 = .ok (.rdnode 4) ∧ decode 0x0A030000 = .ok (.rdwt 3) ∧ decode 0x0B620000 = .ok (.rdlen 98) ∧
  decode 0x0C450000 = .ok (.rdcode 69 0) ∧ decode 0x10610000 = .ok (.sym 97) ∧ decode 0x1166002D = .ok (.addf 102 45) ∧
  decode 0x12000000 = .ok .fin ∧ decode 0x20000000 = .ok .build ∧ decode 0x30000000 = .ok .table ∧
  decode 0x40610000 = .ok (.enc 97) ∧ decode 0x41020000 = .ok (.pbit 2) ∧ decode 0x42000000 = .ok .pack ∧
  decode 0x50000000 = .ok .dbeg ∧ decode 0x517F0000 = .ok (.ubyte 127) ∧ decode 0x52000000 = .ok .dend ∧
  decode 0x7F000000 = .error .unassignedOpc ∧ decode 0x00000001 = .error .mustBeZero ∧ decode 0x01000001 = .error .mustBeZero ∧
  decode 0x12010000 = .error .mustBeZero ∧ decode 0x10800000 = .error .mustBeZero ∧
  decode 0x08060000 = .error .csrNumber ∧ decode 0x09FF0000 = .error .nodeIndex ∧
  decode 0x0C450004 = .error .mustBeZero ∧ decode 0x41010001 = .error .mustBeZero

/-- Decoding the word of any well-formed command gives that command back, with every operand at every value of its format
(30_encoding.md R82, R83). -/
def Obligations.DecodeInvertsEncode : Prop :=
  ∀ i : Instr, i.wf = true → decode (encode i) = .ok i

/-- A word that decodes is the word of a well-formed command: no bit of it is dropped, and each command has one word
(30_encoding.md R82, R85). -/
def Obligations.EncodeInvertsDecode : Prop :=
  ∀ (w : Word) (i : Instr), decode w = .ok i → i.wf = true ∧ encode i = w

/-- The decoder accepts exactly the words that select a row of the spec's table of match and mask, and gives the command of that row
(30_encoding.md R84, R85). -/
def Obligations.DecoderFollowsTheTable : Prop :=
  (∀ (w : Word) (i : Instr), decode w = .ok i → ∃ r ∈ opRows, r.selects w = true ∧ r.mnemonic = i.mnemonic) ∧
  ∀ (w : Word) (r : OpRow), r ∈ opRows → r.selects w = true → ∃ i, decode w = .ok i ∧ i.mnemonic = r.mnemonic

/-- "No two rows can match the same word" (30_encoding.md R84). -/
def Obligations.OneRowPerWord : Prop :=
  ∀ (w : Word) (r r' : OpRow), r ∈ opRows → r' ∈ opRows → r.selects w = true → r'.selects w = true → r = r'

/-- The assembler gives the words of the examples of 30_encoding.md R88, refuses the least operand out of range of each kind (a symbol, a
byte, a count, a chunk, a CSR number, a node index), and expands a line of each of the six pseudo-instructions of R89. -/
def Obligations.AssemblerGivesTheSpecWords : Prop :=
  assembleWords "SYM 'a'".toList = some [0x10610000] ∧ assembleWords "ADDF 'f', 45".toList = some [0x1166002D] ∧
  assembleWords "UBYTE 0x7F".toList = some [0x517F0000] ∧ assembleWords "RDCODE 'E', 0".toList = some [0x0C450000] ∧
  assembleWords "SYM 128".toList = none ∧ assembleWords "UBYTE 256".toList = none ∧ assembleWords "ADDF 0, 65536".toList = none ∧
  assembleWords "RDCODE 0, 4".toList = none ∧ assembleWords "RDCSR 6".toList = none ∧ assembleWords "RDNODE 255".toList = none ∧
  assembleWords "ANALYSE \"ab\"".toList = some [0x10610000, 0x10620000] ∧
  assembleWords "ENCODE \"ab\"".toList = some [0x40610000, 0x40620000] ∧
  assembleWords "BYTES 0x7F, 10".toList = some [0x517F0000, 0x510A0000] ∧ assembleWords "BITS \"10\"".toList = some [0x41010000, 0x41000000] ∧
  assembleWords "EXPAND 0x05".toList = some [0x50000000, 0x51050000, 0x52000000] ∧
  assembleWords "COMPRESS \"ab\"".toList =
    some [0x01000000, 0x10610000, 0x10620000, 0x12000000, 0x20000000, 0x30000000, 0x40610000, 0x40620000, 0x42000000]

/-! ## A step (30_encoding.md R87; 70_reset_and_hazards.md) -/

/-- When the next event of the port is a word that decodes to `i`, a step takes the event and is `exec i` (30_encoding.md R87; the list of
words in order is 10_state.md R50's; holding it in State is the model's: notes/assumptions/1.md). -/
def Obligations.StepRunsTheDecodedCommand : Prop :=
  ∀ (s : State) (w : Word) (q : List PortEvent) (i : Instr),
    s.port = .cmd w :: q → decode w = .ok i → step s = exec i { s with port := q }

/-- A word that is no command raises IllegalCommand while ERR = 0 and is ignored while ERR is not 0 (30_encoding.md R85,
60_exceptions.md R227, R232; the port in State is the model's: notes/assumptions/1.md). -/
def Obligations.IllegalWordsFaultOrAreIgnored : Prop :=
  ∀ (s : State) (w : Word) (q : List PortEvent) (e : Reject), s.port = .cmd w :: q → decode w = .error e →
    (s.err = 0 → step s = .next { s with port := q, err := 5, errcmd := w }) ∧
    (s.err ≠ 0 → step s = .next { s with port := q })

/-- A block that is sent nothing keeps its state (60_exceptions.md R245), and hardware reset gives the reset state with empty traces
(70_reset_and_hazards.md R250, R251): every register 0, every memory entry 0, the buffer empty. That reset is an event of the port between
commands is the model's (notes/assumptions/2.md). -/
def Obligations.IdleStepAndHardwareReset : Prop :=
  (∀ s : State, s.port = [] → step s = .next s) ∧
  ∀ (s : State) (q : List PortEvent), s.port = .rst :: q →
    ∃ t, step s = .next t ∧ t.port = q ∧ (∀ x, freqAt t x = 0) ∧ t.total = 0 ∧ (∀ i, nodeAt t i = ⟨false, 0, 0, 0, 0⟩) ∧ t.nleaf = 0 ∧
      t.srcHead = 0 ∧ t.tgtHead = 0 ∧ t.tgtTail = 0 ∧ t.tbA = 0 ∧ t.tbB = 0 ∧ t.tbState = 0 ∧ t.root = 0 ∧
      (∀ x, codeAt t x = ⟨false, 0, 0⟩) ∧ t.bitbuf = [] ∧ t.acc = 0 ∧ t.nbits = 0 ∧ t.uphase = 0 ∧ t.cursor = 0 ∧
      t.phase = 0 ∧ t.err = 0 ∧ t.errcmd = 0 ∧ t.outb = [] ∧ t.outs = [] ∧ t.rsp = []

/-! ## The fault mechanism (60_exceptions.md) -/

/-- Every work command is ignored while ERR is not 0: nothing changes (60_exceptions.md R232). -/
def Obligations.FaultedBlockIgnoresWork : Prop :=
  ∀ (i : Instr) (s : State), isService i = false → s.err ≠ 0 → exec i s = .next s

/-- A work command out of its phase raises SequenceError and changes nothing else: the table of 30_encoding.md R91, row by row. -/
def Obligations.OutOfPhaseRaisesSequenceError : Prop :=
  ∀ s : State, s.err = 0 →
    (s.phase ≠ 0 → ∀ x, exec (.sym x) s = .next { s with err := 6, errcmd := encode (.sym x) }) ∧
    (s.phase ≠ 0 → ∀ x n, exec (.addf x n) s = .next { s with err := 6, errcmd := encode (.addf x n) }) ∧
    (s.phase ≠ 0 → exec .fin s = .next { s with err := 6, errcmd := 0x12000000 }) ∧
    (s.phase ≠ 1 → exec .build s = .next { s with err := 6, errcmd := 0x20000000 }) ∧
    (s.phase ≠ 2 → exec .table s = .next { s with err := 6, errcmd := 0x30000000 }) ∧
    (s.phase ≠ 3 → ∀ x, exec (.enc x) s = .next { s with err := 6, errcmd := encode (.enc x) }) ∧
    (s.phase.toNat < 2 ∨ s.uphase ≠ 0 → exec .dbeg s = .next { s with err := 6, errcmd := 0x50000000 }) ∧
    (s.uphase = 0 → ∀ b, exec (.ubyte b) s = .next { s with err := 6, errcmd := encode (.ubyte b) }) ∧
    (s.uphase = 0 → exec .dend s = .next { s with err := 6, errcmd := 0x52000000 })

/-- Faults are precise: a command that raises an error changes ERR and ERRCMD, the latter to its own word, and nothing else
(60_exceptions.md R231, 20_memory.md R67). It covers ill-formed terms too, which act as illegal words by the model's convention
(notes/assumptions/11.md). -/
def Obligations.FaultsArePrecise : Prop :=
  ∀ (i : Instr) (s t : State), s.err = 0 → exec i s = .next t → t.err ≠ 0 →
    t = { s with err := t.err, errcmd := encode i }

/-- ERR and ERRCMD hold the first error until CLR or hardware reset (10_state.md R34, 60_exceptions.md R231, R234). -/
def Obligations.FirstErrorStaysUntilClear : Prop :=
  ∀ s t : State, s.err ≠ 0 → step s = .next t →
    (∃ q, s.port = .rst :: q) ∨ (∃ q, s.port = .cmd 0x01000000 :: q) ∨ (t.err = s.err ∧ t.errcmd = s.errcmd)

/-- Which command may leave which error code: the column "raised by" of 60_exceptions.md R221; code 4 is never stored (R226). -/
def Obligations.ErrorCodesByCommand : Prop :=
  ∀ (i : Instr) (s t : State), s.err = 0 → i.wf = true → exec i s = .next t →
    t.err = 0 ∨ (t.err = 1 ∧ i = .fin) ∨ (t.err = 2 ∧ ∃ v, i = .pbit v) ∨ (t.err = 3 ∧ ((∃ b, i = .ubyte b) ∨ i = .dend)) ∨
    (t.err = 6 ∧ isService i = false) ∨ (t.err = 7 ∧ ∃ x, i = .enc x) ∨ (t.err = 8 ∧ ((∃ x, i = .enc x) ∨ ∃ v, i = .pbit v)) ∨
    (t.err = 9 ∧ ((∃ x, i = .sym x) ∨ ∃ x n, i = .addf x n))

/-- fault_o is 1 exactly while ERR is not 0: it rises when a command raises an error, which is then the command in ERRCMD, and falls at
CLR, at no other command, or at reset (60_exceptions.md R236). -/
def Obligations.FaultOutputFollowsErr : Prop :=
  (∀ s : State, s.faultO = 1 ↔ s.err ≠ 0) ∧ State.reset.faultO = 0 ∧
  (∀ s t : State, exec .clr s = .next t → t.faultO = 0) ∧
  (∀ (i : Instr) (s t : State), exec i s = .next t → s.faultO = 1 → t.faultO = 0 → i = .clr) ∧
  ∀ (i : Instr) (s t : State), exec i s = .next t → s.faultO = 0 → t.faultO = 1 → t.errcmd = encode i

/-! ## Service commands (45_system.md) -/

/-- NOP, the word 0, changes no register, memory or trace in any state; any other word with OPC 0 is illegal (45_system.md R200). -/
def Obligations.NopChangesNothing : Prop :=
  decode 0 = .ok .nop ∧ (∀ w : Word, w.extractLsb' 24 8 = 0 → w ≠ 0 → ∃ e, decode w = .error e) ∧
    ∀ s : State, exec .nop s = .next s

/-- CLR gives every register and memory its reset value and leaves the three traces alone, in every state, faulted or in a session
(45_system.md R201, 10_state.md R48). That it leaves `port` alone is the model's choice (notes/assumptions/1.md). -/
def Obligations.ClrClearsAllButTheTraces : Prop :=
  (∀ w : Word, decode w = .ok .clr ↔ w = 0x01000000) ∧
  ∀ s : State, ∃ t, exec .clr s = .next t ∧ (∀ x, freqAt t x = 0) ∧ t.total = 0 ∧ (∀ i, nodeAt t i = ⟨false, 0, 0, 0, 0⟩) ∧
    t.nleaf = 0 ∧ t.srcHead = 0 ∧ t.tgtHead = 0 ∧ t.tgtTail = 0 ∧ t.tbA = 0 ∧ t.tbB = 0 ∧ t.tbState = 0 ∧ t.root = 0 ∧
    (∀ x, codeAt t x = ⟨false, 0, 0⟩) ∧ t.bitbuf = [] ∧ t.acc = 0 ∧ t.nbits = 0 ∧ t.uphase = 0 ∧ t.cursor = 0 ∧ t.phase = 0 ∧
    t.err = 0 ∧ t.errcmd = 0 ∧ t.outb = s.outb ∧ t.outs = s.outs ∧ t.rsp = s.rsp ∧ t.port = s.port

/-- RDCSR appends one word, and changes nothing else, in every state: the six CSRs with their fields (10_state.md R37 to R43,
45_system.md R202). -/
def Obligations.RdcsrAppendsTheRegister : Prop :=
  (∀ (w : Word) (k : Byte), decode w = .ok (.rdcsr k) ↔ k ≤ 5 ∧ w = mkWord 0x08 k 0) ∧
  (∀ k : Byte, 5 < k → ∃ e, decode (mkWord 0x08 k 0) = .error e) ∧
  ∀ (k : Byte) (s : State), k ≤ 5 → ∃ w : Word, exec (.rdcsr k) s = .next { s with rsp := s.rsp ++ [w] } ∧
    (k = 0 → w.extractLsb' 0 4 = s.err ∧ w.extractLsb' 4 2 = s.phase ∧ w.extractLsb' 6 2 = s.uphase ∧
      w.extractLsb' 8 8 = s.nleaf ∧ w.extractLsb' 16 8 = s.root ∧ w.extractLsb' 24 8 = s.cursor) ∧
    (k = 1 → w = s.errcmd) ∧ (k = 2 → w = s.total) ∧ (k = 3 → w = BitVec.ofNat 32 s.bitbuf.length) ∧
    (k = 4 → w.extractLsb' 0 8 = s.srcHead ∧ w.extractLsb' 8 8 = s.tgtHead ∧ w.extractLsb' 16 8 = s.tgtTail ∧
      w.extractLsb' 24 3 = s.tbState ∧ w.extractLsb' 27 5 = 0) ∧
    (k = 5 → w = 0x48550180)

/-- RDNODE appends one word, and changes nothing else, in every state: the structure fields of the entry (45_system.md R203). -/
def Obligations.RdnodeAppendsTheFields : Prop :=
  (∀ (w : Word) (i : NodeIdx), decode w = .ok (.rdnode i) ↔ i ≤ 254 ∧ w = mkWord 0x09 i 0) ∧
  (∃ e, decode 0x09FF0000 = .error e) ∧
  ∀ (i : NodeIdx) (s : State), i ≤ 254 → ∃ w : Word, exec (.rdnode i) s = .next { s with rsp := s.rsp ++ [w] } ∧
    w.extractLsb' 25 7 = 0 ∧ w.getLsbD 24 = (nodeAt s i).leaf ∧ w.getLsbD 23 = false ∧ w.extractLsb' 16 7 = (nodeAt s i).sym ∧
    w.extractLsb' 8 8 = (nodeAt s i).left ∧ w.extractLsb' 0 8 = (nodeAt s i).right

/-- RDWT appends the entry's weight, and changes nothing else, in every state (45_system.md R204). -/
def Obligations.RdwtAppendsTheWeight : Prop :=
  (∀ (w : Word) (i : NodeIdx), decode w = .ok (.rdwt i) ↔ i ≤ 254 ∧ w = mkWord 0x0A i 0) ∧
  (∃ e, decode 0x0AFF0000 = .error e) ∧
  ∀ (i : NodeIdx) (s : State), i ≤ 254 → exec (.rdwt i) s = .next { s with rsp := s.rsp ++ [(nodeAt s i).weight] }

/-- RDLEN appends valid x 256 + len, and changes nothing else, in every state (45_system.md R205). -/
def Obligations.RdlenAppendsTheLength : Prop :=
  (∀ (w : Word) (x : Symbol), decode w = .ok (.rdlen x) ↔ w = mkWord 0x0B (x.setWidth 8) 0) ∧
  ∀ (x : Symbol) (s : State), ∃ w : Word, exec (.rdlen x) s = .next { s with rsp := s.rsp ++ [w] } ∧
    w.toNat = (if (codeAt s x).valid then 256 else 0) + (codeAt s x).len.toNat

/-- RDCODE appends 32 bits of the left-aligned code, chunk 3 padded with one 0, and changes nothing else, in every state
(45_system.md R206). -/
def Obligations.RdcodeAppendsTheChunk : Prop :=
  (∀ (w : Word) (x : Symbol) (k : BitVec 2), decode w = .ok (.rdcode x k) ↔ w = mkWord 0x0C (x.setWidth 8) (k.setWidth 16)) ∧
  ∀ (x : Symbol) (k : BitVec 2) (s : State), ∃ w : Word, exec (.rdcode x k) s = .next { s with rsp := s.rsp ++ [w] } ∧
    ∀ j, j < 32 → w.getMsbD j = if 32 * k.toNat + j < 127 then (codeAt s x).bits.getMsbD (32 * k.toNat + j) else false

/-! ## The frequency analyser (40_frequency.md) -/

/-- SYM adds 1 to the symbol's count and to TOTAL (40_frequency.md R100). -/
def Obligations.SymCountsOneSymbol : Prop :=
  ∀ (x : Symbol) (s : State), s.err = 0 → s.phase = 0 → s.total.toNat + 1 ≤ 2 ^ 32 - 1 →
    ∃ t, exec (.sym x) s = .next t ∧ freqAt t x = freqAt s x + 1 ∧ (∀ y, y ≠ x → freqAt t y = freqAt s y) ∧
      t.total = s.total + 1 ∧ t = { s with freq := t.freq, total := t.total }

/-- ADDF adds n to the symbol's count and to TOTAL (40_frequency.md R101). -/
def Obligations.AddfAddsTheCount : Prop :=
  ∀ (x : Symbol) (n : BitVec 16) (s : State), s.err = 0 → s.phase = 0 → s.total.toNat + n.toNat ≤ 2 ^ 32 - 1 →
    ∃ t, exec (.addf x n) s = .next t ∧ freqAt t x = freqAt s x + n.setWidth 32 ∧ (∀ y, y ≠ x → freqAt t y = freqAt s y) ∧
      t.total.toNat = s.total.toNat + n.toNat ∧ t = { s with freq := t.freq, total := t.total }

/-- SYM at TOTAL = 2^32 - 1, and ADDF past it, raise CountOverflow: counters never wrap (60_exceptions.md R230). -/
def Obligations.CountOverflowRaised : Prop :=
  ∀ (x : Symbol) (s : State), s.err = 0 → s.phase = 0 →
    (s.total.toNat = 2 ^ 32 - 1 → exec (.sym x) s = .next { s with err := 9, errcmd := encode (.sym x) }) ∧
    ∀ n : BitVec 16, s.total.toNat + n.toNat > 2 ^ 32 - 1 →
      exec (.addf x n) s = .next { s with err := 9, errcmd := encode (.addf x n) }

/-- "The effect of any sequence of SYM and ADDF commands depends only on the final FREQ values, not on their order": two ADDF in either
order, each accepted, give equal states (40_frequency.md R101). -/
def Obligations.AddfOrderDoesNotMatter : Prop :=
  ∀ (x y : Symbol) (n m : BitVec 16) (s : State), MemoryForm s → s.err = 0 → s.phase = 0 →
    s.total.toNat + n.toNat + m.toNat ≤ 2 ^ 32 - 1 →
    ∃ t u v, exec (.addf x n) s = .next t ∧ exec (.addf y m) t = .next v ∧
      exec (.addf y m) s = .next u ∧ exec (.addf x n) u = .next v

/-- FIN with no record raises EmptyInputError, and there is no record exactly when TOTAL = 0 (40_frequency.md R102,
60_exceptions.md R222). -/
def Obligations.FinOfNothingIsEmptyInput : Prop :=
  ∀ s : State, s.err = 0 → s.phase = 0 →
    ((∀ x, freqAt s x = 0) → exec .fin s = .next { s with err := 1, errcmd := 0x12000000 }) ∧
    (s.total.toNat = countSum s → (s.total = 0 ↔ ∀ x, freqAt s x = 0))

/-- FIN stores the sorted leaves: 2 to 128 of them, in strictly rising order of (weight, symbol), one for every symbol counted with its
count, every leaf's weight being its symbol's count; no weight is 0 when two symbols were counted (40_frequency.md R102 to R106). -/
def Obligations.FinStoresTheSortedLeaves : Prop :=
  ∀ s : State, s.err = 0 → s.phase = 0 → (∃ x, freqAt s x ≠ 0) →
    ∃ t, exec .fin s = .next t ∧ t.phase = 1 ∧ 2 ≤ t.nleaf.toNat ∧ t.nleaf.toNat ≤ 128 ∧
      (∀ i, i < t.nleaf.toNat → (nodeEntry t i).leaf = true ∧ (nodeEntry t i).left = 0 ∧ (nodeEntry t i).right = 0 ∧
        (nodeEntry t i).weight = freqAt s (nodeEntry t i).sym) ∧
      LeavesSorted t ∧
      (∀ x, freqAt s x ≠ 0 → ∃ i, i < t.nleaf.toNat ∧ (nodeEntry t i).sym = x) ∧
      ((∃ x y, x ≠ y ∧ freqAt s x ≠ 0 ∧ freqAt s y ≠ 0) → ∀ i, i < t.nleaf.toNat → (nodeEntry t i).weight ≠ 0) ∧
      (∀ i, t.nleaf.toNat ≤ i → nodeEntry t i = nodeEntry s i) ∧
      t = { s with node := t.node, nleaf := t.nleaf, phase := t.phase }

/-- The only record (x, w): the sorted list is ((x + 1) mod 128, 0), (x, w) (40_frequency.md R104, R107). -/
def Obligations.FinInjectsTheSyntheticRecord : Prop :=
  ∀ (x : Symbol) (s : State), s.err = 0 → s.phase = 0 → freqAt s x ≠ 0 → (∀ y, y ≠ x → freqAt s y = 0) →
    ∃ t, exec .fin s = .next t ∧ t.nleaf = 2 ∧ t.phase = 1 ∧
      nodeAt t 0 = ⟨true, BitVec.ofNat 7 ((x.toNat + 1) % 128), 0, 0, 0⟩ ∧ nodeAt t 1 = ⟨true, x, freqAt s x, 0, 0⟩ ∧
      t.freq = s.freq ∧ t.total = s.total

/-! ## The tree builder (41_treebuilder.md) -/

/-- Take: from the other queue when one is empty; from source when its front's weight is at most target's front's; else from target
(41_treebuilder.md R122). -/
def Obligations.TakeFollowsTheTieBreak : Prop :=
  ∀ s : State,
    (s.srcHead ≠ s.nleaf → s.tgtHead = s.tgtTail → take s = .ok (s.srcHead, { s with srcHead := s.srcHead + 1 })) ∧
    (s.srcHead = s.nleaf → s.tgtHead ≠ s.tgtTail → take s = .ok (s.tgtHead, { s with tgtHead := s.tgtHead + 1 })) ∧
    (s.srcHead ≠ s.nleaf → s.tgtHead ≠ s.tgtTail → s.srcHead ≠ 255 → s.tgtHead ≠ 255 →
      take s =
        if (nodeAt s s.srcHead).weight.toNat ≤ (nodeAt s s.tgtHead).weight.toNat then
          .ok (s.srcHead, { s with srcHead := s.srcHead + 1 })
        else .ok (s.tgtHead, { s with tgtHead := s.tgtHead + 1 }))

/-- The merged node is written at TGT_TAIL with the sum of the weights, the node taken first as left child and the one taken second as
right child (41_treebuilder.md R124). -/
def Obligations.MergedNodeIsWrittenAtTheTail : Prop :=
  ∀ s : State, s.tbA ≠ 255 → s.tbB ≠ 255 → s.tgtTail ≠ 255 →
    ∃ t, writeMerged s = .ok t ∧
      nodeAt t s.tgtTail = ⟨false, 0, (nodeAt s s.tbA).weight + (nodeAt s s.tbB).weight, s.tbA, s.tbB⟩ ∧
      (∀ i, i ≠ s.tgtTail → nodeAt t i = nodeAt s i) ∧ t = { s with node := t.node, tgtTail := s.tgtTail + 1 }

/-- BUILD completes on any 2 to 128 leaves: ROOT, the queue pointers, TBSTATE and PHASE as 41_treebuilder.md R120 and R125 give them, no
entry outside NLEAF..ROOT touched, and nothing else but the builder's own registers. -/
def Obligations.BuildCompletes : Prop :=
  ∀ s : State, s.err = 0 → s.phase = 1 → 2 ≤ s.nleaf.toNat → s.nleaf.toNat ≤ 128 →
    ∃ t, exec .build s = .next t ∧ t.phase = 2 ∧ t.tbState = 4 ∧ t.root.toNat = 2 * s.nleaf.toNat - 2 ∧ t.srcHead = s.nleaf ∧
      t.tgtHead = t.root ∧ t.tgtTail.toNat = 2 * s.nleaf.toNat - 1 ∧
      (∀ i, i < s.nleaf.toNat ∨ 2 * s.nleaf.toNat - 2 < i → nodeEntry t i = nodeEntry s i) ∧
      t = { s with node := t.node, srcHead := t.srcHead, tgtHead := t.tgtHead, tgtTail := t.tgtTail, tbA := t.tbA, tbB := t.tbB,
                   tbState := t.tbState, root := t.root, phase := t.phase }

/-- The tree BUILD leaves: from any 2 to 128 leaves, a strict tree over them in which every entry below the root has one parent, every
internal entry's weight is the 32-bit sum of its children's, and internal entries have symbol 0 (41_treebuilder.md R124, R125;
10_state.md R46 item 4). -/
def Obligations.BuildMakesAStrictTree : Prop :=
  ∀ s t : State, s.err = 0 → s.phase = 1 → 2 ≤ s.nleaf.toNat → s.nleaf.toNat ≤ 128 →
    (∀ i, i < s.nleaf.toNat → (nodeEntry s i).leaf = true) → exec .build s = .next t →
    TreeShape t ∧
      ∀ i, s.nleaf.toNat ≤ i → i ≤ 2 * s.nleaf.toNat - 2 →
        (nodeEntry t i).sym = 0 ∧
          (nodeEntry t i).weight =
            (nodeEntry t (nodeEntry t i).left.toNat).weight + (nodeEntry t (nodeEntry t i).right.toNat).weight

/-- Weights do not overflow: when the leaf weights sum to at most 2^32 - 1, every internal entry's weight is the exact sum of its
children's, and the root's weight is the sum of all leaf weights (41_treebuilder.md R126). -/
def Obligations.RootWeightIsTheSumOfTheLeaves : Prop :=
  ∀ s t : State, s.err = 0 → s.phase = 1 → 2 ≤ s.nleaf.toNat → s.nleaf.toNat ≤ 128 →
    weightSum s s.nleaf.toNat ≤ 2 ^ 32 - 1 → exec .build s = .next t →
    WeightsAdd t ∧ (nodeEntry t t.root.toNat).weight.toNat = weightSum s s.nleaf.toNat

/-- BUILD is a function of NLEAF and the leaves alone: two states that agree on them get the same tree, whatever else they hold
(41_treebuilder.md R128). -/
def Obligations.BuildDependsOnTheLeavesAlone : Prop :=
  ∀ s s' t t' : State, s.err = 0 → s'.err = 0 → s.phase = 1 → s'.phase = 1 → 2 ≤ s.nleaf.toNat → s.nleaf.toNat ≤ 128 →
    s'.nleaf = s.nleaf → (∀ i, i < s.nleaf.toNat → nodeEntry s' i = nodeEntry s i) →
    exec .build s = .next t → exec .build s' = .next t' →
    t'.root = t.root ∧ ∀ i, i ≤ t.root.toNat → nodeEntry t' i = nodeEntry t i

/-- The FSM of 41_treebuilder.md R123 and the loop of R120 "give the same final state": run from TB_IDLE it reaches the state the loop
leaves, and stays there. -/
def Obligations.FsmReachesTheStateOfTheLoop : Prop :=
  ∀ s t : State, s.tbState = tbIdle → buildTree s = .ok t → ∃ n, fsmRun n s = .ok t ∧ fsmStep t = .ok t

/-! ## The code table (42_codetable.md) -/

/-- TABLE completes on any strict tree whose leaves have different symbols: the entry of every leaf's symbol is Entry(p) of the path p from
the root to that leaf, of 1 to NLEAF - 1 bits, so its positions below the code are 0; the entries of other symbols stay; nothing else
changes but PHASE (42_codetable.md R140 to R146; 10_state.md R28). -/
def Obligations.TableWritesThePathOfEveryLeaf : Prop :=
  ∀ s : State, s.err = 0 → s.phase = 2 → TreeShape s → LeavesSorted s →
    ∃ t, exec .table s = .next t ∧ t.phase = 3 ∧
      (∀ i, i < s.nleaf.toNat →
        ∃ p : List Bool, followPath s s.root p = some (BitVec.ofNat 8 i) ∧ 1 ≤ p.length ∧ p.length ≤ s.nleaf.toNat - 1 ∧
          codeAt t (nodeEntry s i).sym = entryOf p ∧ (codeAt t (nodeEntry s i).sym).valid = true ∧
          (codeAt t (nodeEntry s i).sym).len.toNat = p.length ∧ (codeAt t (nodeEntry s i).sym).sequence = p ∧
          ∀ j, p.length ≤ j → (codeAt t (nodeEntry s i).sym).bits.getMsbD j = false) ∧
      (∀ x, (∀ i, i < s.nleaf.toNat → (nodeEntry s i).sym ≠ x) → codeAt t x = codeAt s x) ∧
      t = { s with code := t.code, phase := t.phase }

/-- Entry(p) holds p: a lookup of it gives p back, for every p of 1 to 127 bits, and the positions below the code are 0
(42_codetable.md R143, R144; 10_state.md R28). -/
def Obligations.EntryHoldsTheCode : Prop :=
  ∀ p : List Bool, 1 ≤ p.length → p.length ≤ 127 →
    (entryOf p).valid = true ∧ (entryOf p).len.toNat = p.length ∧ (entryOf p).sequence = p ∧
      (∀ j, j < p.length → p[j]? = some ((entryOf p).bits.getMsbD j)) ∧ ∀ j, p.length ≤ j → (entryOf p).bits.getMsbD j = false

/-- "A code assigned to a symbol is never a prefix of another assigned code": it follows from the codes being paths of one tree
(42_codetable.md R145 c). -/
def Obligations.NoCodeIsAPrefixOfAnother : Prop :=
  ∀ (s : State) (x y : Symbol), CodesArePaths s → x ≠ y → (codeAt s x).valid = true → (codeAt s y).valid = true →
    ¬ (codeAt s x).sequence <+: (codeAt s y).sequence

/-! ## The encode path and bit packer (43_bitpacker.md) -/

/-- ENC appends the symbol's code to the bit buffer and changes nothing else (43_bitpacker.md R160). -/
def Obligations.EncAppendsTheCode : Prop :=
  ∀ (x : Symbol) (s : State), s.err = 0 → s.phase = 3 → (codeAt s x).valid = true →
    s.bitbuf.length + (codeAt s x).len.toNat ≤ Config.bitbufCap →
    ∃ bs : List Bool, exec (.enc x) s = .next { s with bitbuf := s.bitbuf ++ bs } ∧ bs.length = (codeAt s x).len.toNat ∧
      ∀ j, j < bs.length → bs[j]? = some ((codeAt s x).bits.getMsbD j)

/-- ENC of an unset entry raises UnsetCodeError, and a code that does not fit raises BufferOverflow; in that order, and the buffer is
unchanged (43_bitpacker.md R160; 60_exceptions.md R225, R229, R233). -/
def Obligations.EncErrors : Prop :=
  ∀ (x : Symbol) (s : State), s.err = 0 → s.phase = 3 →
    ((codeAt s x).valid = false → exec (.enc x) s = .next { s with err := 7, errcmd := encode (.enc x) }) ∧
    ((codeAt s x).valid = true → s.bitbuf.length + (codeAt s x).len.toNat > Config.bitbufCap →
      exec (.enc x) s = .next { s with err := 8, errcmd := encode (.enc x) })

/-- PBIT, in any phase: a value 0 or 1 is appended if the buffer has room and raises BufferOverflow if not; a value above 1 raises
InvalidBitError, full buffer or not (43_bitpacker.md R161; 60_exceptions.md R223, R225). -/
def Obligations.PbitAppendsOrRaises : Prop :=
  (∀ (w : Word) (v : Byte), decode w = .ok (.pbit v) ↔ w = mkWord 0x41 v 0) ∧
  ∀ (v : Byte) (s : State), s.err = 0 →
    (v.toNat ≤ 1 → s.bitbuf.length + 1 ≤ Config.bitbufCap →
      exec (.pbit v) s = .next { s with bitbuf := s.bitbuf ++ [decide (v.toNat = 1)] }) ∧
    (v.toNat ≤ 1 → s.bitbuf.length + 1 > Config.bitbufCap →
      exec (.pbit v) s = .next { s with err := 8, errcmd := encode (.pbit v) }) ∧
    (1 < v.toNat → exec (.pbit v) s = .next { s with err := 2, errcmd := encode (.pbit v) })

/-- PACK, in any phase: the stream is the padding, that is 7 - (L mod 8) zeros and the sentinel, and then the buffer; OUTB gains
L / 8 + 1 bytes, byte j having stream bit 8j + k in its bit 7 - k; the buffer is emptied and nothing else changes (43_bitpacker.md R162 to
R165; 20_memory.md R62, R64, R65). -/
def Obligations.PackEmitsTheWireFormat : Prop :=
  ∀ s : State, s.err = 0 → s.acc = 0 → s.nbits = 0 →
    ∃ new : List Byte, exec .pack s = .next { s with outb := s.outb ++ new, bitbuf := [] } ∧
      new.length = s.bitbuf.length / 8 + 1 ∧
      ∀ j k, j < new.length → k < 8 →
        (new[j]?.map fun b => b.getLsbD (7 - k)) =
          (List.replicate (7 - s.bitbuf.length % 8) false ++ [true] ++ s.bitbuf)[8 * j + k]?

/-- PACK of the empty buffer emits the one byte 01 (43_bitpacker.md R166). -/
def Obligations.PackOfNothingEmitsOneByte : Prop :=
  ∀ s : State, s.err = 0 → s.acc = 0 → s.nbits = 0 → s.bitbuf = [] →
    exec .pack s = .next { s with outb := s.outb ++ [0x01] }

/-- The unpacker strips exactly the padding PACK added: in the bytes PACK emits, the first byte has a sentinel at some index j, and its
bits below j followed by the bits of the later bytes are the buffer that was packed (44_unpacker_decoder.md R183, R187). -/
def Obligations.UnpackingUndoesPacking : Prop :=
  ∀ (s : State) (first : Byte) (rest : List Byte), s.err = 0 → s.acc = 0 → s.nbits = 0 →
    exec .pack s = .next { s with outb := s.outb ++ first :: rest, bitbuf := [] } →
    ∃ j, sentinelIndex first = some j ∧ bitsBelow first j ++ rest.flatMap byteBits = s.bitbuf

/-! ## The unpacker and decoder (44_unpacker_decoder.md) -/

/-- DBEG opens a session with the cursor at the root, from PHASE 2 on and with no session open; otherwise it raises SequenceError
(44_unpacker_decoder.md R180). -/
def Obligations.DbegOpensASession : Prop :=
  (∀ w : Word, decode w = .ok .dbeg ↔ w = 0x50000000) ∧
  ∀ s : State, s.err = 0 →
    (2 ≤ s.phase.toNat → s.uphase = 0 → exec .dbeg s = .next { s with uphase := 1, cursor := s.root }) ∧
    (¬ (2 ≤ s.phase.toNat ∧ s.uphase = 0) → exec .dbeg s = .next { s with err := 6, errcmd := 0x50000000 })

/-- DecodeBit: the cursor moves to the left child on 0 and the right child on 1; on a leaf its symbol is emitted and the cursor goes back
to the root (44_unpacker_decoder.md R184). -/
def Obligations.DecodeBitWalksOneEdge : Prop :=
  ∀ (x : Bool) (c : NodeIdx) (s : State), s.cursor ≠ 255 →
    c = (if x then (nodeAt s s.cursor).right else (nodeAt s s.cursor).left) → c ≠ 255 →
    ((nodeAt s c).leaf = true → decodeBit x s = .ok { s with outs := s.outs ++ [(nodeAt s c).sym], cursor := s.root }) ∧
    ((nodeAt s c).leaf = false → decodeBit x s = .ok { s with cursor := c })

/-- UBYTE completes whenever a tree is there and the cursor stands on an internal node. As first byte b, with highest set bit j, the
decoder takes b[j-1] to b[0]; as a later byte, b[7] to b[0]. At most 8 symbols are emitted and the cursor is internal again
(44_unpacker_decoder.md R181, R183, R184). -/
def Obligations.UbyteDecodesItsPayload : Prop :=
  ∀ (b : Byte) (s : State), s.err = 0 → TreeShape s → s.nleaf.toNat ≤ s.cursor.toNat → s.cursor.toNat ≤ s.root.toNat →
    (∀ j, s.uphase = 1 → j < 8 → b.getLsbD j = true → (∀ k, j < k → b.getLsbD k = false) →
      ∃ t, exec (.ubyte b) s = .next t ∧
        decodeBits ((List.range j).map fun k => b.getLsbD (j - 1 - k)) { s with uphase := 2 } = .ok t ∧
        t = { s with uphase := 2, cursor := t.cursor, outs := t.outs } ∧ s.nleaf.toNat ≤ t.cursor.toNat ∧
        t.cursor.toNat ≤ s.root.toNat ∧ ∃ xs, t.outs = s.outs ++ xs ∧ xs.length ≤ j) ∧
    (s.uphase = 2 →
      ∃ t, exec (.ubyte b) s = .next t ∧
        decodeBits ((List.range 8).map fun k => b.getLsbD (7 - k)) s = .ok t ∧
        t = { s with cursor := t.cursor, outs := t.outs } ∧ s.nleaf.toNat ≤ t.cursor.toNat ∧
        t.cursor.toNat ≤ s.root.toNat ∧ ∃ xs, t.outs = s.outs ++ xs ∧ xs.length ≤ 8)

/-- A first byte 00 raises MalformedStreamError: the byte is not consumed, UPHASE stays 1, nothing is emitted
(44_unpacker_decoder.md R186). -/
def Obligations.FirstByteWithoutSentinelIsMalformed : Prop :=
  ∀ s : State, s.err = 0 → s.uphase = 1 → exec (.ubyte 0) s = .next { s with err := 3, errcmd := 0x51000000 }

/-- DEND closes a session whose cursor is back at the root; with no byte given, or with the cursor elsewhere, it raises
MalformedStreamError; with no session open, SequenceError (44_unpacker_decoder.md R182, R185, R188). -/
def Obligations.DendGivesTheVerdict : Prop :=
  (∀ w : Word, decode w = .ok .dend ↔ w = 0x52000000) ∧
  ∀ s : State, s.err = 0 →
    (s.uphase = 0 → exec .dend s = .next { s with err := 6, errcmd := 0x52000000 }) ∧
    (s.uphase = 2 → s.cursor = s.root → exec .dend s = .next { s with uphase := 0 }) ∧
    (s.uphase = 1 → exec .dend s = .next { s with err := 3, errcmd := 0x52000000 }) ∧
    (s.uphase = 2 → s.cursor ≠ s.root → exec .dend s = .next { s with err := 3, errcmd := 0x52000000 })

/-- The decoder follows a code to its leaf and to no leaf before: from the root, the bits of a path to a leaf emit that leaf's symbol and
leave the cursor at the root (44_unpacker_decoder.md R184, R187). -/
def Obligations.DecoderFollowsAPathToItsLeaf : Prop :=
  ∀ (s : State) (p : List Bool) (x : Symbol), s.cursor = s.root → isPathTo s p x →
    decodeBits p s = .ok { s with outs := s.outs ++ [x], cursor := s.root }

/-- Decoding inverts encoding: when the codes are paths of the tree, the decoder turns the concatenated codes of any text back into the
text, and ends at the root (44_unpacker_decoder.md R187). -/
def Obligations.DecodingInvertsEncoding : Prop :=
  ∀ (s : State) (text : List Symbol), CodesArePaths s → (∀ x ∈ text, (codeAt s x).valid = true) → s.cursor = s.root →
    decodeBits (text.flatMap fun x => (codeAt s x).sequence) s = .ok { s with outs := s.outs ++ text }

/-! ## Invariants and rules of the whole machine -/

/-- The reset state meets all of 10_state.md R46, and its memories have the canonical form, which is the model's own
(notes/assumptions/5.md). -/
def Obligations.ResetMeetsTheInvariant : Prop :=
  Inv State.reset

/-- Every step keeps the memories in canonical form: this form is the model's own (notes/assumptions/5.md). -/
def Obligations.StepKeepsMemoryForm : Prop :=
  ∀ s t : State, MemoryForm s → step s = .next t → MemoryForm t

/-- Every step keeps 10_state.md R46 items 1, 7, 8 and 9, and the values of TBSTATE and UPHASE between commands. -/
def Obligations.StepKeepsRegisterRules : Prop :=
  ∀ s t : State, RegisterRules s → step s = .next t → RegisterRules t

/-- Every step keeps 10_state.md R46 items 2 to 6: the leaves sorted, the tree strict and its weights exact, the codes the paths of the
leaves, the cursor of an open session internal. The premise is all of R46 and the model's own memory form (notes/assumptions/5.md). -/
def Obligations.StepKeepsPipelineRules : Prop :=
  ∀ s t : State, Inv s → step s = .next t → PipelineRules t

/-- No reachable state stops: from every state that meets R46 each step gives a next state, "every command word has a defined next state"
(93_implementation_defined.md U2; 20_memory.md R61; 70_reset_and_hazards.md R271). The premise holds the model's own memory form too
(notes/assumptions/5.md). -/
def Obligations.NoStepStops : Prop :=
  ∀ s : State, Inv s → ∃ t, step s = .next t

/-- The traces only grow: a step that is no hardware reset appends to OUTB, OUTS and RSP and withdraws nothing (10_state.md R36). That it
takes one event of `port` at most is said of the model's own field (notes/assumptions/1.md). -/
def Obligations.TracesOnlyGrow : Prop :=
  ∀ s t : State, step s = .next t → (¬ ∃ q, s.port = .rst :: q) →
    s.outb <+: t.outb ∧ s.outs <+: t.outs ∧ s.rsp <+: t.rsp ∧ t.port = s.port.tail

/-- "PHASE only ever increases by one, or returns to 0 on CLR" (10_state.md R33). -/
def Obligations.PhaseAdvancesByOneOrClears : Prop :=
  ∀ (i : Instr) (s t : State), exec i s = .next t →
    t.phase = s.phase ∨ (t.phase = 0 ∧ i = .clr) ∨
      (t.phase.toNat = s.phase.toNat + 1 ∧ (i = .fin ∨ i = .build ∨ i = .table))

/-- Each piece of state is written only by the commands of the last column of 10_state.md R20: CLR writes every row but the traces, and ERR
and ERRCMD are written besides only by a command that raises an error. That no command writes `port` is said of the model's own field, no
row of R20 (notes/assumptions/1.md). -/
def Obligations.WrittenOnlyByTheListedCommands : Prop :=
  ∀ (i : Instr) (s t : State), exec i s = .next t →
    (t.outb ≠ s.outb → i = .pack) ∧ (t.outs ≠ s.outs → ∃ b, i = .ubyte b) ∧
    (t.rsp ≠ s.rsp → (∃ k, i = .rdcsr k) ∨ (∃ j, i = .rdnode j) ∨ (∃ j, i = .rdwt j) ∨ (∃ x, i = .rdlen x) ∨ ∃ x k, i = .rdcode x k) ∧
    t.port = s.port ∧
    (i ≠ .clr →
      (t.freq ≠ s.freq ∨ t.total ≠ s.total → (∃ x, i = .sym x) ∨ ∃ x n, i = .addf x n) ∧
      (t.node ≠ s.node → i = .fin ∨ i = .build) ∧ (t.nleaf ≠ s.nleaf → i = .fin) ∧
      (t.srcHead ≠ s.srcHead ∨ t.tgtHead ≠ s.tgtHead ∨ t.tgtTail ≠ s.tgtTail ∨ t.tbA ≠ s.tbA ∨ t.tbB ≠ s.tbB ∨
        t.tbState ≠ s.tbState ∨ t.root ≠ s.root → i = .build) ∧
      (t.code ≠ s.code → i = .table) ∧ (t.bitbuf ≠ s.bitbuf → (∃ x, i = .enc x) ∨ (∃ v, i = .pbit v) ∨ i = .pack) ∧
      (t.acc ≠ s.acc ∨ t.nbits ≠ s.nbits → i = .pack) ∧
      (t.uphase ≠ s.uphase → i = .dbeg ∨ (∃ b, i = .ubyte b) ∨ i = .dend) ∧
      (t.cursor ≠ s.cursor → i = .dbeg ∨ ∃ b, i = .ubyte b) ∧ (t.phase ≠ s.phase → i = .fin ∨ i = .build ∨ i = .table) ∧
      (t.err ≠ s.err ∨ t.errcmd ≠ s.errcmd → s.err = 0 ∧ t.err ≠ 0))
end

