-- ==== Sys2Proof/Laws/Memory.lean ====
section
/-!
SUPPORT. The laws of the sparse memories: a read after a write, and that every operation keeps the canonical form.
-/

namespace Sys2Proof.Machine

variable {α : Type}

theorem Memory.read_erase_same (d : α) (m : Memory α) (i : Nat) : Memory.read d (Memory.erase m i) i = d := by
  induction m with
  | nil => rfl
  | cons c m ih =>
    by_cases h : c.1 = i
    · simpa [Memory.erase, h] using ih
    · have : Memory.erase (c :: m) i = c :: Memory.erase m i := by simp [Memory.erase, h]
      rw [this]; simpa [Memory.read, h] using ih

theorem Memory.read_erase_other (d : α) (m : Memory α) {i j : Nat} (hij : j ≠ i) :
    Memory.read d (Memory.erase m i) j = Memory.read d m j := by
  induction m with
  | nil => rfl
  | cons c m ih =>
    by_cases h : c.1 = i
    · have hj : ¬ c.1 = j := by omega
      have : Memory.erase (c :: m) i = Memory.erase m i := by simp [Memory.erase, h]
      rw [this, ih]; simp [Memory.read, hj]
    · have : Memory.erase (c :: m) i = c :: Memory.erase m i := by simp [Memory.erase, h]
      rw [this]; simp only [Memory.read, ih]

theorem Memory.read_insert_same (d : α) (m : Memory α) (i : Nat) (v : α) (h : ∀ c ∈ m, c.1 ≠ i) :
    Memory.read d (Memory.insert i v m) i = v := by
  induction m with
  | nil => simp [Memory.insert, Memory.read]
  | cons c m ih =>
    have hc : ¬ c.1 = i := h c (by simp)
    have ih' := ih fun c hc => h c (by simp [hc])
    by_cases hlt : i < c.1
    · simp [Memory.insert, hlt, Memory.read]
    · simpa [Memory.insert, hlt, Memory.read, hc] using ih'

theorem Memory.read_insert_other (d : α) (m : Memory α) {i j : Nat} (v : α) (hij : j ≠ i) :
    Memory.read d (Memory.insert i v m) j = Memory.read d m j := by
  have hij' : ¬ i = j := fun h => hij h.symm
  induction m with
  | nil => simp [Memory.insert, Memory.read, hij']
  | cons c m ih =>
    by_cases hlt : i < c.1
    · simp [Memory.insert, hlt, Memory.read, hij']
    · simp only [Memory.insert, hlt, if_false, Memory.read, ih]

variable [DecidableEq α]

/-- A read of the index just written gives the entry written. -/
@[simp] theorem Memory.read_write_same (d : α) (m : Memory α) (i : Nat) (v : α) :
    Memory.read d (Memory.write d m i v) i = v := by
  unfold Memory.write
  split
  · next h => rw [h]; exact Memory.read_erase_same d m i
  · exact Memory.read_insert_same d _ i v (by simp [Memory.erase])

/-- A write leaves every other index alone. -/
theorem Memory.read_write_other (d : α) (m : Memory α) {i j : Nat} (v : α) (hij : j ≠ i) :
    Memory.read d (Memory.write d m i v) j = Memory.read d m j := by
  unfold Memory.write
  split
  · exact Memory.read_erase_other d m hij
  · rw [Memory.read_insert_other d _ v hij, Memory.read_erase_other d m hij]

/-- What a read gives after a write, in one equation. -/
theorem Memory.read_write (d : α) (m : Memory α) (i j : Nat) (v : α) :
    Memory.read d (Memory.write d m i v) j = if j = i then v else Memory.read d m j := by
  split
  · next h => rw [h]; exact Memory.read_write_same d m i v
  · next h => exact Memory.read_write_other d m v h

theorem Memory.wfFrom_mono (d : α) (size : Nat) {lo lo' : Nat} (h : lo' ≤ lo) (m : Memory α)
    (hm : Memory.wfFrom d size lo m = true) : Memory.wfFrom d size lo' m = true := by
  cases m with
  | nil => rfl
  | cons c m =>
    simp only [Memory.wfFrom, Bool.and_eq_true, decide_eq_true_eq] at hm ⊢
    exact ⟨⟨⟨by omega, hm.1.1.2⟩, hm.1.2⟩, hm.2⟩

theorem Memory.wfFrom_erase (d : α) (size : Nat) (i : Nat) (m : Memory α) :
    ∀ lo, Memory.wfFrom d size lo m = true → Memory.wfFrom d size lo (Memory.erase m i) = true := by
  induction m with
  | nil => intro lo _; rfl
  | cons c m ih =>
    intro lo hm
    simp only [Memory.wfFrom, Bool.and_eq_true, decide_eq_true_eq] at hm
    by_cases h : c.1 = i
    · have he : Memory.erase (c :: m) i = Memory.erase m i := by simp [Memory.erase, h]
      rw [he]
      exact Memory.wfFrom_mono d size (by omega) _ (ih _ hm.2)
    · have he : Memory.erase (c :: m) i = c :: Memory.erase m i := by simp [Memory.erase, h]
      rw [he]
      simp only [Memory.wfFrom, Bool.and_eq_true, decide_eq_true_eq]
      exact ⟨hm.1, ih _ hm.2⟩

theorem Memory.wfFrom_insert (d : α) (size : Nat) (i : Nat) (v : α) (hi : i < size) (hv : v ≠ d) (m : Memory α) :
    ∀ lo, lo ≤ i → (∀ c ∈ m, c.1 ≠ i) → Memory.wfFrom d size lo m = true →
      Memory.wfFrom d size lo (Memory.insert i v m) = true := by
  induction m with
  | nil => intro lo hlo _ _; simp [Memory.insert, Memory.wfFrom, hlo, hi, hv]
  | cons c m ih =>
    intro lo hlo hne hm
    have hc : c.1 ≠ i := hne c (by simp)
    simp only [Memory.wfFrom, Bool.and_eq_true, decide_eq_true_eq] at hm
    by_cases hlt : i < c.1
    · simp only [Memory.insert, hlt, if_true, Memory.wfFrom, Bool.and_eq_true, decide_eq_true_eq]
      exact ⟨⟨⟨hlo, hi⟩, hv⟩, ⟨⟨by omega, hm.1.1.2⟩, hm.1.2⟩, hm.2⟩
    · simp only [Memory.insert, hlt, if_false, Memory.wfFrom, Bool.and_eq_true, decide_eq_true_eq]
      exact ⟨hm.1, ih _ (by omega) (fun c hc => hne c (by simp [hc])) hm.2⟩

/-- Writing an index of the space keeps the canonical form. -/
theorem Memory.wf_write (d : α) (size : Nat) (m : Memory α) (i : Nat) (v : α) (hi : i < size)
    (hm : Memory.wf d size m = true) : Memory.wf d size (Memory.write d m i v) = true := by
  unfold Memory.write Memory.wf at *
  have he := Memory.wfFrom_erase d size i m 0 hm
  split
  · exact he
  · next h => exact Memory.wfFrom_insert d size i v hi h _ 0 (by omega) (by simp [Memory.erase]) he

/-- The empty memory is in canonical form. -/
theorem Memory.wf_nil (d : α) (size : Nat) : Memory.wf d size [] = true := rfl

/-- Below its lower bound, a memory in canonical form reads as the unlisted entry. -/
theorem Memory.read_below (d : α) (size : Nat) (m : Memory α) :
    ∀ lo i, i < lo → Memory.wfFrom d size lo m = true → Memory.read d m i = d := by
  induction m with
  | nil => intro lo i _ _; rfl
  | cons c m ih =>
    intro lo i hi hm
    simp only [Memory.wfFrom, Bool.and_eq_true, decide_eq_true_eq] at hm
    have : ¬ c.1 = i := by omega
    simp only [Memory.read, this, if_false]
    exact ih _ i (by omega) hm.2

/-- From its size on, a memory in canonical form reads as the unlisted entry. -/
theorem Memory.read_beyond (d : α) (size : Nat) (m : Memory α) (i : Nat) (hi : size ≤ i) :
    ∀ lo, Memory.wfFrom d size lo m = true → Memory.read d m i = d := by
  induction m with
  | nil => intro lo _; rfl
  | cons c m ih =>
    intro lo hm
    simp only [Memory.wfFrom, Bool.and_eq_true, decide_eq_true_eq] at hm
    have : ¬ c.1 = i := by omega
    simp only [Memory.read, this, if_false]
    exact ih _ hm.2

theorem Memory.ext_from (d : α) (size : Nat) (m : Memory α) :
    ∀ (m' : Memory α) (lo : Nat), Memory.wfFrom d size lo m = true → Memory.wfFrom d size lo m' = true →
      (∀ i, Memory.read d m i = Memory.read d m' i) → m = m' := by
  induction m with
  | nil =>
    intro m' lo _ hm' h
    cases m' with
    | nil => rfl
    | cons c m' =>
      simp only [Memory.wfFrom, Bool.and_eq_true, decide_eq_true_eq] at hm'
      have := h c.1
      simp only [Memory.read, if_true] at this
      exact absurd this.symm hm'.1.2
  | cons c m ih =>
    intro m' lo hm hm' h
    simp only [Memory.wfFrom, Bool.and_eq_true, decide_eq_true_eq] at hm
    cases m' with
    | nil =>
      have := h c.1
      simp only [Memory.read, if_true] at this
      exact absurd this hm.1.2
    | cons c' m' =>
      simp only [Memory.wfFrom, Bool.and_eq_true, decide_eq_true_eq] at hm'
      have hk : c.1 = c'.1 := by
        rcases Nat.lt_trichotomy c.1 c'.1 with hlt | heq | hgt
        · have h1 := h c.1
          have h2 : Memory.read d (c' :: m') c.1 = d :=
            Memory.read_below d size (c' :: m') c'.1 c.1 hlt (by simp [Memory.wfFrom, hm'])
          rw [h2] at h1
          simp only [Memory.read, if_true] at h1
          exact absurd h1 hm.1.2
        · exact heq
        · have h1 := h c'.1
          have h2 : Memory.read d (c :: m) c'.1 = d :=
            Memory.read_below d size (c :: m) c.1 c'.1 hgt (by simp [Memory.wfFrom, hm])
          rw [h2] at h1
          simp only [Memory.read, if_true] at h1
          exact absurd h1.symm hm'.1.2
      have hv : c.2 = c'.2 := by
        have := h c.1
        simpa [Memory.read, hk] using this
      have hrest : m = m' := by
        refine ih m' (c.1 + 1) hm.2 (hk ▸ hm'.2) fun i => ?_
        by_cases hi : i = c.1
        · subst hi
          rw [Memory.read_below d size m _ _ (Nat.lt_succ_self _) hm.2,
            Memory.read_below d size m' _ _ (Nat.lt_succ_self _) (hk ▸ hm'.2)]
        · have := h i
          have hi' : ¬ c.1 = i := fun e => hi e.symm
          simpa [Memory.read, hi', ← hk] using this
      rw [hrest, Prod.ext hk hv]

/-- Two memories in canonical form that read alike are equal. -/
theorem Memory.ext_of_read (d : α) (size : Nat) (m m' : Memory α) (hm : Memory.wf d size m = true)
    (hm' : Memory.wf d size m' = true) (h : ∀ i, Memory.read d m i = Memory.read d m' i) : m = m' :=
  Memory.ext_from d size m m' 0 hm hm' h

end Sys2Proof.Machine
end

