-- ==== Sys2Proof/Laws/State.lean ====
section
/-!
SUPPORT. One lemma per field and per shared update of State, each true by rfl, so that no later proof unfolds a record update.
-/

namespace Sys2Proof.Machine

/-! ## raise -/

@[simp] theorem raise_freq (e : ErrorCode) (c : Word) (s : State) : (raise e c s).freq = s.freq := rfl
@[simp] theorem raise_total (e : ErrorCode) (c : Word) (s : State) : (raise e c s).total = s.total := rfl
@[simp] theorem raise_node (e : ErrorCode) (c : Word) (s : State) : (raise e c s).node = s.node := rfl
@[simp] theorem raise_nleaf (e : ErrorCode) (c : Word) (s : State) : (raise e c s).nleaf = s.nleaf := rfl
@[simp] theorem raise_srcHead (e : ErrorCode) (c : Word) (s : State) : (raise e c s).srcHead = s.srcHead := rfl
@[simp] theorem raise_tgtHead (e : ErrorCode) (c : Word) (s : State) : (raise e c s).tgtHead = s.tgtHead := rfl
@[simp] theorem raise_tgtTail (e : ErrorCode) (c : Word) (s : State) : (raise e c s).tgtTail = s.tgtTail := rfl
@[simp] theorem raise_tbA (e : ErrorCode) (c : Word) (s : State) : (raise e c s).tbA = s.tbA := rfl
@[simp] theorem raise_tbB (e : ErrorCode) (c : Word) (s : State) : (raise e c s).tbB = s.tbB := rfl
@[simp] theorem raise_tbState (e : ErrorCode) (c : Word) (s : State) : (raise e c s).tbState = s.tbState := rfl
@[simp] theorem raise_root (e : ErrorCode) (c : Word) (s : State) : (raise e c s).root = s.root := rfl
@[simp] theorem raise_code (e : ErrorCode) (c : Word) (s : State) : (raise e c s).code = s.code := rfl
@[simp] theorem raise_bitbuf (e : ErrorCode) (c : Word) (s : State) : (raise e c s).bitbuf = s.bitbuf := rfl
@[simp] theorem raise_acc (e : ErrorCode) (c : Word) (s : State) : (raise e c s).acc = s.acc := rfl
@[simp] theorem raise_nbits (e : ErrorCode) (c : Word) (s : State) : (raise e c s).nbits = s.nbits := rfl
@[simp] theorem raise_uphase (e : ErrorCode) (c : Word) (s : State) : (raise e c s).uphase = s.uphase := rfl
@[simp] theorem raise_cursor (e : ErrorCode) (c : Word) (s : State) : (raise e c s).cursor = s.cursor := rfl
@[simp] theorem raise_phase (e : ErrorCode) (c : Word) (s : State) : (raise e c s).phase = s.phase := rfl
@[simp] theorem raise_err (e : ErrorCode) (c : Word) (s : State) : (raise e c s).err = e.code := rfl
@[simp] theorem raise_errcmd (e : ErrorCode) (c : Word) (s : State) : (raise e c s).errcmd = c := rfl
@[simp] theorem raise_outb (e : ErrorCode) (c : Word) (s : State) : (raise e c s).outb = s.outb := rfl
@[simp] theorem raise_outs (e : ErrorCode) (c : Word) (s : State) : (raise e c s).outs = s.outs := rfl
@[simp] theorem raise_rsp (e : ErrorCode) (c : Word) (s : State) : (raise e c s).rsp = s.rsp := rfl
@[simp] theorem raise_port (e : ErrorCode) (c : Word) (s : State) : (raise e c s).port = s.port := rfl

/-! ## emitB -/

@[simp] theorem emitB_freq (b : Byte) (s : State) : (emitB b s).freq = s.freq := rfl
@[simp] theorem emitB_total (b : Byte) (s : State) : (emitB b s).total = s.total := rfl
@[simp] theorem emitB_node (b : Byte) (s : State) : (emitB b s).node = s.node := rfl
@[simp] theorem emitB_nleaf (b : Byte) (s : State) : (emitB b s).nleaf = s.nleaf := rfl
@[simp] theorem emitB_srcHead (b : Byte) (s : State) : (emitB b s).srcHead = s.srcHead := rfl
@[simp] theorem emitB_tgtHead (b : Byte) (s : State) : (emitB b s).tgtHead = s.tgtHead := rfl
@[simp] theorem emitB_tgtTail (b : Byte) (s : State) : (emitB b s).tgtTail = s.tgtTail := rfl
@[simp] theorem emitB_tbA (b : Byte) (s : State) : (emitB b s).tbA = s.tbA := rfl
@[simp] theorem emitB_tbB (b : Byte) (s : State) : (emitB b s).tbB = s.tbB := rfl
@[simp] theorem emitB_tbState (b : Byte) (s : State) : (emitB b s).tbState = s.tbState := rfl
@[simp] theorem emitB_root (b : Byte) (s : State) : (emitB b s).root = s.root := rfl
@[simp] theorem emitB_code (b : Byte) (s : State) : (emitB b s).code = s.code := rfl
@[simp] theorem emitB_bitbuf (b : Byte) (s : State) : (emitB b s).bitbuf = s.bitbuf := rfl
@[simp] theorem emitB_acc (b : Byte) (s : State) : (emitB b s).acc = s.acc := rfl
@[simp] theorem emitB_nbits (b : Byte) (s : State) : (emitB b s).nbits = s.nbits := rfl
@[simp] theorem emitB_uphase (b : Byte) (s : State) : (emitB b s).uphase = s.uphase := rfl
@[simp] theorem emitB_cursor (b : Byte) (s : State) : (emitB b s).cursor = s.cursor := rfl
@[simp] theorem emitB_phase (b : Byte) (s : State) : (emitB b s).phase = s.phase := rfl
@[simp] theorem emitB_err (b : Byte) (s : State) : (emitB b s).err = s.err := rfl
@[simp] theorem emitB_errcmd (b : Byte) (s : State) : (emitB b s).errcmd = s.errcmd := rfl
@[simp] theorem emitB_outb (b : Byte) (s : State) : (emitB b s).outb = s.outb ++ [b] := rfl
@[simp] theorem emitB_outs (b : Byte) (s : State) : (emitB b s).outs = s.outs := rfl
@[simp] theorem emitB_rsp (b : Byte) (s : State) : (emitB b s).rsp = s.rsp := rfl
@[simp] theorem emitB_port (b : Byte) (s : State) : (emitB b s).port = s.port := rfl

/-! ## emitS -/

@[simp] theorem emitS_freq (x : Symbol) (s : State) : (emitS x s).freq = s.freq := rfl
@[simp] theorem emitS_total (x : Symbol) (s : State) : (emitS x s).total = s.total := rfl
@[simp] theorem emitS_node (x : Symbol) (s : State) : (emitS x s).node = s.node := rfl
@[simp] theorem emitS_nleaf (x : Symbol) (s : State) : (emitS x s).nleaf = s.nleaf := rfl
@[simp] theorem emitS_srcHead (x : Symbol) (s : State) : (emitS x s).srcHead = s.srcHead := rfl
@[simp] theorem emitS_tgtHead (x : Symbol) (s : State) : (emitS x s).tgtHead = s.tgtHead := rfl
@[simp] theorem emitS_tgtTail (x : Symbol) (s : State) : (emitS x s).tgtTail = s.tgtTail := rfl
@[simp] theorem emitS_tbA (x : Symbol) (s : State) : (emitS x s).tbA = s.tbA := rfl
@[simp] theorem emitS_tbB (x : Symbol) (s : State) : (emitS x s).tbB = s.tbB := rfl
@[simp] theorem emitS_tbState (x : Symbol) (s : State) : (emitS x s).tbState = s.tbState := rfl
@[simp] theorem emitS_root (x : Symbol) (s : State) : (emitS x s).root = s.root := rfl
@[simp] theorem emitS_code (x : Symbol) (s : State) : (emitS x s).code = s.code := rfl
@[simp] theorem emitS_bitbuf (x : Symbol) (s : State) : (emitS x s).bitbuf = s.bitbuf := rfl
@[simp] theorem emitS_acc (x : Symbol) (s : State) : (emitS x s).acc = s.acc := rfl
@[simp] theorem emitS_nbits (x : Symbol) (s : State) : (emitS x s).nbits = s.nbits := rfl
@[simp] theorem emitS_uphase (x : Symbol) (s : State) : (emitS x s).uphase = s.uphase := rfl
@[simp] theorem emitS_cursor (x : Symbol) (s : State) : (emitS x s).cursor = s.cursor := rfl
@[simp] theorem emitS_phase (x : Symbol) (s : State) : (emitS x s).phase = s.phase := rfl
@[simp] theorem emitS_err (x : Symbol) (s : State) : (emitS x s).err = s.err := rfl
@[simp] theorem emitS_errcmd (x : Symbol) (s : State) : (emitS x s).errcmd = s.errcmd := rfl
@[simp] theorem emitS_outb (x : Symbol) (s : State) : (emitS x s).outb = s.outb := rfl
@[simp] theorem emitS_outs (x : Symbol) (s : State) : (emitS x s).outs = s.outs ++ [x] := rfl
@[simp] theorem emitS_rsp (x : Symbol) (s : State) : (emitS x s).rsp = s.rsp := rfl
@[simp] theorem emitS_port (x : Symbol) (s : State) : (emitS x s).port = s.port := rfl

/-! ## emitR -/

@[simp] theorem emitR_freq (w : Word) (s : State) : (emitR w s).freq = s.freq := rfl
@[simp] theorem emitR_total (w : Word) (s : State) : (emitR w s).total = s.total := rfl
@[simp] theorem emitR_node (w : Word) (s : State) : (emitR w s).node = s.node := rfl
@[simp] theorem emitR_nleaf (w : Word) (s : State) : (emitR w s).nleaf = s.nleaf := rfl
@[simp] theorem emitR_srcHead (w : Word) (s : State) : (emitR w s).srcHead = s.srcHead := rfl
@[simp] theorem emitR_tgtHead (w : Word) (s : State) : (emitR w s).tgtHead = s.tgtHead := rfl
@[simp] theorem emitR_tgtTail (w : Word) (s : State) : (emitR w s).tgtTail = s.tgtTail := rfl
@[simp] theorem emitR_tbA (w : Word) (s : State) : (emitR w s).tbA = s.tbA := rfl
@[simp] theorem emitR_tbB (w : Word) (s : State) : (emitR w s).tbB = s.tbB := rfl
@[simp] theorem emitR_tbState (w : Word) (s : State) : (emitR w s).tbState = s.tbState := rfl
@[simp] theorem emitR_root (w : Word) (s : State) : (emitR w s).root = s.root := rfl
@[simp] theorem emitR_code (w : Word) (s : State) : (emitR w s).code = s.code := rfl
@[simp] theorem emitR_bitbuf (w : Word) (s : State) : (emitR w s).bitbuf = s.bitbuf := rfl
@[simp] theorem emitR_acc (w : Word) (s : State) : (emitR w s).acc = s.acc := rfl
@[simp] theorem emitR_nbits (w : Word) (s : State) : (emitR w s).nbits = s.nbits := rfl
@[simp] theorem emitR_uphase (w : Word) (s : State) : (emitR w s).uphase = s.uphase := rfl
@[simp] theorem emitR_cursor (w : Word) (s : State) : (emitR w s).cursor = s.cursor := rfl
@[simp] theorem emitR_phase (w : Word) (s : State) : (emitR w s).phase = s.phase := rfl
@[simp] theorem emitR_err (w : Word) (s : State) : (emitR w s).err = s.err := rfl
@[simp] theorem emitR_errcmd (w : Word) (s : State) : (emitR w s).errcmd = s.errcmd := rfl
@[simp] theorem emitR_outb (w : Word) (s : State) : (emitR w s).outb = s.outb := rfl
@[simp] theorem emitR_outs (w : Word) (s : State) : (emitR w s).outs = s.outs := rfl
@[simp] theorem emitR_rsp (w : Word) (s : State) : (emitR w s).rsp = s.rsp ++ [w] := rfl
@[simp] theorem emitR_port (w : Word) (s : State) : (emitR w s).port = s.port := rfl

/-! ## setFreq -/

@[simp] theorem setFreq_freq (x : Symbol) (v : Word) (s : State) : (setFreq x v s).freq = Memory.write 0 s.freq x.toNat v := rfl
@[simp] theorem setFreq_total (x : Symbol) (v : Word) (s : State) : (setFreq x v s).total = s.total := rfl
@[simp] theorem setFreq_node (x : Symbol) (v : Word) (s : State) : (setFreq x v s).node = s.node := rfl
@[simp] theorem setFreq_nleaf (x : Symbol) (v : Word) (s : State) : (setFreq x v s).nleaf = s.nleaf := rfl
@[simp] theorem setFreq_srcHead (x : Symbol) (v : Word) (s : State) : (setFreq x v s).srcHead = s.srcHead := rfl
@[simp] theorem setFreq_tgtHead (x : Symbol) (v : Word) (s : State) : (setFreq x v s).tgtHead = s.tgtHead := rfl
@[simp] theorem setFreq_tgtTail (x : Symbol) (v : Word) (s : State) : (setFreq x v s).tgtTail = s.tgtTail := rfl
@[simp] theorem setFreq_tbA (x : Symbol) (v : Word) (s : State) : (setFreq x v s).tbA = s.tbA := rfl
@[simp] theorem setFreq_tbB (x : Symbol) (v : Word) (s : State) : (setFreq x v s).tbB = s.tbB := rfl
@[simp] theorem setFreq_tbState (x : Symbol) (v : Word) (s : State) : (setFreq x v s).tbState = s.tbState := rfl
@[simp] theorem setFreq_root (x : Symbol) (v : Word) (s : State) : (setFreq x v s).root = s.root := rfl
@[simp] theorem setFreq_code (x : Symbol) (v : Word) (s : State) : (setFreq x v s).code = s.code := rfl
@[simp] theorem setFreq_bitbuf (x : Symbol) (v : Word) (s : State) : (setFreq x v s).bitbuf = s.bitbuf := rfl
@[simp] theorem setFreq_acc (x : Symbol) (v : Word) (s : State) : (setFreq x v s).acc = s.acc := rfl
@[simp] theorem setFreq_nbits (x : Symbol) (v : Word) (s : State) : (setFreq x v s).nbits = s.nbits := rfl
@[simp] theorem setFreq_uphase (x : Symbol) (v : Word) (s : State) : (setFreq x v s).uphase = s.uphase := rfl
@[simp] theorem setFreq_cursor (x : Symbol) (v : Word) (s : State) : (setFreq x v s).cursor = s.cursor := rfl
@[simp] theorem setFreq_phase (x : Symbol) (v : Word) (s : State) : (setFreq x v s).phase = s.phase := rfl
@[simp] theorem setFreq_err (x : Symbol) (v : Word) (s : State) : (setFreq x v s).err = s.err := rfl
@[simp] theorem setFreq_errcmd (x : Symbol) (v : Word) (s : State) : (setFreq x v s).errcmd = s.errcmd := rfl
@[simp] theorem setFreq_outb (x : Symbol) (v : Word) (s : State) : (setFreq x v s).outb = s.outb := rfl
@[simp] theorem setFreq_outs (x : Symbol) (v : Word) (s : State) : (setFreq x v s).outs = s.outs := rfl
@[simp] theorem setFreq_rsp (x : Symbol) (v : Word) (s : State) : (setFreq x v s).rsp = s.rsp := rfl
@[simp] theorem setFreq_port (x : Symbol) (v : Word) (s : State) : (setFreq x v s).port = s.port := rfl

/-! ## setNode -/

@[simp] theorem setNode_freq (i : NodeIdx) (e : NodeEntry) (s : State) : (setNode i e s).freq = s.freq := rfl
@[simp] theorem setNode_total (i : NodeIdx) (e : NodeEntry) (s : State) : (setNode i e s).total = s.total := rfl
@[simp] theorem setNode_node (i : NodeIdx) (e : NodeEntry) (s : State) : (setNode i e s).node = Memory.write .zero s.node i.toNat e := rfl
@[simp] theorem setNode_nleaf (i : NodeIdx) (e : NodeEntry) (s : State) : (setNode i e s).nleaf = s.nleaf := rfl
@[simp] theorem setNode_srcHead (i : NodeIdx) (e : NodeEntry) (s : State) : (setNode i e s).srcHead = s.srcHead := rfl
@[simp] theorem setNode_tgtHead (i : NodeIdx) (e : NodeEntry) (s : State) : (setNode i e s).tgtHead = s.tgtHead := rfl
@[simp] theorem setNode_tgtTail (i : NodeIdx) (e : NodeEntry) (s : State) : (setNode i e s).tgtTail = s.tgtTail := rfl
@[simp] theorem setNode_tbA (i : NodeIdx) (e : NodeEntry) (s : State) : (setNode i e s).tbA = s.tbA := rfl
@[simp] theorem setNode_tbB (i : NodeIdx) (e : NodeEntry) (s : State) : (setNode i e s).tbB = s.tbB := rfl
@[simp] theorem setNode_tbState (i : NodeIdx) (e : NodeEntry) (s : State) : (setNode i e s).tbState = s.tbState := rfl
@[simp] theorem setNode_root (i : NodeIdx) (e : NodeEntry) (s : State) : (setNode i e s).root = s.root := rfl
@[simp] theorem setNode_code (i : NodeIdx) (e : NodeEntry) (s : State) : (setNode i e s).code = s.code := rfl
@[simp] theorem setNode_bitbuf (i : NodeIdx) (e : NodeEntry) (s : State) : (setNode i e s).bitbuf = s.bitbuf := rfl
@[simp] theorem setNode_acc (i : NodeIdx) (e : NodeEntry) (s : State) : (setNode i e s).acc = s.acc := rfl
@[simp] theorem setNode_nbits (i : NodeIdx) (e : NodeEntry) (s : State) : (setNode i e s).nbits = s.nbits := rfl
@[simp] theorem setNode_uphase (i : NodeIdx) (e : NodeEntry) (s : State) : (setNode i e s).uphase = s.uphase := rfl
@[simp] theorem setNode_cursor (i : NodeIdx) (e : NodeEntry) (s : State) : (setNode i e s).cursor = s.cursor := rfl
@[simp] theorem setNode_phase (i : NodeIdx) (e : NodeEntry) (s : State) : (setNode i e s).phase = s.phase := rfl
@[simp] theorem setNode_err (i : NodeIdx) (e : NodeEntry) (s : State) : (setNode i e s).err = s.err := rfl
@[simp] theorem setNode_errcmd (i : NodeIdx) (e : NodeEntry) (s : State) : (setNode i e s).errcmd = s.errcmd := rfl
@[simp] theorem setNode_outb (i : NodeIdx) (e : NodeEntry) (s : State) : (setNode i e s).outb = s.outb := rfl
@[simp] theorem setNode_outs (i : NodeIdx) (e : NodeEntry) (s : State) : (setNode i e s).outs = s.outs := rfl
@[simp] theorem setNode_rsp (i : NodeIdx) (e : NodeEntry) (s : State) : (setNode i e s).rsp = s.rsp := rfl
@[simp] theorem setNode_port (i : NodeIdx) (e : NodeEntry) (s : State) : (setNode i e s).port = s.port := rfl

/-! ## seed -/

@[simp] theorem seed_freq (s : State) : (seed s).freq = s.freq := rfl
@[simp] theorem seed_total (s : State) : (seed s).total = s.total := rfl
@[simp] theorem seed_node (s : State) : (seed s).node = s.node := rfl
@[simp] theorem seed_nleaf (s : State) : (seed s).nleaf = s.nleaf := rfl
@[simp] theorem seed_srcHead (s : State) : (seed s).srcHead = 0 := rfl
@[simp] theorem seed_tgtHead (s : State) : (seed s).tgtHead = s.nleaf := rfl
@[simp] theorem seed_tgtTail (s : State) : (seed s).tgtTail = s.nleaf := rfl
@[simp] theorem seed_tbA (s : State) : (seed s).tbA = s.tbA := rfl
@[simp] theorem seed_tbB (s : State) : (seed s).tbB = s.tbB := rfl
@[simp] theorem seed_tbState (s : State) : (seed s).tbState = s.tbState := rfl
@[simp] theorem seed_root (s : State) : (seed s).root = s.root := rfl
@[simp] theorem seed_code (s : State) : (seed s).code = s.code := rfl
@[simp] theorem seed_bitbuf (s : State) : (seed s).bitbuf = s.bitbuf := rfl
@[simp] theorem seed_acc (s : State) : (seed s).acc = s.acc := rfl
@[simp] theorem seed_nbits (s : State) : (seed s).nbits = s.nbits := rfl
@[simp] theorem seed_uphase (s : State) : (seed s).uphase = s.uphase := rfl
@[simp] theorem seed_cursor (s : State) : (seed s).cursor = s.cursor := rfl
@[simp] theorem seed_phase (s : State) : (seed s).phase = s.phase := rfl
@[simp] theorem seed_err (s : State) : (seed s).err = s.err := rfl
@[simp] theorem seed_errcmd (s : State) : (seed s).errcmd = s.errcmd := rfl
@[simp] theorem seed_outb (s : State) : (seed s).outb = s.outb := rfl
@[simp] theorem seed_outs (s : State) : (seed s).outs = s.outs := rfl
@[simp] theorem seed_rsp (s : State) : (seed s).rsp = s.rsp := rfl
@[simp] theorem seed_port (s : State) : (seed s).port = s.port := rfl

/-! ## finishBuild -/

@[simp] theorem finishBuild_freq (s : State) : (finishBuild s).freq = s.freq := rfl
@[simp] theorem finishBuild_total (s : State) : (finishBuild s).total = s.total := rfl
@[simp] theorem finishBuild_node (s : State) : (finishBuild s).node = s.node := rfl
@[simp] theorem finishBuild_nleaf (s : State) : (finishBuild s).nleaf = s.nleaf := rfl
@[simp] theorem finishBuild_srcHead (s : State) : (finishBuild s).srcHead = s.srcHead := rfl
@[simp] theorem finishBuild_tgtHead (s : State) : (finishBuild s).tgtHead = s.tgtHead := rfl
@[simp] theorem finishBuild_tgtTail (s : State) : (finishBuild s).tgtTail = s.tgtTail := rfl
@[simp] theorem finishBuild_tbA (s : State) : (finishBuild s).tbA = s.tbA := rfl
@[simp] theorem finishBuild_tbB (s : State) : (finishBuild s).tbB = s.tbB := rfl
@[simp] theorem finishBuild_tbState (s : State) : (finishBuild s).tbState = tbDone := rfl
@[simp] theorem finishBuild_root (s : State) : (finishBuild s).root = s.tgtHead := rfl
@[simp] theorem finishBuild_code (s : State) : (finishBuild s).code = s.code := rfl
@[simp] theorem finishBuild_bitbuf (s : State) : (finishBuild s).bitbuf = s.bitbuf := rfl
@[simp] theorem finishBuild_acc (s : State) : (finishBuild s).acc = s.acc := rfl
@[simp] theorem finishBuild_nbits (s : State) : (finishBuild s).nbits = s.nbits := rfl
@[simp] theorem finishBuild_uphase (s : State) : (finishBuild s).uphase = s.uphase := rfl
@[simp] theorem finishBuild_cursor (s : State) : (finishBuild s).cursor = s.cursor := rfl
@[simp] theorem finishBuild_phase (s : State) : (finishBuild s).phase = pTree := rfl
@[simp] theorem finishBuild_err (s : State) : (finishBuild s).err = s.err := rfl
@[simp] theorem finishBuild_errcmd (s : State) : (finishBuild s).errcmd = s.errcmd := rfl
@[simp] theorem finishBuild_outb (s : State) : (finishBuild s).outb = s.outb := rfl
@[simp] theorem finishBuild_outs (s : State) : (finishBuild s).outs = s.outs := rfl
@[simp] theorem finishBuild_rsp (s : State) : (finishBuild s).rsp = s.rsp := rfl
@[simp] theorem finishBuild_port (s : State) : (finishBuild s).port = s.port := rfl

/-! ## clearAll -/

@[simp] theorem clearAll_freq (s : State) : (clearAll s).freq = [] := rfl
@[simp] theorem clearAll_total (s : State) : (clearAll s).total = 0 := rfl
@[simp] theorem clearAll_node (s : State) : (clearAll s).node = [] := rfl
@[simp] theorem clearAll_nleaf (s : State) : (clearAll s).nleaf = 0 := rfl
@[simp] theorem clearAll_srcHead (s : State) : (clearAll s).srcHead = 0 := rfl
@[simp] theorem clearAll_tgtHead (s : State) : (clearAll s).tgtHead = 0 := rfl
@[simp] theorem clearAll_tgtTail (s : State) : (clearAll s).tgtTail = 0 := rfl
@[simp] theorem clearAll_tbA (s : State) : (clearAll s).tbA = 0 := rfl
@[simp] theorem clearAll_tbB (s : State) : (clearAll s).tbB = 0 := rfl
@[simp] theorem clearAll_tbState (s : State) : (clearAll s).tbState = 0 := rfl
@[simp] theorem clearAll_root (s : State) : (clearAll s).root = 0 := rfl
@[simp] theorem clearAll_code (s : State) : (clearAll s).code = [] := rfl
@[simp] theorem clearAll_bitbuf (s : State) : (clearAll s).bitbuf = [] := rfl
@[simp] theorem clearAll_acc (s : State) : (clearAll s).acc = 0 := rfl
@[simp] theorem clearAll_nbits (s : State) : (clearAll s).nbits = 0 := rfl
@[simp] theorem clearAll_uphase (s : State) : (clearAll s).uphase = 0 := rfl
@[simp] theorem clearAll_cursor (s : State) : (clearAll s).cursor = 0 := rfl
@[simp] theorem clearAll_phase (s : State) : (clearAll s).phase = 0 := rfl
@[simp] theorem clearAll_err (s : State) : (clearAll s).err = 0 := rfl
@[simp] theorem clearAll_errcmd (s : State) : (clearAll s).errcmd = 0 := rfl
@[simp] theorem clearAll_outb (s : State) : (clearAll s).outb = s.outb := rfl
@[simp] theorem clearAll_outs (s : State) : (clearAll s).outs = s.outs := rfl
@[simp] theorem clearAll_rsp (s : State) : (clearAll s).rsp = s.rsp := rfl
@[simp] theorem clearAll_port (s : State) : (clearAll s).port = s.port := rfl

/-! ## hardReset -/

@[simp] theorem hardReset_freq (s : State) : (hardReset s).freq = [] := rfl
@[simp] theorem hardReset_total (s : State) : (hardReset s).total = 0 := rfl
@[simp] theorem hardReset_node (s : State) : (hardReset s).node = [] := rfl
@[simp] theorem hardReset_nleaf (s : State) : (hardReset s).nleaf = 0 := rfl
@[simp] theorem hardReset_srcHead (s : State) : (hardReset s).srcHead = 0 := rfl
@[simp] theorem hardReset_tgtHead (s : State) : (hardReset s).tgtHead = 0 := rfl
@[simp] theorem hardReset_tgtTail (s : State) : (hardReset s).tgtTail = 0 := rfl
@[simp] theorem hardReset_tbA (s : State) : (hardReset s).tbA = 0 := rfl
@[simp] theorem hardReset_tbB (s : State) : (hardReset s).tbB = 0 := rfl
@[simp] theorem hardReset_tbState (s : State) : (hardReset s).tbState = 0 := rfl
@[simp] theorem hardReset_root (s : State) : (hardReset s).root = 0 := rfl
@[simp] theorem hardReset_code (s : State) : (hardReset s).code = [] := rfl
@[simp] theorem hardReset_bitbuf (s : State) : (hardReset s).bitbuf = [] := rfl
@[simp] theorem hardReset_acc (s : State) : (hardReset s).acc = 0 := rfl
@[simp] theorem hardReset_nbits (s : State) : (hardReset s).nbits = 0 := rfl
@[simp] theorem hardReset_uphase (s : State) : (hardReset s).uphase = 0 := rfl
@[simp] theorem hardReset_cursor (s : State) : (hardReset s).cursor = 0 := rfl
@[simp] theorem hardReset_phase (s : State) : (hardReset s).phase = 0 := rfl
@[simp] theorem hardReset_err (s : State) : (hardReset s).err = 0 := rfl
@[simp] theorem hardReset_errcmd (s : State) : (hardReset s).errcmd = 0 := rfl
@[simp] theorem hardReset_outb (s : State) : (hardReset s).outb = [] := rfl
@[simp] theorem hardReset_outs (s : State) : (hardReset s).outs = [] := rfl
@[simp] theorem hardReset_rsp (s : State) : (hardReset s).rsp = [] := rfl
@[simp] theorem hardReset_port (s : State) : (hardReset s).port = s.port := rfl

end Sys2Proof.Machine
end

