-- ==== Sys2Proof/Laws/Ops.lean ====
section
/-!
SUPPORT. For each shared operation, what it can do: the dispatch wrappers, the reads and writes of the block's memories, the fault entry.
-/

namespace Sys2Proof.Machine

/-! ## The dispatch order (30_encoding.md R87) -/

@[simp] theorem faulted_eq_false {s : State} : s.faulted = false ↔ s.err = 0 := by simp [State.faulted]

@[simp] theorem faulted_eq_true {s : State} : s.faulted = true ↔ s.err ≠ 0 := by simp [State.faulted]

/-- A faulted block ignores a work command. -/
theorem work_faulted {i : Instr} {body : State → Result} {s : State} (h : s.err ≠ 0) : work i body s = .next s := by
  rw [work, if_pos (faulted_eq_true.mpr h)]

/-- A legal work command is its own rule. -/
theorem work_legal {i : Instr} {body : State → Result} {s : State} (h : s.err = 0) (hl : legal i s = true) :
    work i body s = body s := by
  simp [work, State.faulted, h, hl]

/-- A work command out of phase raises SequenceError. -/
theorem work_outOfPhase {i : Instr} {body : State → Result} {s : State} (h : s.err = 0) (hl : legal i s = false) :
    work i body s = .next { s with err := 6, errcmd := encode i } := by
  simp only [work, State.faulted, h, hl]
  rfl

/-! The phase legality table (30_encoding.md R91), row by row. -/

theorem legal_sym {x : Symbol} {s : State} : legal (.sym x) s = true ↔ s.phase = 0 := decide_eq_true_iff
theorem legal_addf {x : Symbol} {n : BitVec 16} {s : State} : legal (.addf x n) s = true ↔ s.phase = 0 := decide_eq_true_iff
theorem legal_fin {s : State} : legal .fin s = true ↔ s.phase = 0 := decide_eq_true_iff
theorem legal_build {s : State} : legal .build s = true ↔ s.phase = 1 := decide_eq_true_iff
theorem legal_table {s : State} : legal .table s = true ↔ s.phase = 2 := decide_eq_true_iff
theorem legal_enc {x : Symbol} {s : State} : legal (.enc x) s = true ↔ s.phase = 3 := decide_eq_true_iff
theorem legal_pbit {v : Byte} {s : State} : legal (.pbit v) s = true := rfl
theorem legal_pack {s : State} : legal .pack s = true := rfl
theorem legal_dbeg {s : State} : legal .dbeg s = true ↔ 2 ≤ s.phase.toNat ∧ s.uphase = 0 := by
  simp only [legal, Bool.and_eq_true, decide_eq_true_eq, BitVec.le_def]
  rfl
theorem legal_ubyte {b : Byte} {s : State} : legal (.ubyte b) s = true ↔ s.uphase ≠ 0 := decide_eq_true_iff
theorem legal_dend {s : State} : legal .dend s = true ↔ s.uphase ≠ 0 := decide_eq_true_iff

/-- What a work command can do when it answers a next state. -/
theorem work_next {i : Instr} {body : State → Result} {s t : State} (h : work i body s = .next t) :
    (s.err ≠ 0 ∧ t = s) ∨ (s.err = 0 ∧ legal i s = true ∧ body s = .next t) ∨
      (s.err = 0 ∧ legal i s = false ∧ t = raise .sequence (encode i) s) := by
  by_cases he : s.err = 0
  · by_cases hl : legal i s = true
    · rw [work_legal he hl] at h; exact .inr (.inl ⟨he, hl, h⟩)
    · simp only [Bool.not_eq_true] at hl
      rw [work_outOfPhase he hl] at h
      cases h; exact .inr (.inr ⟨he, hl, rfl⟩)
  · rw [work_faulted he] at h
    cases h; exact .inl ⟨he, rfl⟩

/-- A well-formed service command has its effect in every state. -/
theorem service_wf {i : Instr} {body : State → State} {s : State} (h : i.wf = true) : service i body s = .next (body s) := by
  simp [service, h]

/-- What an illegal word can do. -/
theorem illegal_cases (c : Word) (s : State) :
    (s.err ≠ 0 ∧ illegal c s = s) ∨ (s.err = 0 ∧ illegal c s = raise .illegalCommand c s) := by
  by_cases h : s.err = 0
  · exact .inr ⟨h, by simp [illegal, State.faulted, h]⟩
  · exact .inl ⟨h, by rw [illegal, if_pos (faulted_eq_true.mpr h)]⟩

/-- What a service command can do: it always answers a next state. -/
theorem service_next {i : Instr} {body : State → State} {s t : State} (h : service i body s = .next t) :
    (i.wf = true ∧ t = body s) ∨ (i.wf = false ∧ t = illegal (encode i) s) := by
  unfold service at h
  cases hw : i.wf <;> simp [hw] at h <;> simp [h]

/-- A computation over NODE that is well gives the next state. -/
@[simp] theorem outcomeOf_next {e : Except Fault State} {t : State} : outcomeOf e = .next t ↔ e = .ok t := by
  cases e <;> simp [outcomeOf]

@[simp] theorem outcomeOf_ok (t : State) : outcomeOf (.ok t) = .next t := rfl

/-! ## Computations that may meet an index that is no entry -/

@[simp] theorem ok_bind {ε α β : Type} (a : α) (f : α → Except ε β) : (Except.ok a >>= f) = f a := rfl

@[simp] theorem error_bind {ε α β : Type} (e : ε) (f : α → Except ε β) : ((Except.error e : Except ε α) >>= f) = .error e := rfl

/-- A sequence of two computations is well exactly when both are. -/
theorem bind_ok {ε α β : Type} {x : Except ε α} {f : α → Except ε β} {b : β} :
    (x >>= f) = .ok b ↔ ∃ a, x = .ok a ∧ f a = .ok b := by
  cases x <;> simp

theorem readNode_eq {s : State} {i : NodeIdx} (h : i ≠ 255#8) : readNode s i = .ok (nodeAt s i) := by simp [readNode, h]

theorem readNode_ok {s : State} {i : NodeIdx} {e : NodeEntry} : readNode s i = .ok e ↔ i ≠ 255#8 ∧ e = nodeAt s i := by
  unfold readNode
  split <;> simp_all [eq_comm]

theorem writeNode_eq {s : State} {i : NodeIdx} {e : NodeEntry} (h : i ≠ 255#8) : writeNode i e s = .ok (setNode i e s) := by
  simp [writeNode, h]

theorem writeNode_ok {s t : State} {i : NodeIdx} {e : NodeEntry} : writeNode i e s = .ok t ↔ i ≠ 255#8 ∧ t = setNode i e s := by
  unfold writeNode
  split <;> simp_all [eq_comm]

/-! ## Reads after writes -/

theorem freqAt_setFreq (x y : Symbol) (v : Word) (s : State) :
    freqAt (setFreq x v s) y = if y = x then v else freqAt s y := by
  simp only [freqAt, setFreq_freq, Memory.read_write, BitVec.toNat_inj]

theorem nodeAt_eq (s : State) (i : NodeIdx) : nodeAt s i = nodeEntry s i.toNat := rfl

theorem nodeEntry_setNode (i : NodeIdx) (e : NodeEntry) (s : State) (j : Nat) :
    nodeEntry (setNode i e s) j = if j = i.toNat then e else nodeEntry s j := by
  simp only [nodeEntry, setNode_node, Memory.read_write]

theorem nodeAt_setNode (i j : NodeIdx) (e : NodeEntry) (s : State) :
    nodeAt (setNode i e s) j = if j = i then e else nodeAt s j := by
  simp only [nodeAt_eq, nodeEntry_setNode, BitVec.toNat_inj]

/-- An entry depends on the field `node` alone. -/
theorem nodeEntry_congr {s t : State} (h : t.node = s.node) (i : Nat) : nodeEntry t i = nodeEntry s i := by
  simp only [nodeEntry, h]

theorem nodeAt_congr {s t : State} (h : t.node = s.node) (i : NodeIdx) : nodeAt t i = nodeAt s i := by
  simp only [nodeAt, h]

theorem freqAt_congr {s t : State} (h : t.freq = s.freq) (x : Symbol) : freqAt t x = freqAt s x := by
  simp only [freqAt, h]

theorem codeAt_congr {s t : State} (h : t.code = s.code) (x : Symbol) : codeAt t x = codeAt s x := by
  simp only [codeAt, h]

theorem readNode_congr {s t : State} (h : t.node = s.node) (i : NodeIdx) : readNode t i = readNode s i := by
  simp only [readNode, nodeAt_congr h]

theorem nodeIdx_toNat_lt {i : NodeIdx} (h : i ≠ 255#8) : i.toNat < 255 := by
  have := i.isLt
  have h' : i.toNat ≠ 255 := fun e => h (BitVec.eq_of_toNat_eq (by simpa using e))
  omega

end Sys2Proof.Machine
end

