-- ==== Sys2Proof/Laws/Exec.lean ====
section
/-!
SUPPORT. Each arm of `exec` as the dispatch wrapper around its rule, and a step on each event of the port.
-/

namespace Sys2Proof.Machine

variable {s : State}

theorem exec_nop : exec .nop s = service .nop id s := rfl
theorem exec_clr : exec .clr s = service .clr clearAll s := rfl
theorem exec_rdcsr (k : Byte) : exec (.rdcsr k) s = service (.rdcsr k) (fun s => emitR (s.csr k) s) s := rfl
theorem exec_rdnode (i : NodeIdx) : exec (.rdnode i) s = service (.rdnode i) (fun s => emitR (nodeWord (nodeAt s i)) s) s := rfl
theorem exec_rdwt (i : NodeIdx) : exec (.rdwt i) s = service (.rdwt i) (fun s => emitR (nodeAt s i).weight s) s := rfl
theorem exec_rdlen (x : Symbol) : exec (.rdlen x) s = service (.rdlen x) (fun s => emitR (lengthWord (codeAt s x)) s) s := rfl
theorem exec_rdcode (x : Symbol) (k : BitVec 2) : exec (.rdcode x k) s = service (.rdcode x k) (fun s => emitR (codeChunk (codeAt s x).bits k) s) s := rfl
theorem exec_sym (x : Symbol) : exec (.sym x) s = work (.sym x) (fun s => .next (addCount (encode (.sym x)) x 1 s)) s := rfl
theorem exec_addf (x : Symbol) (n : BitVec 16) : exec (.addf x n) s = work (.addf x n) (fun s => .next (addCount (encode (.addf x n)) x (countOperand n) s)) s := rfl
theorem exec_fin : exec .fin s = work .fin (fun s => .next (finish (encode .fin) s)) s := rfl
theorem exec_build : exec .build s = work .build (fun s => outcomeOf (buildTree s)) s := rfl
theorem exec_table : exec .table s = work .table (fun s => outcomeOf (buildTable s)) s := rfl
theorem exec_enc (x : Symbol) : exec (.enc x) s = work (.enc x) (fun s => .next (encodeSymbol Config.bitbufCap (encode (.enc x)) x s)) s := rfl
theorem exec_pbit (v : Byte) : exec (.pbit v) s = work (.pbit v) (fun s => .next (appendRawBit Config.bitbufCap (encode (.pbit v)) v s)) s := rfl
theorem exec_pack : exec .pack s = work .pack (fun s => .next (packAll s)) s := rfl
theorem exec_dbeg : exec .dbeg s = work .dbeg (fun s => .next (openSession s)) s := rfl
theorem exec_ubyte (b : Byte) : exec (.ubyte b) s = work (.ubyte b) (fun s => outcomeOf (unpackByte (encode (.ubyte b)) b s)) s := rfl
theorem exec_dend : exec .dend s = work .dend (fun s => .next (closeSession (encode .dend) s)) s := rfl

theorem step_idle (h : s.port = []) : step s = .next s := by
  unfold step takeEvent
  rw [h]

theorem step_rst {q : List PortEvent} (h : s.port = .rst :: q) : step s = .next (hardReset { s with port := q }) := by
  unfold step takeEvent
  rw [h]

theorem step_command {w : Word} {q : List PortEvent} {i : Instr} (h : s.port = .cmd w :: q) (hd : decode w = .ok i) :
    step s = exec i { s with port := q } := by
  unfold step takeEvent
  rw [h]
  simp only [hd]

theorem step_illegal {w : Word} {q : List PortEvent} {e : Reject} (h : s.port = .cmd w :: q) (hd : decode w = .error e) :
    step s = .next (illegal w { s with port := q }) := by
  unfold step takeEvent
  rw [h]
  simp only [hd]

/-- What a step can do: nothing, a hardware reset, a decoded command, or an illegal word. -/
theorem step_cases (s : State) :
    (s.port = [] ∧ step s = .next s) ∨
    (∃ q, s.port = .rst :: q ∧ step s = .next (hardReset { s with port := q })) ∨
    (∃ w q i, s.port = .cmd w :: q ∧ decode w = .ok i ∧ step s = exec i { s with port := q }) ∨
    (∃ w q e, s.port = .cmd w :: q ∧ decode w = .error e ∧ step s = .next (illegal w { s with port := q })) := by
  rcases h : s.port with _ | ⟨e, q⟩
  · exact .inl ⟨rfl, step_idle h⟩
  · cases e with
    | rst => exact .inr (.inl ⟨q, rfl, step_rst h⟩)
    | cmd w =>
      rcases hd : decode w with e | i
      · exact .inr (.inr (.inr ⟨w, q, e, rfl, hd, step_illegal h hd⟩))
      · exact .inr (.inr (.inl ⟨w, q, i, rfl, hd, step_command h hd⟩))

end Sys2Proof.Machine
end

