-- ==== Sys2Proof/Laws/Frames.lean ====
section
/-!
SUPPORT. The frame of each command's rule: which fields it may write, as a record update.
-/

namespace Sys2Proof.Machine

/-! ## The frequency analyser -/

theorem addCount_cases (c : Word) (x : Symbol) (n : Word) (s : State) :
    (s.total.toNat + n.toNat > 2 ^ 32 - 1 ∧ addCount c x n s = raise .countOverflow c s) ∨
      (s.total.toNat + n.toNat ≤ 2 ^ 32 - 1 ∧
        addCount c x n s = { setFreq x (freqAt s x + n) s with total := s.total + n }) := by
  unfold addCount
  split
  · next h => exact .inl ⟨h, rfl⟩
  · next h => exact .inr ⟨by omega, rfl⟩

theorem seedLeaves_frame (rs : List Record) : ∀ (i : Nat) (s : State),
    seedLeaves i rs s = { s with node := (seedLeaves i rs s).node } := by
  induction rs with
  | nil => intro i s; rfl
  | cons r rs ih =>
    intro i s
    have := ih (i + 1) (setNode (BitVec.ofNat 8 i) (leafOf r) s)
    simp only [seedLeaves]
    rw [this]; rfl

theorem finish_cases (c : Word) (s : State) :
    (recordSet s = [] ∧ finish c s = raise .emptyInput c s) ∨
      (recordSet s ≠ [] ∧
        finish c s = { s with node := (seedLeaves 0 (sortedList s) s).node
                              nleaf := BitVec.ofNat 8 (sortedList s).length
                              phase := pSorted }) := by
  unfold finish
  split
  · next h => exact .inl ⟨h, rfl⟩
  · next h => refine .inr ⟨h, ?_⟩; rw [seedLeaves_frame]

/-! ## The tree builder -/

theorem take_cases {s : State} {i : NodeIdx} {t : State} (h : take s = .ok (i, t)) :
    (s.srcHead ≠ s.nleaf ∧ i = s.srcHead ∧ t = { s with srcHead := s.srcHead + 1 }) ∨
      (s.tgtHead ≠ s.tgtTail ∧ i = s.tgtHead ∧ t = { s with tgtHead := s.tgtHead + 1 }) := by
  have hs : srcEmpty s = true ↔ s.srcHead = s.nleaf := by simp [srcEmpty]
  have ht : tgtEmpty s = true ↔ s.tgtHead = s.tgtTail := by simp [tgtEmpty]
  unfold take at h
  split at h
  · split at h
    · cases h
    · next h2 => cases h; exact .inr ⟨fun e => h2 (ht.mpr e), rfl, rfl⟩
  · next h1 =>
    split at h
    · cases h; exact .inl ⟨fun e => h1 (hs.mpr e), rfl, rfl⟩
    · next h2 =>
      obtain ⟨a, _, h⟩ := bind_ok.mp h
      obtain ⟨b, _, h⟩ := bind_ok.mp h
      split at h
      · cases h; exact .inl ⟨fun e => h1 (hs.mpr e), rfl, rfl⟩
      · cases h; exact .inr ⟨fun e => h2 (ht.mpr e), rfl, rfl⟩

theorem takeFirst_ok {s t : State} : takeFirst s = .ok t ↔ ∃ i u, take s = .ok (i, u) ∧ t = { u with tbA := i } := by
  unfold takeFirst
  rw [bind_ok]
  constructor
  · rintro ⟨⟨i, u⟩, h1, h2⟩; cases h2; exact ⟨i, u, h1, rfl⟩
  · rintro ⟨i, u, h1, rfl⟩; exact ⟨(i, u), h1, rfl⟩

theorem takeSecond_ok {s t : State} : takeSecond s = .ok t ↔ ∃ i u, take s = .ok (i, u) ∧ t = { u with tbB := i } := by
  unfold takeSecond
  rw [bind_ok]
  constructor
  · rintro ⟨⟨i, u⟩, h1, h2⟩; cases h2; exact ⟨i, u, h1, rfl⟩
  · rintro ⟨i, u, h1, rfl⟩; exact ⟨(i, u), h1, rfl⟩

theorem writeMerged_ok {s t : State} : writeMerged s = .ok t ↔
    s.tbA ≠ 255#8 ∧ s.tbB ≠ 255#8 ∧ s.tgtTail ≠ 255#8 ∧
      t = { setNode s.tgtTail ⟨false, 0, (nodeAt s s.tbA).weight + (nodeAt s s.tbB).weight, s.tbA, s.tbB⟩ s with
            tgtTail := s.tgtTail + 1 } := by
  unfold writeMerged
  simp only [bind_ok, readNode_ok, writeNode_ok]
  constructor
  · rintro ⟨a, ⟨ha, rfl⟩, b, ⟨hb, rfl⟩, u, ⟨hu, rfl⟩, h⟩
    cases h
    exact ⟨ha, hb, hu, rfl⟩
  · rintro ⟨ha, hb, hu, rfl⟩
    exact ⟨_, ⟨ha, rfl⟩, _, ⟨hb, rfl⟩, _, ⟨hu, rfl⟩, rfl⟩

/-- The fields a merge may write. -/
def mergeFrame (s t : State) : Prop :=
  t = { s with node := t.node, srcHead := t.srcHead, tgtHead := t.tgtHead, tgtTail := t.tgtTail, tbA := t.tbA, tbB := t.tbB }

theorem mergeFrame.trans {s t u : State} (h1 : mergeFrame s t) (h2 : mergeFrame t u) : mergeFrame s u := by
  unfold mergeFrame at *
  rw [h2, h1]

theorem take_frame {s t : State} {i : NodeIdx} (h : take s = .ok (i, t)) : mergeFrame s t := by
  rcases take_cases h with ⟨_, _, rfl⟩ | ⟨_, _, rfl⟩ <;> rfl

theorem mergeOnce_ok {s t : State} : mergeOnce s = .ok t ↔
    ∃ i u j v, take s = .ok (i, u) ∧ take { u with tbA := i } = .ok (j, v) ∧ writeMerged { v with tbB := j } = .ok t := by
  unfold mergeOnce
  simp only [bind_ok, takeFirst_ok, takeSecond_ok]
  constructor
  · rintro ⟨_, ⟨i, u, h1, rfl⟩, _, ⟨j, v, h2, rfl⟩, h3⟩; exact ⟨i, u, j, v, h1, h2, h3⟩
  · rintro ⟨i, u, j, v, h1, h2, h3⟩; exact ⟨_, ⟨i, u, h1, rfl⟩, _, ⟨j, v, h2, rfl⟩, h3⟩

theorem mergeOnce_frame {s t : State} (h : mergeOnce s = .ok t) : mergeFrame s t := by
  obtain ⟨i, u, j, v, h1, h2, h3⟩ := mergeOnce_ok.mp h
  have e3 : mergeFrame { v with tbB := j } t := by
    obtain ⟨_, _, _, rfl⟩ := writeMerged_ok.mp h3; rfl
  have e2 := take_frame h2
  have e1 := take_frame h1
  have f1 : mergeFrame u { u with tbA := i } := rfl
  have f2 : mergeFrame v { v with tbB := j } := rfl
  exact (e1.trans f1).trans ((e2.trans f2).trans e3)

theorem mergeLoop_frame : ∀ (n : Nat) {s t : State}, mergeLoop n s = .ok t → mergeFrame s t
  | 0, _, _, h => by cases h
  | n + 1, s, t, h => by
    unfold mergeLoop at h
    obtain ⟨u, h1, h2⟩ := bind_ok.mp h
    have e1 := mergeOnce_frame h1
    split at h2
    · cases h2; exact e1
    · exact e1.trans (mergeLoop_frame n h2)

theorem buildTree_ok {s t : State} : buildTree s = .ok t ↔ ∃ u, mergeLoop 255 (seed s) = .ok u ∧ t = finishBuild u := by
  unfold buildTree
  rw [bind_ok]
  constructor
  · rintro ⟨u, h1, h2⟩; cases h2; exact ⟨u, h1, rfl⟩
  · rintro ⟨u, h1, rfl⟩; exact ⟨u, h1, rfl⟩

theorem buildTree_frame {s t : State} (h : buildTree s = .ok t) :
    t = { s with node := t.node, srcHead := t.srcHead, tgtHead := t.tgtHead, tgtTail := t.tgtTail, tbA := t.tbA, tbB := t.tbB,
                 tbState := tbDone, root := t.tgtHead, phase := pTree } := by
  obtain ⟨u, h1, rfl⟩ := buildTree_ok.mp h
  have e := mergeLoop_frame _ h1
  unfold mergeFrame at e
  rw [e]; rfl

/-! ## The code table -/

theorem buildTable_ok {s t : State} : buildTable s = .ok t ↔
    s.root ≠ 255#8 ∧ ∃ c d, walk s 127 (nodeAt s s.root).left [false] s.code = .ok c ∧
      walk s 127 (nodeAt s s.root).right [true] c = .ok d ∧ t = { s with code := d, phase := pReady } := by
  unfold buildTable
  simp only [bind_ok, readNode_ok]
  constructor
  · rintro ⟨r, ⟨hr, rfl⟩, c, hc, d, hd, h⟩; cases h; exact ⟨hr, c, d, hc, hd, rfl⟩
  · rintro ⟨hr, c, d, hc, hd, rfl⟩; exact ⟨_, ⟨hr, rfl⟩, c, hc, d, hd, rfl⟩

theorem buildTable_frame {s t : State} (h : buildTable s = .ok t) : t = { s with code := t.code, phase := pReady } := by
  obtain ⟨_, c, d, _, _, rfl⟩ := buildTable_ok.mp h
  rfl

/-! ## The packer -/

theorem appendBits_cases (cap : Nat) (c : Word) (bits : List Bool) (s : State) :
    (s.bitbuf.length + bits.length > cap ∧ appendBits cap c bits s = raise .bufferOverflow c s) ∨
      (s.bitbuf.length + bits.length ≤ cap ∧ appendBits cap c bits s = { s with bitbuf := s.bitbuf ++ bits }) := by
  unfold appendBits
  split
  · next h => exact .inl ⟨h, rfl⟩
  · next h => exact .inr ⟨by omega, rfl⟩

theorem shiftIn_frame (s : State) (x : Bool) :
    shiftIn s x = { s with acc := (shiftIn s x).acc, nbits := (shiftIn s x).nbits, outb := (shiftIn s x).outb } ∧
      s.outb <+: (shiftIn s x).outb := by
  unfold shiftIn
  split
  · exact ⟨rfl, List.prefix_append _ _⟩
  · exact ⟨rfl, List.prefix_refl _⟩

theorem shiftBits_frame (bits : List Bool) : ∀ s : State,
    bits.foldl shiftIn s = { s with acc := (bits.foldl shiftIn s).acc, nbits := (bits.foldl shiftIn s).nbits,
                                    outb := (bits.foldl shiftIn s).outb } ∧
      s.outb <+: (bits.foldl shiftIn s).outb := by
  induction bits with
  | nil => intro s; exact ⟨rfl, List.prefix_refl _⟩
  | cons x xs ih =>
    intro s
    have h1 := shiftIn_frame s x
    have h2 := ih (shiftIn s x)
    refine ⟨?_, h1.2.trans h2.2⟩
    simp only [List.foldl_cons]
    rw [h2.1, h1.1]

theorem packAll_frame (s : State) :
    packAll s = { s with acc := (packAll s).acc, nbits := (packAll s).nbits, outb := (packAll s).outb, bitbuf := [] } ∧
      s.outb <+: (packAll s).outb := by
  have h := shiftBits_frame (paddingBits s.bitbuf.length ++ s.bitbuf) s
  refine ⟨?_, h.2⟩
  unfold packAll
  rw [h.1]

/-! ## The decoder -/

theorem decodeBit_ok {x : Bool} {s t : State} : decodeBit x s = .ok t ↔
    s.cursor ≠ 255#8 ∧ ∃ c, c = (if x then (nodeAt s s.cursor).right else (nodeAt s s.cursor).left) ∧ c ≠ 255#8 ∧
      t = if (nodeAt s c).leaf then { emitS (nodeAt s c).sym s with cursor := s.root } else { s with cursor := c } := by
  unfold decodeBit
  simp only [bind_ok, readNode_ok]
  generalize hc : (if x then (nodeAt s s.cursor).right else (nodeAt s s.cursor).left) = c
  constructor
  · rintro ⟨n, ⟨hn, rfl⟩, m, ⟨hm, rfl⟩, h⟩
    rw [hc] at hm h
    refine ⟨hn, c, rfl, hm, ?_⟩
    by_cases hl : (nodeAt s c).leaf = true
    · rw [if_pos hl] at h ⊢; cases h; rfl
    · rw [if_neg hl] at h ⊢; cases h; rfl
  · rintro ⟨hn, c, rfl, hm, rfl⟩
    refine ⟨_, ⟨hn, rfl⟩, _, ⟨by rw [hc]; exact hm, rfl⟩, ?_⟩
    rw [hc]
    by_cases hl : (nodeAt s c).leaf = true
    · rw [if_pos hl, if_pos hl]
    · rw [if_neg hl, if_neg hl]

theorem decodeBit_frame {x : Bool} {s t : State} (h : decodeBit x s = .ok t) :
    t = { s with cursor := t.cursor, outs := t.outs } ∧ ∃ xs, t.outs = s.outs ++ xs ∧ xs.length ≤ 1 := by
  obtain ⟨_, c, _, _, rfl⟩ := decodeBit_ok.mp h
  split
  · exact ⟨rfl, [_], rfl, by simp⟩
  · exact ⟨rfl, [], by simp, by simp⟩

theorem decodeBits_cons {x : Bool} {xs : List Bool} {s t : State} :
    decodeBits (x :: xs) s = .ok t ↔ ∃ u, decodeBit x s = .ok u ∧ decodeBits xs u = .ok t := by
  rw [decodeBits, bind_ok]

theorem decodeBits_append (xs ys : List Bool) : ∀ {s t : State},
    decodeBits (xs ++ ys) s = .ok t ↔ ∃ u, decodeBits xs s = .ok u ∧ decodeBits ys u = .ok t := by
  induction xs with
  | nil => intro s t; simp [decodeBits]
  | cons x xs ih =>
    intro s t
    simp only [List.cons_append, decodeBits_cons, ih]
    constructor
    · rintro ⟨u, h1, v, h2, h3⟩; exact ⟨v, ⟨u, h1, h2⟩, h3⟩
    · rintro ⟨v, ⟨u, h1, h2⟩, h3⟩; exact ⟨u, h1, v, h2, h3⟩

theorem decodeBits_frame (xs : List Bool) : ∀ {s t : State}, decodeBits xs s = .ok t →
    t = { s with cursor := t.cursor, outs := t.outs } ∧ ∃ ys, t.outs = s.outs ++ ys ∧ ys.length ≤ xs.length := by
  induction xs with
  | nil => intro s t h; cases h; exact ⟨rfl, [], by simp, by simp⟩
  | cons x xs ih =>
    intro s t h
    obtain ⟨u, h1, h2⟩ := decodeBits_cons.mp h
    obtain ⟨e1, ys, o1, l1⟩ := decodeBit_frame h1
    obtain ⟨e2, zs, o2, l2⟩ := ih h2
    refine ⟨by rw [e2, e1], ys ++ zs, by rw [o2, o1, List.append_assoc], ?_⟩
    simp only [List.length_append, List.length_cons]; omega

theorem bitsBelow_length (b : Byte) (j : Nat) : (bitsBelow b j).length = j := by simp [bitsBelow]

theorem sentinelIndex_lt {b : Byte} {j : Nat} (h : sentinelIndex b = some j) : j < 8 ∧ b.getLsbD j = true := by
  have h1 := List.mem_of_find?_eq_some h
  have h2 := List.find?_some h
  simp only [List.mem_cons, List.not_mem_nil, or_false] at h1
  exact ⟨by omega, h2⟩

theorem unpackByte_frame {c : Word} {b : Byte} {s t : State} (h : unpackByte c b s = .ok t) :
    (t = raise .malformedStream c s ∧ s.uphase = uFirst ∧ sentinelIndex b = none) ∨
      (t = { s with uphase := t.uphase, cursor := t.cursor, outs := t.outs } ∧
        t.uphase = (if s.uphase = uFirst then uPayload else s.uphase) ∧
        ∃ ys, t.outs = s.outs ++ ys ∧ ys.length ≤ 8) := by
  unfold unpackByte at h
  split at h
  · next hu =>
    split at h
    · next hn => cases h; exact .inl ⟨rfl, hu, hn⟩
    · next j hj =>
      obtain ⟨e, ys, ho, hl⟩ := decodeBits_frame _ h
      have := (sentinelIndex_lt hj).1
      rw [bitsBelow_length] at hl
      refine .inr ⟨?_, ?_, ys, ho, by omega⟩
      · rw [e]
      · rw [e]; simp [hu]
  · next hu =>
    obtain ⟨e, ys, ho, hl⟩ := decodeBits_frame _ h
    rw [byteBits, bitsBelow_length] at hl
    refine .inr ⟨?_, ?_, ys, ho, hl⟩
    · rw [e]
    · rw [e]; simp [hu]

theorem closeSession_cases (c : Word) (s : State) :
    (s.uphase = uFirst ∧ closeSession c s = raise .malformedStream c s) ∨
      (s.uphase ≠ uFirst ∧ s.cursor ≠ s.root ∧ closeSession c s = raise .malformedStream c s) ∨
      (s.uphase ≠ uFirst ∧ s.cursor = s.root ∧ closeSession c s = { s with uphase := uIdle }) := by
  unfold closeSession
  by_cases h1 : s.uphase = uFirst
  · exact .inl ⟨h1, by rw [if_pos h1]⟩
  · by_cases h2 : s.cursor = s.root
    · exact .inr (.inr ⟨h1, h2, by rw [if_neg h1, if_neg (not_not_intro h2)]⟩)
    · exact .inr (.inl ⟨h1, h2, by rw [if_neg h1, if_pos h2]⟩)

end Sys2Proof.Machine
end

