-- ==== Sys2Proof/Laws/Effects.lean ====
section
/-!
SUPPORT. Everything `exec` can do when it answers a next state, once for all commands: the command is ignored, it raises one of its errors,
or it has its effect.
-/

namespace Sys2Proof.Machine

/-- The errors a command may raise (60_exceptions.md R221). -/
def mayRaise (i : Instr) (e : ErrorCode) : Prop :=
  match i with
  | .nop => False
  | .clr => False
  | .rdcsr _ => e = .illegalCommand ∧ i.wf = false
  | .rdnode _ => e = .illegalCommand ∧ i.wf = false
  | .rdwt _ => e = .illegalCommand ∧ i.wf = false
  | .rdlen _ => False
  | .rdcode _ _ => False
  | .sym _ => e = .sequence ∨ e = .countOverflow
  | .addf _ _ => e = .sequence ∨ e = .countOverflow
  | .fin => e = .sequence ∨ e = .emptyInput
  | .build => e = .sequence
  | .table => e = .sequence
  | .enc _ => e = .sequence ∨ e = .unsetCode ∨ e = .bufferOverflow
  | .pbit _ => e = .sequence ∨ e = .invalidBit ∨ e = .bufferOverflow
  | .pack => e = .sequence
  | .dbeg => e = .sequence
  | .ubyte _ => e = .sequence ∨ e = .malformedStream
  | .dend => e = .sequence ∨ e = .malformedStream

/-- The effect of a command that raises nothing: the fields it writes and what decides them. -/
def Effect (i : Instr) (s t : State) : Prop :=
  match i with
  | .nop => t = s
  | .clr => t = clearAll s
  | .rdcsr k => t = emitR (s.csr k) s
  | .rdnode j => t = emitR (nodeWord (nodeAt s j)) s
  | .rdwt j => t = emitR (nodeAt s j).weight s
  | .rdlen x => t = emitR (lengthWord (codeAt s x)) s
  | .rdcode x k => t = emitR (codeChunk (codeAt s x).bits k) s
  | .sym x => s.err = 0 ∧ s.phase = pAnalyse ∧ s.total.toNat + 1 ≤ 2 ^ 32 - 1 ∧
      t = { setFreq x (freqAt s x + 1) s with total := s.total + 1 }
  | .addf x n => s.err = 0 ∧ s.phase = pAnalyse ∧ s.total.toNat + n.toNat ≤ 2 ^ 32 - 1 ∧
      t = { setFreq x (freqAt s x + countOperand n) s with total := s.total + countOperand n }
  | .fin => s.err = 0 ∧ s.phase = pAnalyse ∧ recordSet s ≠ [] ∧
      t = { s with node := (seedLeaves 0 (sortedList s) s).node, nleaf := BitVec.ofNat 8 (sortedList s).length, phase := pSorted }
  | .build => s.err = 0 ∧ s.phase = pSorted ∧ buildTree s = .ok t
  | .table => s.err = 0 ∧ s.phase = pTree ∧ buildTable s = .ok t
  | .enc x => s.err = 0 ∧ s.phase = pReady ∧ (codeAt s x).valid = true ∧
      s.bitbuf.length + (codeAt s x).sequence.length ≤ Config.bitbufCap ∧ t = { s with bitbuf := s.bitbuf ++ (codeAt s x).sequence }
  | .pbit v => s.err = 0 ∧ v ≤ 1 ∧ s.bitbuf.length + 1 ≤ Config.bitbufCap ∧ t = { s with bitbuf := s.bitbuf ++ [v.getLsbD 0] }
  | .pack => s.err = 0 ∧ t = packAll s
  | .dbeg => s.err = 0 ∧ pTree ≤ s.phase ∧ s.uphase = uIdle ∧ t = openSession s
  | .ubyte b => s.err = 0 ∧ s.uphase ≠ uIdle ∧
      ((s.uphase = uFirst ∧ ∃ j, sentinelIndex b = some j ∧ decodeBits (bitsBelow b j) { s with uphase := uPayload } = .ok t) ∨
        (s.uphase ≠ uFirst ∧ decodeBits (byteBits b) s = .ok t))
  | .dend => s.err = 0 ∧ s.uphase ≠ uIdle ∧ s.uphase ≠ uFirst ∧ s.cursor = s.root ∧ t = { s with uphase := uIdle }

/-- Everything a command can do when it answers a next state. -/
inductive Outcomes (i : Instr) (s t : State) : Prop where
  /-- The block is faulted and the command is no service command, or the term stands for an illegal word. -/
  | ignored (faulted : s.err ≠ 0) (why : isService i = false ∨ i.wf = false) (same : t = s)
  /-- The command raises an error. -/
  | raised (e : ErrorCode) (clean : s.err = 0) (may : mayRaise i e) (entry : t = raise e (encode i) s)
  /-- The command has its effect. -/
  | effect (h : Effect i s t)

theorem outcomes_of_work {i : Instr} {body : State → Result} {s t : State} (hi : isService i = false)
    (hm : mayRaise i .sequence) (h : work i body s = .next t)
    (hb : s.err = 0 → legal i s = true → body s = .next t → Outcomes i s t) : Outcomes i s t := by
  rcases work_next h with ⟨he, rfl⟩ | ⟨he, hl, h⟩ | ⟨he, _, rfl⟩
  · exact .ignored he (.inl hi) rfl
  · exact hb he hl h
  · exact .raised _ he hm rfl

theorem outcomes_of_service {i : Instr} {body : State → State} {s t : State}
    (hm : i.wf = false → mayRaise i .illegalCommand) (h : service i body s = .next t) (he : Effect i s (body s)) :
    Outcomes i s t := by
  rcases service_next h with ⟨_, rfl⟩ | ⟨hw, rfl⟩
  · exact .effect he
  · rcases illegal_cases (encode i) s with ⟨h1, h2⟩ | ⟨h1, h2⟩
    · exact .ignored h1 (.inr hw) h2
    · exact .raised _ h1 (hm hw) h2

theorem countOperand_toNat (n : BitVec 16) : (countOperand n).toNat = n.toNat := by
  have := n.isLt
  simp only [countOperand, BitVec.toNat_setWidth]
  omega

/-- The one inversion lemma of `exec`. -/
theorem exec_outcomes {i : Instr} {s t : State} (h : exec i s = .next t) : Outcomes i s t := by
  cases i with
  | nop => exact outcomes_of_service (fun h => by cases h) h rfl
  | clr => exact outcomes_of_service (fun h => by cases h) h rfl
  | rdcsr k => exact outcomes_of_service (fun h => ⟨rfl, h⟩) h rfl
  | rdnode j => exact outcomes_of_service (fun h => ⟨rfl, h⟩) h rfl
  | rdwt j => exact outcomes_of_service (fun h => ⟨rfl, h⟩) h rfl
  | rdlen x => exact outcomes_of_service (fun h => by cases h) h rfl
  | rdcode x k => exact outcomes_of_service (fun h => by cases h) h rfl
  | sym x =>
    rw [exec_sym] at h
    refine outcomes_of_work rfl (.inl rfl) h fun he hl hb => ?_
    cases hb
    rcases addCount_cases (encode (.sym x)) x 1 s with ⟨_, h2⟩ | ⟨h1, h2⟩
    · exact .raised _ he (.inr rfl) h2
    · exact .effect ⟨he, of_decide_eq_true hl, h1, h2⟩
  | addf x n =>
    rw [exec_addf] at h
    refine outcomes_of_work rfl (.inl rfl) h fun he hl hb => ?_
    cases hb
    rcases addCount_cases (encode (.addf x n)) x (countOperand n) s with ⟨_, h2⟩ | ⟨h1, h2⟩
    · exact .raised _ he (.inr rfl) h2
    · rw [countOperand_toNat] at h1
      exact .effect ⟨he, of_decide_eq_true hl, h1, h2⟩
  | fin =>
    rw [exec_fin] at h
    refine outcomes_of_work rfl (.inl rfl) h fun he hl hb => ?_
    cases hb
    rcases finish_cases (encode .fin) s with ⟨_, h2⟩ | ⟨h1, h2⟩
    · exact .raised _ he (.inr rfl) h2
    · exact .effect ⟨he, of_decide_eq_true hl, h1, h2⟩
  | build =>
    rw [exec_build] at h
    refine outcomes_of_work rfl rfl h fun he hl hb => ?_
    exact .effect ⟨he, of_decide_eq_true hl, outcomeOf_next.mp hb⟩
  | table =>
    rw [exec_table] at h
    refine outcomes_of_work rfl rfl h fun he hl hb => ?_
    exact .effect ⟨he, of_decide_eq_true hl, outcomeOf_next.mp hb⟩
  | enc x =>
    rw [exec_enc] at h
    refine outcomes_of_work rfl (.inl rfl) h fun he hl hb => ?_
    cases hb
    unfold encodeSymbol
    split
    · next hv =>
      rcases appendBits_cases Config.bitbufCap (encode (.enc x)) (codeAt s x).sequence s with ⟨_, h2⟩ | ⟨h1, h2⟩
      · exact .raised _ he (.inr (.inr rfl)) h2
      · exact .effect ⟨he, of_decide_eq_true hl, hv, h1, h2⟩
    · exact .raised _ he (.inr (.inl rfl)) rfl
  | pbit v =>
    rw [exec_pbit] at h
    refine outcomes_of_work rfl (.inl rfl) h fun he hl hb => ?_
    cases hb
    unfold appendRawBit
    split
    · exact .raised _ he (.inr (.inl rfl)) rfl
    · next hv =>
      rcases appendBits_cases Config.bitbufCap (encode (.pbit v)) [v.getLsbD 0] s with ⟨_, h2⟩ | ⟨h1, h2⟩
      · exact .raised _ he (.inr (.inr rfl)) h2
      · exact .effect ⟨he, by rw [BitVec.le_def]; rw [gt_iff_lt, BitVec.lt_def] at hv; omega, h1, h2⟩
  | pack =>
    rw [exec_pack] at h
    refine outcomes_of_work rfl rfl h fun he hl hb => ?_
    cases hb
    exact .effect ⟨he, rfl⟩
  | dbeg =>
    rw [exec_dbeg] at h
    refine outcomes_of_work rfl rfl h fun he hl hb => ?_
    cases hb
    simp only [legal, Bool.and_eq_true, decide_eq_true_eq] at hl
    exact .effect ⟨he, hl.1, hl.2, rfl⟩
  | ubyte b =>
    rw [exec_ubyte] at h
    refine outcomes_of_work rfl (.inl rfl) h fun he hl hb => ?_
    have hb := outcomeOf_next.mp hb
    have hl : s.uphase ≠ uIdle := of_decide_eq_true hl
    unfold unpackByte at hb
    split at hb
    · next hu =>
      split at hb
      · cases hb; exact .raised _ he (.inr rfl) rfl
      · next j hj => exact .effect ⟨he, hl, .inl ⟨hu, j, hj, hb⟩⟩
    · next hu => exact .effect ⟨he, hl, .inr ⟨hu, hb⟩⟩
  | dend =>
    rw [exec_dend] at h
    refine outcomes_of_work rfl (.inl rfl) h fun he hl hb => ?_
    cases hb
    have hl : s.uphase ≠ uIdle := of_decide_eq_true hl
    rcases closeSession_cases (encode .dend) s with ⟨_, h2⟩ | ⟨_, _, h2⟩ | ⟨h1, h2, h3⟩
    · exact .raised _ he (.inr rfl) h2
    · exact .raised _ he (.inr rfl) h2
    · exact .effect ⟨he, hl, h1, h2, h3⟩

end Sys2Proof.Machine
end

