-- ==== Sys2Proof/Laws/CodeTable.lean ====
section
/-!
SUPPORT. Paths in a strict tree, the depth-first traversal of TABLE (42_codetable.md R141, R142), and the code entry of a bit sequence
(42_codetable.md R143, R144).
-/

namespace Sys2Proof.Machine

/-! ## Paths (R141) -/

theorem followPath_nil (s : State) (i : NodeIdx) : followPath s i [] = some i := rfl

/-- One edge down from an internal entry. -/
theorem followPath_cons {s : State} {i : NodeIdx} {b : Bool} {p : List Bool} (h1 : i ≠ 255#8) (h2 : (nodeAt s i).leaf = false) :
    followPath s i (b :: p) = followPath s (if b then (nodeAt s i).right else (nodeAt s i).left) p := by
  rw [followPath, if_neg (by simp [h1, h2])]

/-- A path that has an edge starts at an internal entry. -/
theorem followPath_cons_some {s : State} {i j : NodeIdx} {b : Bool} {p : List Bool} (h : followPath s i (b :: p) = some j) :
    i ≠ 255#8 ∧ (nodeAt s i).leaf = false ∧ followPath s (if b then (nodeAt s i).right else (nodeAt s i).left) p = some j := by
  rw [followPath] at h
  by_cases hc : i = 255#8 ∨ (nodeAt s i).leaf = true
  · rw [if_pos hc] at h; cases h
  · rw [if_neg hc] at h
    exact ⟨fun e => hc (.inl e), by simpa using fun e => hc (.inr e), h⟩

/-- A path is walked in two parts. -/
theorem followPath_append {s : State} (p q : List Bool) : ∀ {i j : NodeIdx},
    followPath s i (p ++ q) = some j ↔ ∃ k, followPath s i p = some k ∧ followPath s k q = some j := by
  induction p with
  | nil => intro i j; simp [followPath]
  | cons b p ih =>
    intro i j
    constructor
    · intro h
      obtain ⟨h1, h2, h3⟩ := followPath_cons_some h
      obtain ⟨k, h4, h5⟩ := ih.mp h3
      exact ⟨k, by rw [followPath_cons h1 h2]; exact h4, h5⟩
    · rintro ⟨k, h4, h5⟩
      obtain ⟨h1, h2, h3⟩ := followPath_cons_some h4
      rw [List.cons_append, followPath_cons h1 h2]
      exact ih.mpr ⟨k, h3, h5⟩

/-- A path depends on the field `node` alone. -/
theorem followPath_congr {s t : State} (h : t.node = s.node) (p : List Bool) : ∀ i, followPath t i p = followPath s i p := by
  induction p with
  | nil => intro i; rfl
  | cons b p ih => intro i; simp only [followPath, nodeAt_congr h, ih]

/-! ## Strict trees (10_state.md R46 item 4) -/

variable {s : State}

theorem TreeShape.root_lt (T : TreeShape s) : s.root.toNat < 255 := by
  have h1 := T.leafCount
  have h2 := T.rootIndex
  omega

/-- An index up to the root below NLEAF is a leaf, and above it internal. -/
theorem TreeShape.leaf_iff (T : TreeShape s) {i : NodeIdx} (hi : i.toNat ≤ s.root.toNat) :
    (nodeAt s i).leaf = true ↔ i.toNat < s.nleaf.toNat := by
  have h2 := T.rootIndex
  constructor
  · intro h
    by_contra hn
    have := (T.internal i.toNat (by omega) (by omega)).1
    rw [nodeAt_eq, this] at h; cases h
  · intro h; exact T.leaves _ h

/-- The children of an internal entry have lower indices. -/
theorem TreeShape.children (T : TreeShape s) {i : NodeIdx} (h1 : s.nleaf.toNat ≤ i.toNat) (h2 : i.toNat ≤ s.root.toNat) :
    (nodeAt s i).leaf = false ∧ (nodeAt s i).left.toNat < i.toNat ∧ (nodeAt s i).right.toNat < i.toNat := by
  have h3 := T.rootIndex
  obtain ⟨a, b, c, _⟩ := T.internal i.toNat h1 (by omega)
  exact ⟨a, b, c⟩

/-- Every entry up to the root is reached from the root. -/
theorem TreeShape.reached (T : TreeShape s) : ∀ (k : Nat) (j : NodeIdx), j.toNat + k = s.root.toNat →
    ∃ p, followPath s s.root p = some j := by
  intro k
  induction k using Nat.strong_induction_on with
  | _ k ih =>
    intro j hj
    by_cases hk : k = 0
    · have : j = s.root := BitVec.eq_of_toNat_eq (by omega)
      exact ⟨[], by rw [this]; rfl⟩
    · have hr := T.rootIndex
      have hl := T.leafCount
      obtain ⟨i, h1, h2, hc⟩ := T.parent j.toNat (by omega)
      obtain ⟨g1, g2, g3, _⟩ := T.internal i h1 h2
      have hi : (BitVec.ofNat 8 i).toNat = i := by rw [BitVec.toNat_ofNat]; omega
      have hji : j.toNat < i := by rcases hc with hc | hc <;> omega
      obtain ⟨p, hp⟩ := ih (s.root.toNat - i) (by omega) (BitVec.ofNat 8 i) (by omega)
      have ne : BitVec.ofNat 8 i ≠ 255#8 := fun e => by have := congrArg BitVec.toNat e; rw [hi] at this; simp at this; omega
      have nl : (nodeAt s (BitVec.ofNat 8 i)).leaf = false := by rw [nodeAt_eq, hi]; exact g1
      rcases hc with hc | hc
      · refine ⟨p ++ [false], (followPath_append p [false]).mpr ⟨_, hp, ?_⟩⟩
        rw [followPath_cons ne nl, followPath_nil, nodeAt_eq, hi]
        exact congrArg some (BitVec.eq_of_toNat_eq hc)
      · refine ⟨p ++ [true], (followPath_append p [true]).mpr ⟨_, hp, ?_⟩⟩
        rw [followPath_cons ne nl, followPath_nil, nodeAt_eq, hi]
        exact congrArg some (BitVec.eq_of_toNat_eq hc)

/-- A tree depends on `node`, NLEAF and ROOT alone. -/
theorem TreeShape.congr {s t : State} (h1 : t.node = s.node) (h2 : t.nleaf = s.nleaf) (h3 : t.root = s.root) (T : TreeShape s) :
    TreeShape t := by
  obtain ⟨a, b, c, d, e, f⟩ := T
  have E : ∀ i, nodeEntry t i = nodeEntry s i := nodeEntry_congr h1
  constructor <;> simp only [isChild, h2, h3, E] <;> assumption

/-! ## The traversal (R142) -/

/-- A bound on the number of entries on a path down from `i`. -/
def height (s : State) (i : Nat) : Nat := if i < s.nleaf.toNat then 1 else i - s.nleaf.toNat + 2

theorem height_pos (s : State) (i : Nat) : 1 ≤ height s i := by unfold height; split <;> omega

/-- A child's bound is less than its parent's. -/
theorem height_child {i c : Nat} (h1 : s.nleaf.toNat ≤ i) (h2 : c < i) : height s c + 1 ≤ height s i := by
  unfold height; split <;> split <;> omega

/-- In the code memory `c`, the symbol's entry is the one of a path through `i` to a leaf of the symbol. -/
def Written (s : State) (i : NodeIdx) (p : List Bool) (c : Memory CodeEntry) (x : Symbol) : Prop :=
  ∃ q j, followPath s i q = some j ∧ j.toNat < s.nleaf.toNat ∧ (nodeAt s j).sym = x ∧ q.length + 1 ≤ height s i.toNat ∧
    Memory.read .unset c x.toNat = entryOf (p ++ q)

/-- What one edge more makes of it. -/
theorem Written.up {i : NodeIdx} {b : Bool} {p : List Bool} {c : Memory CodeEntry} {x : Symbol} (h1 : i ≠ 255#8)
    (h2 : (nodeAt s i).leaf = false)
    (hh : height s (if b then (nodeAt s i).right else (nodeAt s i).left).toNat + 1 ≤ height s i.toNat)
    (w : Written s (if b then (nodeAt s i).right else (nodeAt s i).left) (p ++ [b]) c x) : Written s i p c x := by
  obtain ⟨q, j, g1, g2, g3, g4, g5⟩ := w
  refine ⟨b :: q, j, by rw [followPath_cons h1 h2]; exact g1, g2, g3, by simp only [List.length_cons]; omega, ?_⟩
  rw [g5, List.append_assoc]; rfl

/-- The traversal of a subtree of a strict tree completes; it writes an entry for every leaf below and leaves every other entry. -/
theorem walk_spec (T : TreeShape s) : ∀ (n : Nat) (i : NodeIdx) (d : Nat) (p : List Bool) (code : Memory CodeEntry),
    i.toNat = n → i.toNat ≤ s.root.toNat → height s i.toNat ≤ d →
    ∃ c, walk s d i p code = .ok c ∧
      (∀ x : Symbol, Memory.read .unset c x.toNat = Memory.read .unset code x.toNat ∨ Written s i p c x) ∧
      ∀ q j, followPath s i q = some j → j.toNat < s.nleaf.toNat → Written s i p c (nodeAt s j).sym := by
  intro n
  induction n using Nat.strong_induction_on with
  | _ n ih =>
    intro i d p code hin hr hd
    have ne : i ≠ 255#8 := fun e => by have := T.root_lt; rw [e] at hr; simp at hr; omega
    obtain ⟨d, rfl⟩ : ∃ d', d = d' + 1 := ⟨d - 1, by have := height_pos s i.toNat; omega⟩
    unfold walk
    rw [readNode_eq ne, ok_bind]
    by_cases hl : i.toNat < s.nleaf.toNat
    · have hleaf := (T.leaf_iff hr).mpr hl
      have hw : Written s i p (Memory.write .unset code (nodeAt s i).sym.toNat (entryOf p)) (nodeAt s i).sym :=
        ⟨[], i, rfl, hl, rfl, height_pos s _, by rw [Memory.read_write_same, List.append_nil]⟩
      rw [if_pos hleaf]
      refine ⟨_, rfl, fun x => ?_, fun q j hq hj => ?_⟩
      · by_cases hx : x.toNat = (nodeAt s i).sym.toNat
        · rw [BitVec.eq_of_toNat_eq hx]; exact .inr hw
        · exact .inl (Memory.read_write_other _ _ _ hx)
      · cases q with
        | nil => cases hq; exact hw
        | cons b q => rw [(followPath_cons_some hq).2.1] at hleaf; cases hleaf
    · obtain ⟨hi, cl, cr⟩ := T.children (i := i) (by omega) hr
      have hh1 := height_child (s := s) (i := i.toNat) (by omega) cl
      have hh2 := height_child (s := s) (i := i.toNat) (by omega) cr
      rw [if_neg (by rw [hi]; decide)]
      obtain ⟨c1, e1, a1, b1⟩ := ih _ (by omega) (nodeAt s i).left d (p ++ [false]) code rfl (by omega) (by omega)
      obtain ⟨c2, e2, a2, b2⟩ := ih _ (by omega) (nodeAt s i).right d (p ++ [true]) c1 rfl (by omega) (by omega)
      rw [e1, ok_bind]
      have upL : ∀ c x, Written s (nodeAt s i).left (p ++ [false]) c x → Written s i p c x := fun c x w =>
        Written.up (b := false) ne hi hh1 w
      have upR : ∀ c x, Written s (nodeAt s i).right (p ++ [true]) c x → Written s i p c x := fun c x w =>
        Written.up (b := true) ne hi hh2 w
      have later : ∀ x, Written s (nodeAt s i).left (p ++ [false]) c1 x → Written s i p c2 x := fun x w => by
        rcases a2 x with h | h
        · obtain ⟨q, j, g1, g2, g3, g4, g5⟩ := w
          exact upL c2 x ⟨q, j, g1, g2, g3, g4, h.trans g5⟩
        · exact upR c2 x h
      refine ⟨c2, e2, fun x => ?_, fun q j hq hj => ?_⟩
      · rcases a2 x with h | h
        · rcases a1 x with h' | h'
          · exact .inl (h.trans h')
          · exact .inr (later x h')
        · exact .inr (upR c2 x h)
      · cases q with
        | nil => cases hq; omega
        | cons b q =>
          obtain ⟨_, _, hq⟩ := followPath_cons_some hq
          cases b
          · exact later _ (b1 q j hq hj)
          · exact upR c2 _ (b2 q j hq hj)

/-- In the code memory `c`, the symbol's entry is the one of a path from the root to a leaf of the symbol. -/
def PathEntry (s : State) (c : Memory CodeEntry) (x : Symbol) : Prop :=
  ∃ q j, q ≠ [] ∧ followPath s s.root q = some j ∧ j.toNat < s.nleaf.toNat ∧ (nodeAt s j).sym = x ∧ q.length ≤ s.nleaf.toNat - 1 ∧
    Memory.read .unset c x.toNat = entryOf q

/-- TABLE completes on a strict tree, and writes the path entries of the leaves and nothing else. -/
theorem buildTable_spec (T : TreeShape s) : ∃ c, buildTable s = .ok { s with code := c, phase := pReady } ∧
    (∀ x : Symbol, Memory.read .unset c x.toNat = codeAt s x ∨ PathEntry s c x) ∧
    ∀ i, i < s.nleaf.toNat → PathEntry s c (nodeEntry s i).sym := by
  have hr := T.rootIndex
  have hl := T.leafCount
  have hlt := T.root_lt
  have ne : s.root ≠ 255#8 := fun e => by rw [e] at hlt; simp at hlt
  obtain ⟨hi, cl, cr⟩ := T.children (i := s.root) (by omega) (le_refl _)
  have hgt : ∀ c : Nat, c < s.root.toNat → height s c ≤ s.nleaf.toNat - 1 := by
    intro c hc; unfold height; split <;> omega
  obtain ⟨c1, e1, a1, b1⟩ := walk_spec T _ (nodeAt s s.root).left 127 [false] s.code rfl (by omega) (by have := hgt _ cl; omega)
  obtain ⟨c2, e2, a2, b2⟩ := walk_spec T _ (nodeAt s s.root).right 127 [true] c1 rfl (by omega) (by have := hgt _ cr; omega)
  have big : ∀ b : Bool, ∀ c x, Written s (if b then (nodeAt s s.root).right else (nodeAt s s.root).left) [b] c x →
     PathEntry s c x := by
    rintro b c x ⟨q, j, g1, g2, g3, g4, g5⟩
    refine ⟨b :: q, j, by simp, by rw [followPath_cons ne hi]; exact g1, g2, g3, ?_, g5⟩
    have : height s (if b then (nodeAt s s.root).right else (nodeAt s s.root).left).toNat ≤ s.nleaf.toNat - 1 := by
      cases b
      · exact hgt _ cl
      · exact hgt _ cr
    simp only [List.length_cons]; omega
  have later : ∀ x, Written s (nodeAt s s.root).left [false] c1 x →
     PathEntry s c2 x := fun x w => by
    rcases a2 x with h | h
    · obtain ⟨q, j, g1, g2, g3, g4, g5⟩ := w
      exact big false c2 x ⟨q, j, g1, g2, g3, g4, h.trans g5⟩
    · exact big true c2 x h
  refine ⟨c2, buildTable_ok.mpr ⟨ne, c1, c2, e1, e2, rfl⟩, fun x => ?_, fun i hi' => ?_⟩
  · rcases a2 x with h | h
    · rcases a1 x with h' | h'
      · exact .inl (h.trans h')
      · exact .inr (later x h')
    · exact .inr (big true c2 x h)
  · have hn : (BitVec.ofNat 8 i).toNat = i := by rw [BitVec.toNat_ofNat]; omega
    obtain ⟨p, hp⟩ := T.reached (s.root.toNat - i) (BitVec.ofNat 8 i) (by omega)
    have hsym : (nodeAt s (BitVec.ofNat 8 i)).sym = (nodeEntry s i).sym := by rw [nodeAt_eq, hn]
    cases p with
    | nil =>
      have : s.root = BitVec.ofNat 8 i := Option.some.inj hp
      have := congrArg BitVec.toNat this
      omega
    | cons b p =>
      obtain ⟨_, _, hq⟩ := followPath_cons_some hp
      rw [← hsym]
      cases b
      · exact later _ (b1 p _ hq (by omega))
      · exact big true c2 _ (b2 p _ hq (by omega))

/-! ## The entry of a bit sequence (R143) -/

/-- A left-aligned sequence: its bits from the top, and 0 below them. -/
theorem leftAlign_getMsbD (p : List Bool) : ∀ j, j < 127 → (leftAlign p).getMsbD j = p[j]?.getD false := by
  induction p with
  | nil => intro j _; simp [leftAlign]
  | cons b p ih =>
    intro j hj
    unfold leftAlign
    rw [BitVec.getMsbD_or, BitVec.getMsbD_append, BitVec.getMsbD_ushiftRight]
    cases j with
    | zero => simp
    | succ j =>
      rw [Nat.add_sub_cancel, ih j (by omega)]
      simp [hj]

end Sys2Proof.Machine
end

