-- ==== Sys2Proof/Laws/Decoder.lean ====
section
/-!
SUPPORT. The decoder on a strict tree: from an internal entry every bit completes and leaves the cursor on an internal entry
(44_unpacker_decoder.md R184).
-/

namespace Sys2Proof.Machine

/-- One bit. -/
theorem decodeBit_internal {s : State} (T : TreeShape s) (h1 : s.nleaf.toNat ≤ s.cursor.toNat) (h2 : s.cursor.toNat ≤ s.root.toNat) (x : Bool) :
  ∃ t, decodeBit x s = .ok t ∧ s.nleaf.toNat ≤ t.cursor.toNat ∧ t.cursor.toNat ≤ s.root.toNat := by
  have hr := T.rootIndex
  have hl := T.leafCount
  have hlt := T.root_lt
  obtain ⟨_, cl, cr⟩ := T.children h1 h2
  obtain ⟨c, hcd⟩ : ∃ c, c = (if x then (nodeAt s s.cursor).right else (nodeAt s s.cursor).left) := ⟨_, rfl⟩
  have hc : c.toNat < s.cursor.toNat := by
    rw [hcd]
    cases x
    · exact cl
    · exact cr
  have ne : ∀ i : NodeIdx, i.toNat ≤ s.root.toNat → i ≠ 255#8 := fun i hi e => by rw [e] at hi; simp at hi; omega
  refine ⟨_, decodeBit_ok.mpr ⟨ne _ h2, c, hcd, ne _ (by omega), rfl⟩, ?_⟩
  by_cases h : (nodeAt s c).leaf = true
  · rw [if_pos h]
    show s.nleaf.toNat ≤ s.root.toNat ∧ s.root.toNat ≤ s.root.toNat; omega
  · rw [if_neg h]
    have := mt (T.leaf_iff (i := c) (by omega)).mpr h
    show s.nleaf.toNat ≤ c.toNat ∧ c.toNat ≤ _
    omega

/-- Any bits. -/
theorem decodeBits_internal (xs : List Bool) : ∀ {s : State}, TreeShape s → s.nleaf.toNat ≤ s.cursor.toNat → s.cursor.toNat ≤ s.root.toNat →
  ∃ t, decodeBits xs s = .ok t ∧ s.nleaf.toNat ≤ t.cursor.toNat ∧ t.cursor.toNat ≤ s.root.toNat := by
  induction xs with
  | nil => intro s T h1 h2; exact ⟨s, rfl, h1, h2⟩
  | cons x xs ih =>
    intro s T h1 h2
    obtain ⟨u, hu, a, b⟩ := decodeBit_internal T h1 h2 x
    have fr := (decodeBit_frame hu).1
    have e1 : u.node = s.node := by rw [fr]
    have e2 : u.nleaf = s.nleaf := by rw [fr]
    have e3 : u.root = s.root := by rw [fr]
    obtain ⟨t, ht, c, d⟩ := ih (T.congr e1 e2 e3) (by rw [e2]; exact a) (by rw [e3]; exact b)
    rw [e2] at c; rw [e3] at d
    exact ⟨t, decodeBits_cons.mpr ⟨u, hu, ht⟩, c, d⟩

end Sys2Proof.Machine
end

