-- ==== Sys2Proof/Laws/Encoding.lean ====
section
/-!
SUPPORT. The fields of a word built from its parts, and a word as the sum of its fields (30_encoding.md R81).
-/

namespace Sys2Proof

@[simp] theorem fieldOpc_mkWord (o a : Byte) (b : BitVec 16) : fieldOpc (mkWord o a b) = o := by
  apply BitVec.eq_of_getLsbD_eq
  intro i hi
  simp only [fieldOpc, mkWord, BitVec.getLsbD_extractLsb', BitVec.getLsbD_append]
  have h1 : ¬ 24 + i < 16 := by omega
  have h2 : ¬ 24 + i - 16 < 8 := by omega
  have h3 : 24 + i - 16 - 8 = i := by omega
  simp [hi, h1, h2, h3]

@[simp] theorem fieldA_mkWord (o a : Byte) (b : BitVec 16) : fieldA (mkWord o a b) = a := by
  apply BitVec.eq_of_getLsbD_eq
  intro i hi
  simp only [fieldA, mkWord, BitVec.getLsbD_extractLsb', BitVec.getLsbD_append]
  have h1 : ¬ 16 + i < 16 := by omega
  have h2 : 16 + i - 16 = i := by omega
  simp [hi, h2]

@[simp] theorem fieldB_mkWord (o a : Byte) (b : BitVec 16) : fieldB (mkWord o a b) = b := by
  apply BitVec.eq_of_getLsbD_eq
  intro i hi
  simp only [fieldB, mkWord, BitVec.getLsbD_extractLsb', BitVec.getLsbD_append]
  simp [hi]

/-- A word is its three fields (R81). -/
theorem mkWord_fields (w : Word) : mkWord (fieldOpc w) (fieldA w) (fieldB w) = w := by
  apply BitVec.eq_of_getLsbD_eq
  intro i hi
  simp only [mkWord, fieldOpc, fieldA, fieldB, BitVec.getLsbD_append, BitVec.getLsbD_extractLsb']
  by_cases h1 : i < 16
  · simp [h1]
  · by_cases h2 : i - 16 < 8
    · have : 16 + (i - 16) = i := by omega
      simp [h1, h2, this]
    · have h3 : i - 16 - 8 < 8 := by omega
      have : 24 + (i - 16 - 8) = i := by omega
      simp [h1, h2, h3, this]

/-- Equal fields make equal words. -/
theorem mkWord_inj {o o' a a' : Byte} {b b' : BitVec 16} :
    mkWord o a b = mkWord o' a' b' ↔ o = o' ∧ a = a' ∧ b = b' := by
  constructor
  · intro h
    exact ⟨by simpa using congrArg fieldOpc h, by simpa using congrArg fieldA h, by simpa using congrArg fieldB h⟩
  · rintro ⟨rfl, rfl, rfl⟩; rfl

/-- Masking a word masks its fields. -/
theorem mkWord_and (o o' a a' : Byte) (b b' : BitVec 16) :
    mkWord o a b &&& mkWord o' a' b' = mkWord (o &&& o') (a &&& a') (b &&& b') := by
  apply BitVec.eq_of_getLsbD_eq
  intro i _
  simp only [mkWord, BitVec.getLsbD_and, BitVec.getLsbD_append]
  split
  · rfl
  · split <;> rfl

theorem fieldSymbol_eq (w : Word) : fieldSymbol w = (fieldA w).setWidth 7 := by
  apply BitVec.eq_of_getLsbD_eq
  intro i hi
  have : i < 8 := by omega
  simp [fieldSymbol, fieldA, hi, this]

theorem fieldChunk_eq (w : Word) : fieldChunk w = (fieldB w).setWidth 2 := by
  apply BitVec.eq_of_getLsbD_eq
  intro i hi
  have : i < 16 := by omega
  simp [fieldChunk, fieldB, hi, this]

theorem bit23_eq (w : Word) : w.getLsbD 23 = (fieldA w).getLsbD 7 := by
  simp [fieldA]

theorem highB_eq (w : Word) : w.extractLsb' 2 14 = (fieldB w).extractLsb' 2 14 := by
  apply BitVec.eq_of_getLsbD_eq
  intro i hi
  simp [fieldB, hi]

/-- A byte with bit 7 clear is its low seven bits. -/
theorem setWidth_symbol (a : Byte) (h : a.getLsbD 7 = false) : (a.setWidth 7).setWidth 8 = a := by
  apply BitVec.eq_of_getLsbD_eq
  intro i hi
  by_cases h7 : i = 7
  · subst h7; rw [h]; simp [BitVec.getLsbD_of_ge]
  · have : i < 7 := by omega
    simp [hi, this]

@[simp] theorem setWidth_setWidth_symbol (x : Symbol) : (x.setWidth 8).setWidth 7 = x := by
  apply BitVec.eq_of_getLsbD_eq
  intro i hi
  simp [hi]

theorem symbol_bit7 (x : Symbol) : (x.setWidth 8).getLsbD 7 = false := by
  simp [BitVec.getLsbD_of_ge]

/-- A 16-bit field with bits [15:2] clear is its low two bits. -/
theorem setWidth_chunk (b : BitVec 16) (h : b.extractLsb' 2 14 = 0) : (b.setWidth 2).setWidth 16 = b := by
  apply BitVec.eq_of_getLsbD_eq
  intro i hi
  by_cases h2 : i < 2
  · simp [hi, h2]
  · have hb := congrArg (fun v => v.getLsbD (i - 2)) h
    have e : 2 + (i - 2) = i := by omega
    have l : i - 2 < 14 := by omega
    simp only [BitVec.getLsbD_extractLsb', e, l] at hb
    simp [h2]
    simpa using hb.symm

@[simp] theorem setWidth_setWidth_chunk (k : BitVec 2) : (k.setWidth 16).setWidth 2 = k := by
  apply BitVec.eq_of_getLsbD_eq
  intro i hi
  simp [hi]

theorem chunk_high (k : BitVec 2) : (k.setWidth 16).extractLsb' 2 14 = 0 := by
  apply BitVec.eq_of_getLsbD_eq
  intro i hi
  simp only [BitVec.getLsbD_extractLsb', BitVec.getLsbD_setWidth]
  simp

/-! ## When each format accepts a word (R82) -/

variable {w : Word} {j : Instr}

theorem formatZ_ok {i : Instr} : formatZ w i = .ok j ↔ j = i ∧ fieldA w = 0 ∧ fieldB w = 0 := by
  unfold formatZ
  constructor
  · intro h
    split at h
    · next hc => cases h; exact ⟨rfl, hc⟩
    · cases h
  · rintro ⟨rfl, hc⟩; rw [if_pos hc]

theorem formatS_ok {f : Symbol → Instr} :
    formatS w f = .ok j ↔ ∃ x, j = f x ∧ fieldA w = x.setWidth 8 ∧ fieldB w = 0 := by
  unfold formatS
  rw [bit23_eq, fieldSymbol_eq]
  constructor
  · intro h
    split at h
    · next hc => cases h; exact ⟨_, rfl, (setWidth_symbol _ hc.1).symm, hc.2⟩
    · cases h
  · rintro ⟨x, rfl, ha, hb⟩
    rw [ha, hb, if_pos ⟨symbol_bit7 x, rfl⟩, setWidth_setWidth_symbol]

theorem formatSN_ok {f : Symbol → BitVec 16 → Instr} :
    formatSN w f = .ok j ↔ ∃ x, j = f x (fieldB w) ∧ fieldA w = x.setWidth 8 := by
  unfold formatSN
  rw [bit23_eq, fieldSymbol_eq]
  constructor
  · intro h
    split at h
    · next hc => cases h; exact ⟨_, rfl, (setWidth_symbol _ hc).symm⟩
    · cases h
  · rintro ⟨x, rfl, ha⟩
    rw [ha, if_pos (symbol_bit7 x), setWidth_setWidth_symbol]

theorem formatV_ok {f : Byte → Instr} : formatV w f = .ok j ↔ j = f (fieldA w) ∧ fieldB w = 0 := by
  unfold formatV
  constructor
  · intro h
    split at h
    · next hc => cases h; exact ⟨rfl, hc⟩
    · cases h
  · rintro ⟨rfl, hc⟩; rw [if_pos hc]

theorem formatX_ok {inRange : Byte → Bool} {e : Reject} {f : Byte → Instr} :
    formatX w inRange e f = .ok j ↔ j = f (fieldA w) ∧ inRange (fieldA w) = true ∧ fieldB w = 0 := by
  unfold formatX
  constructor
  · intro h
    split at h
    · next hb =>
      split at h
      · next hc => cases h; exact ⟨rfl, hc, hb⟩
      · cases h
    · cases h
  · rintro ⟨rfl, hc, hb⟩; rw [if_pos hb, if_pos hc]

theorem formatSK_ok {f : Symbol → BitVec 2 → Instr} :
    formatSK w f = .ok j ↔ ∃ x k, j = f x k ∧ fieldA w = x.setWidth 8 ∧ fieldB w = k.setWidth 16 := by
  unfold formatSK
  rw [bit23_eq, fieldSymbol_eq, highB_eq, fieldChunk_eq]
  constructor
  · intro h
    split at h
    · next hc => cases h; exact ⟨_, _, rfl, (setWidth_symbol _ hc.1).symm, (setWidth_chunk _ hc.2).symm⟩
    · cases h
  · rintro ⟨x, k, rfl, ha, hb⟩
    rw [ha, hb, if_pos ⟨symbol_bit7 x, chunk_high k⟩, setWidth_setWidth_symbol, setWidth_setWidth_chunk]

end Sys2Proof
end

