-- ==== Sys2Proof/Laws/Frequency.lean ====
section
/-!
SUPPORT. The frequency analyser: the sum of the counts, the record set, the sort, and the leaves that FIN stores
(40_frequency.md R100 to R107).
-/

namespace Sys2Proof.Machine

/-! ## Every symbol once, and sums over the symbols -/

theorem mem_allSymbols (x : Symbol) : x ∈ allSymbols := by
  simp only [allSymbols, List.mem_map, List.mem_range]
  exact ⟨x.toNat, x.isLt, by simp⟩

theorem allSymbols_nodup : allSymbols.Nodup := by
  refine List.Nodup.map_on (fun a ha b hb h => ?_) List.nodup_range
  have h := congrArg BitVec.toNat h
  simp only [List.mem_range] at ha hb
  simpa [Nat.mod_eq_of_lt ha, Nat.mod_eq_of_lt hb] using h

theorem allSymbols_length : allSymbols.length = 128 := by simp [allSymbols]

/-- Changing one term of a sum over distinct indices changes the sum by that term. -/
theorem sum_change {f g : Symbol → Nat} {x : Symbol} (hg : ∀ y, y ≠ x → g y = f y) (l : List Symbol) (hl : l.Nodup) (hx : x ∈ l) :
    (l.map g).sum + f x = (l.map f).sum + g x := by
  induction l with
  | nil => cases hx
  | cons a l ih =>
    simp only [List.map_cons, List.sum_cons]
    obtain ⟨ha, hl⟩ := List.nodup_cons.mp hl
    rcases List.mem_cons.mp hx with rfl | hx
    · have : l.map g = l.map f := List.map_congr_left fun y hy => hg y fun h => ha (h ▸ hy)
      rw [this]; omega
    · have h1 := ih hl hx
      have h2 := hg a fun h => ha (h ▸ hx)
      omega

/-- One changed count changes the sum of the counts. -/
theorem countSum_change {s t : State} {x : Symbol} (h : ∀ y, y ≠ x → freqAt t y = freqAt s y) :
    countSum t + (freqAt s x).toNat = countSum s + (freqAt t x).toNat :=
  sum_change (f := fun y => (freqAt s y).toNat) (g := fun y => (freqAt t y).toNat) (fun y hy => by rw [h y hy]) allSymbols allSymbols_nodup
    (mem_allSymbols x)

theorem le_countSum (s : State) (x : Symbol) : (freqAt s x).toNat ≤ countSum s :=
  List.single_le_sum (fun _ _ => Nat.zero_le _) _ (List.mem_map.mpr ⟨x, mem_allSymbols x, rfl⟩)

theorem countSum_congr {s t : State} (h : t.freq = s.freq) : countSum t = countSum s := by
  simp only [countSum, freqAt, h]

/-- One count written. -/
theorem countSum_setFreq (x : Symbol) (v : Word) (s : State) :
    countSum (setFreq x v s) + (freqAt s x).toNat = countSum s + v.toNat := by
  rw [countSum_change (s := s) (t := setFreq x v s) (x := x) fun y hy => (freqAt_setFreq x y v s).trans (if_neg hy), freqAt_setFreq, if_pos rfl]

/-- The sum is zero exactly when every count is. -/
theorem countSum_eq_zero (s : State) : countSum s = 0 ↔ ∀ x, freqAt s x = 0 := by
  constructor
  · intro h x
    have := le_countSum s x
    exact BitVec.eq_of_toNat_eq (by simp; omega)
  · intro h
    simp [countSum, h]

/-! ## The record set (R103) -/

theorem recordOf_some {s : State} {x : Symbol} {r : Record} :
    recordOf s x = some r ↔ freqAt s x ≠ 0 ∧ r = ⟨x, freqAt s x⟩ := by
  unfold recordOf
  split
  · next h => simp [h]
  · next h => exact ⟨fun e => ⟨h, (Option.some.inj e).symm⟩, fun e => by rw [e.2]⟩

/-- The records are the symbols counted, each with its count. -/
theorem mem_recordSet {s : State} {r : Record} : r ∈ recordSet s ↔ freqAt s r.sym ≠ 0 ∧ r.weight = freqAt s r.sym := by
  simp only [recordSet, List.mem_filterMap, recordOf_some]
  constructor
  · rintro ⟨x, _, h, rfl⟩; exact ⟨h, rfl⟩
  · rintro ⟨h, hw⟩; exact ⟨r.sym, mem_allSymbols _, h, by cases r; simp_all⟩

/-- The records have different symbols. -/
theorem recordSet_pairwise (s : State) : (recordSet s).Pairwise fun a b => a.sym ≠ b.sym := by
  refine List.Pairwise.filterMap (R := fun a b : Symbol => a ≠ b) _ (fun a b hab r hr q hq => ?_) allSymbols_nodup
  rw [recordOf_some] at hr hq
  rw [hr.2, hq.2]; exact hab

theorem recordSet_length (s : State) : (recordSet s).length ≤ 128 := by
  rw [← allSymbols_length]; exact List.length_filterMap_le _ _

/-- There is no record exactly when no symbol was counted. -/
theorem recordSet_nil {s : State} : recordSet s = [] ↔ ∀ x, freqAt s x = 0 := by
  constructor
  · intro h x
    by_contra hx
    have : (⟨x, freqAt s x⟩ : Record) ∈ recordSet s := mem_recordSet.mpr ⟨hx, rfl⟩
    rw [h] at this; cases this
  · intro h
    refine List.eq_nil_iff_forall_not_mem.mpr fun r hr => (mem_recordSet.mp hr).1 (h _)

/-- The only symbol counted gives the only record. -/
theorem recordSet_single {s : State} {x : Symbol} (hx : freqAt s x ≠ 0) (h : ∀ y, y ≠ x → freqAt s y = 0) :
    recordSet s = [⟨x, freqAt s x⟩] := by
  have hall : ∀ r ∈ recordSet s, r = ⟨x, freqAt s x⟩ := by
    intro r hr
    obtain ⟨h1, h2⟩ := mem_recordSet.mp hr
    have : r.sym = x := by by_contra hne; exact h1 (h _ hne)
    cases r; simp_all
  have hm : (⟨x, freqAt s x⟩ : Record) ∈ recordSet s := mem_recordSet.mpr ⟨hx, rfl⟩
  have hp := recordSet_pairwise s
  rcases hr : recordSet s with _ | ⟨a, _ | ⟨b, l⟩⟩
  · rw [hr] at hm; cases hm
  · rw [hr] at hall; rw [hall a (by simp)]
  · rw [hr] at hall hp
    exfalso
    exact (List.pairwise_cons.mp hp).1 b (by simp) (by rw [hall a (by simp), hall b (by simp)])

/-! ## The synthetic record (R104) -/

theorem synthetic_sym_ne (r : Record) : (synthetic r).sym ≠ r.sym := by
  intro h
  have h := congrArg BitVec.toNat h
  have := r.sym.isLt
  have h1 : (1#7).toNat = 1 := rfl
  change (r.sym + 1#7).toNat = _ at h
  rw [BitVec.toNat_add, h1] at h
  omega

/-- One record is joined by the synthetic one; any other number of records stays. -/
theorem withSynthetic_cases (rs : List Record) :
    (∃ r, rs = [r] ∧ withSynthetic rs = [r, synthetic r]) ∨ (rs.length ≠ 1 ∧ withSynthetic rs = rs) := by
  rcases rs with _ | ⟨r, _ | ⟨q, l⟩⟩
  · exact .inr ⟨by simp, rfl⟩
  · exact .inl ⟨r, rfl, rfl⟩
  · exact .inr ⟨by simp, rfl⟩

/-! ## The sort (R105) -/

theorem insertRecord_perm (r : Record) (rs : List Record) : (insertRecord r rs).Perm (r :: rs) := by
  induction rs with
  | nil => exact .refl _
  | cons q rs ih =>
    simp only [insertRecord]
    split
    · exact (ih.cons q).trans (.swap r q rs)
    · exact .refl _

/-- The sorted list has the records of the list it sorts. -/
theorem sortRecords_perm (rs : List Record) : (sortRecords rs).Perm rs := by
  induction rs with
  | nil => exact .refl _
  | cons r rs ih => exact (insertRecord_perm r _).trans (ih.cons r)

theorem recordBefore_iff {a b : Record} :
    recordBefore a b = true ↔ a.weight < b.weight ∨ (a.weight = b.weight ∧ a.sym < b.sym) := by
  simp [recordBefore]

theorem recordBefore_trans {a b c : Record} (h1 : recordBefore a b = true) (h2 : recordBefore b c = true) : recordBefore a c = true := by
  rw [recordBefore_iff] at *
  simp only [BitVec.lt_def, ← BitVec.toNat_inj] at *
  omega

/-- Of two records with different symbols one comes before the other. -/
theorem recordBefore_total {a b : Record} (h : a.sym ≠ b.sym) (hn : ¬ recordBefore a b = true) : recordBefore b a = true := by
  rw [recordBefore_iff] at *
  simp only [BitVec.lt_def, ne_eq, ← BitVec.toNat_inj] at *
  omega

theorem insertRecord_sorted {r : Record} {rs : List Record} (hs : rs.Pairwise fun a b => recordBefore a b = true)
    (hr : ∀ q ∈ rs, r.sym ≠ q.sym) : (insertRecord r rs).Pairwise fun a b => recordBefore a b = true := by
  induction rs with
  | nil => simp [insertRecord]
  | cons q rs ih =>
    obtain ⟨hq, hs'⟩ := List.pairwise_cons.mp hs
    simp only [insertRecord]
    split
    · next hb =>
      refine List.pairwise_cons.mpr ⟨fun a ha => ?_, ih hs' fun a ha => hr a (by simp [ha])⟩
      rcases List.mem_cons.mp ((insertRecord_perm r rs).mem_iff.mp ha) with rfl | ha
      · exact hb
      · exact hq a ha
    · next hb =>
      have hrq := recordBefore_total (fun h => hr q (by simp) h.symm) hb
      refine List.pairwise_cons.mpr ⟨fun a ha => ?_, hs⟩
      rcases List.mem_cons.mp ha with rfl | ha
      · exact hrq
      · exact recordBefore_trans hrq (hq a ha)

/-- Records with different symbols are sorted by (weight, symbol). -/
theorem sortRecords_sorted {rs : List Record} (h : rs.Pairwise fun a b => a.sym ≠ b.sym) :
    (sortRecords rs).Pairwise fun a b => recordBefore a b = true := by
  induction rs with
  | nil => exact .nil
  | cons r rs ih =>
    obtain ⟨hr, h⟩ := List.pairwise_cons.mp h
    exact insertRecord_sorted (ih h) fun q hq => hr q ((sortRecords_perm rs).mem_iff.mp hq)

/-! ## The sorted list that FIN stores (R102) -/

/-- Everything the rest of the pipeline uses of the sorted list. -/
theorem sortedList_spec {s : State} (h : recordSet s ≠ []) :
    2 ≤ (sortedList s).length ∧ (sortedList s).length ≤ 128 ∧
      ((sortedList s).Pairwise fun a b => a.sym ≠ b.sym) ∧ ((sortedList s).Pairwise fun a b => recordBefore a b = true) ∧
      (∀ r ∈ sortedList s, r.weight = freqAt s r.sym) ∧ (∀ x, freqAt s x ≠ 0 → ∃ r ∈ sortedList s, r.sym = x) ∧
      ((recordSet s).length ≠ 1 → ∀ r ∈ sortedList s, r.weight ≠ 0) := by
  have hw : (2 ≤ (withSynthetic (recordSet s)).length ∧ (withSynthetic (recordSet s)).length ≤ 128) ∧
      ((withSynthetic (recordSet s)).Pairwise fun a b => a.sym ≠ b.sym) ∧
      (∀ r ∈ withSynthetic (recordSet s), r.weight = freqAt s r.sym) ∧
      (∀ x, freqAt s x ≠ 0 → ∃ r ∈ withSynthetic (recordSet s), r.sym = x) ∧
      ((recordSet s).length ≠ 1 → ∀ r ∈ withSynthetic (recordSet s), r.weight ≠ 0) := by
    have hl := recordSet_length s
    rcases withSynthetic_cases (recordSet s) with ⟨r, hr, hw⟩ | ⟨hn, hw⟩ <;> rw [hw]
    · have hr' : r ∈ recordSet s := by rw [hr]; simp
      have hone : ∀ y, freqAt s y ≠ 0 → r.sym = y := by
        intro y hy
        have : (⟨y, freqAt s y⟩ : Record) ∈ recordSet s := mem_recordSet.mpr ⟨hy, rfl⟩
        rw [hr] at this
        rw [← List.mem_singleton.mp this]
      refine ⟨by simp, by simp [(synthetic_sym_ne r).symm], fun q hq => ?_, fun x hx => ⟨r, by simp, hone x hx⟩, fun h1 => ?_⟩
      · simp only [List.mem_cons, List.not_mem_nil, or_false] at hq
        rcases hq with rfl | rfl
        · exact (mem_recordSet.mp hr').2
        · by_contra hne
          exact synthetic_sym_ne r (hone _ fun h0 => hne (by rw [h0]; rfl)).symm
      · rw [hr] at h1; simp at h1
    · have h0 : (recordSet s).length ≠ 0 := fun h0 => h (List.length_eq_zero_iff.mp h0)
      refine ⟨⟨by omega, hl⟩, recordSet_pairwise s, fun r hr => (mem_recordSet.mp hr).2,
        fun x hx => ⟨⟨x, freqAt s x⟩, mem_recordSet.mpr ⟨hx, rfl⟩, rfl⟩, fun _ r hr => ?_⟩
      obtain ⟨h1, h2⟩ := mem_recordSet.mp hr
      rw [h2]; exact h1
  have hp := sortRecords_perm (withSynthetic (recordSet s))
  obtain ⟨h1, h2, h3, h4, h5⟩ := hw
  unfold sortedList
  refine ⟨by rw [hp.length_eq]; exact h1.1, by rw [hp.length_eq]; exact h1.2, ?_, sortRecords_sorted h2,
    fun r hr => h3 r (hp.mem_iff.mp hr), fun x hx => ?_, fun hn r hr => h5 hn r (hp.mem_iff.mp hr)⟩
  · exact (hp.pairwise_iff (fun h => h.symm)).mpr h2
  · obtain ⟨r, hr, hx⟩ := h4 x hx
    exact ⟨r, hp.mem_iff.mpr hr, hx⟩

/-- The records' weights sum to the counts. -/
theorem recordSet_sum (s : State) : ((recordSet s).map fun r => r.weight.toNat).sum = countSum s := by
  unfold recordSet countSum
  generalize allSymbols = l
  induction l with
  | nil => rfl
  | cons x l ih =>
    rw [List.map_cons, List.sum_cons, ← ih]
    by_cases h : freqAt s x = 0
    · have : recordOf s x = none := by unfold recordOf; rw [if_pos h]
      rw [List.filterMap_cons_none this, h]; simp
    · have : recordOf s x = some ⟨x, freqAt s x⟩ := by unfold recordOf; rw [if_neg h]
      rw [List.filterMap_cons_some this]; simp

/-- The sorted list's weights sum to the counts: the synthetic record adds none. -/
theorem sortedList_sum (s : State) : ((sortedList s).map fun r => r.weight.toNat).sum = countSum s := by
  unfold sortedList
  rw [((sortRecords_perm _).map _).sum_eq, ← recordSet_sum]
  rcases withSynthetic_cases (recordSet s) with ⟨r, hr, hw⟩ | ⟨_, hw⟩
  · rw [hw, hr]; simp [synthetic]
  · rw [hw]

/-! ## Seeding the leaves (R106) -/

/-- The leaves stand in list order from the first index; every other entry stays. -/
theorem nodeEntry_seedLeaves (rs : List Record) : ∀ (i : Nat) (s : State) (j : Nat), i + rs.length ≤ 256 →
    nodeEntry (seedLeaves i rs s) j = if j < i then nodeEntry s j else ((rs[j - i]?).map leafOf).getD (nodeEntry s j) := by
  induction rs with
  | nil => intro i s j _; simp [seedLeaves]
  | cons r rs ih =>
    intro i s j hl
    simp only [List.length_cons] at hl
    have hi : (BitVec.ofNat 8 i).toNat = i := by simp; omega
    rw [seedLeaves, ih (i + 1) _ j (by omega), nodeEntry_setNode, hi]
    by_cases h1 : j < i
    · have h2 : j < i + 1 := by omega
      have h3 : ¬ j = i := by omega
      rw [if_pos h2, if_neg h3, if_pos h1]
    · rw [if_neg h1]
      by_cases h3 : j = i
      · subst h3
        simp
      · have h2 : ¬ j < i + 1 := by omega
        have h4 : j - i = (j - (i + 1)) + 1 := by omega
        rw [if_neg h2, if_neg h3, h4, List.getElem?_cons_succ]

/-- The entries FIN leaves: the leaves of the sorted list, then what was there. -/
theorem nodeEntry_sorted {s : State} (h : recordSet s ≠ []) (j : Nat) :
    nodeEntry (seedLeaves 0 (sortedList s) s) j = (((sortedList s)[j]?).map leafOf).getD (nodeEntry s j) := by
  have := (sortedList_spec h).2.1
  rw [nodeEntry_seedLeaves _ 0 s j (by omega)]
  simp

end Sys2Proof.Machine
end

