-- ==== Sys2Proof/Laws/Invariants.lean ====
section
/-!
SUPPORT. Which fields the invariants of Safety.lean read: a state that agrees on them meets them too (10_state.md R46).
-/

namespace Sys2Proof.Machine

theorem leavesSorted_congr {s t : State} (h1 : t.node = s.node) (h2 : t.nleaf = s.nleaf) (h : LeavesSorted s) : LeavesSorted t := by
  unfold LeavesSorted at *
  have E : ∀ i, nodeEntry t i = nodeEntry s i := nodeEntry_congr h1
  simp only [h2, E]; exact h

theorem weightsAdd_congr {s t : State} (h1 : t.node = s.node) (h2 : t.nleaf = s.nleaf) (h : WeightsAdd s) : WeightsAdd t := by
  unfold WeightsAdd at *
  have E : ∀ i, nodeEntry t i = nodeEntry s i := nodeEntry_congr h1
  simp only [h2, E]; exact h

theorem weightSum_congr {s t : State} (h1 : t.node = s.node) (n : Nat) : weightSum t n = weightSum s n := by
  unfold weightSum
  have E : ∀ i, nodeEntry t i = nodeEntry s i := nodeEntry_congr h1
  simp only [E]

theorem codesArePaths_congr {s t : State} (h1 : t.node = s.node) (h2 : t.nleaf = s.nleaf) (h3 : t.root = s.root)
    (h4 : t.code = s.code) (h : CodesArePaths s) : CodesArePaths t := by
  have E : ∀ i, nodeEntry t i = nodeEntry s i := nodeEntry_congr h1
  have A : ∀ i, nodeAt t i = nodeAt s i := nodeAt_congr h1
  have C : ∀ i, codeAt t i = codeAt s i := codeAt_congr h4
  have F : ∀ p i, followPath t i p = followPath s i p := fun p i => followPath_congr h1 p i
  constructor
  · intro x; rw [C]; intro hx
    obtain ⟨a, i, b⟩ := h.path x hx
    exact ⟨a, i, by rw [F, h3, A]; exact b⟩
  · intro i; rw [E, C, h2]; exact h.complete i

/-- The pipeline's rules read no other field. -/
theorem pipelineRules_congr {s t : State} (h1 : t.node = s.node) (h2 : t.nleaf = s.nleaf) (h3 : t.root = s.root)
    (h4 : t.code = s.code) (h5 : t.phase = s.phase) (h6 : t.tbState = s.tbState) (h7 : t.uphase = s.uphase)
    (h8 : t.total = s.total) (h9 : t.srcHead = s.srcHead)
    (h10 : t.tgtHead = s.tgtHead) (h11 : t.tgtTail = s.tgtTail) (h12 : t.cursor = s.cursor) (p : PipelineRules s) : PipelineRules t := by
  have E : ∀ i, nodeEntry t i = nodeEntry s i := nodeEntry_congr h1
  have C : ∀ i, codeAt t i = codeAt s i := codeAt_congr h4
  obtain ⟨a, b, c, d, e, f, g⟩ := p
  refine ⟨?_, ?_, ?_, ?_, ?_, ?_, ?_⟩
  · rw [h5, h2, h6, h7]; simp only [E]; exact a
  · rw [h5, h2, h8, weightSum_congr h1]; simp only [E]
    intro h; obtain ⟨x1, x2, x3, x4, x5⟩ := b h
    exact ⟨x1, x2, x3, leavesSorted_congr h1 h2 x4, x5⟩
  · rw [h5, h6, h7, h2]; simp only [E]; exact c
  · rw [h5, h6, h2, h3, h8, h9, h10, h11]; simp only [E]
    intro h; obtain ⟨x1, x2, x3, x4, x5, x6, x7, x8⟩ := d h
    exact ⟨x1, x2, x3, x4, x5.congr h1 h2 h3, weightsAdd_congr h1 h2 x6, x7, x8⟩
  · rw [h5]; intro h; exact codesArePaths_congr h1 h2 h3 h4 (e h)
  · rw [h5]; simp only [C]; exact f
  · rw [h7, h5, h2, h12, h3]; exact g

end Sys2Proof.Machine
end

