-- ==== Sys2Proof/Laws/Packer.lean ====
section
/-!
SUPPORT. The bit packer: bits shifted in eight at a time, and the padding that makes them whole bytes (43_bitpacker.md R163, R164).
-/

namespace Sys2Proof.Machine

/-- The low bit of a byte shifted left is the bit shifted in; the others move up. -/
theorem getLsbD_shifted (a : BitVec 8) (x : Bool) (i : Nat) (hi : i < 8) :
    (a.extractLsb' 0 7 ++ BitVec.ofBool x).getLsbD i = if i = 0 then x else a.getLsbD (i - 1) := by
  rw [BitVec.getLsbD_append]
  by_cases h : i = 0
  · subst h; simp
  · have h1 : ¬ i < 1 := by omega
    have h2 : i - 1 < 7 := by omega
    simp [h, h1, h2]

/-- A bit shifted in while fewer than seven are gathered. -/
theorem shiftIn_gather {s : State} {x : Bool} (h : s.nbits.toNat < 7) :
    (shiftIn s x).nbits.toNat = s.nbits.toNat + 1 ∧
      shiftIn s x = { s with acc := s.acc.extractLsb' 0 7 ++ BitVec.ofBool x, nbits := (shiftIn s x).nbits } := by
  have h1 : (s.nbits + 1).toNat = s.nbits.toNat + 1 := by
    change (s.nbits + 1#4).toNat = _
    rw [BitVec.toNat_add]; simp; omega
  have h2 : ¬ s.nbits + 1 = 8 := fun e => by rw [e] at h1; simp at h1; omega
  unfold shiftIn
  rw [if_neg h2]
  exact ⟨h1, rfl⟩

/-- The eighth bit emits the byte and empties the accumulator. -/
theorem shiftIn_emit {s : State} {x : Bool} (h : s.nbits.toNat = 7) :
    shiftIn s x = { s with outb := s.outb ++ [s.acc.extractLsb' 0 7 ++ BitVec.ofBool x], acc := 0, nbits := 0 } := by
  have h2 : s.nbits + 1 = 8 := by
    rw [show s.nbits = 7#4 from BitVec.eq_of_toNat_eq h]; rfl
  unfold shiftIn
  rw [if_pos h2]
  rfl

/-- Bits shifted in after fewer than eight gathered: they complete a byte whose bits, from the top, are the gathered ones and then
these. -/
theorem shiftIn_byte (bits : List Bool) : ∀ (s : State) (p : List Bool), s.nbits.toNat = p.length → p.length + bits.length = 8 →
    bits ≠ [] → (∀ i, i < p.length → s.acc.getLsbD i = p.reverse[i]?.getD false) →
    ∃ y : Byte, bits.foldl shiftIn s = { s with outb := s.outb ++ [y], acc := 0, nbits := 0 } ∧
      ∀ i, i < 8 → y.getLsbD i = (p ++ bits).reverse[i]?.getD false := by
  induction bits with
  | nil => intro s p _ _ h; exact absurd rfl h
  | cons x bits ih =>
    intro s p hn hl _ hacc
    simp only [List.length_cons] at hl
    have hshift : ∀ i, i < p.length + 1 →
        (s.acc.extractLsb' 0 7 ++ BitVec.ofBool x).getLsbD i = (p ++ [x]).reverse[i]?.getD false := by
      intro i hi
      rw [getLsbD_shifted _ _ _ (by omega), List.reverse_append]
      cases i with
      | zero => simp
      | succ i => simpa using hacc i (by omega)
    cases bits with
    | nil =>
      refine ⟨s.acc.extractLsb' 0 7 ++ BitVec.ofBool x, ?_, fun i hi => hshift i ?_⟩
      · rw [List.foldl_cons, List.foldl_nil, shiftIn_emit]
        simp only [List.length_nil] at hl; omega
      · simp only [List.length_nil] at hl; omega
    | cons x' bits =>
      simp only [List.length_cons] at hl ih
      obtain ⟨h1, h2⟩ := shiftIn_gather (s := s) (x := x) (by omega)
      obtain ⟨y, h3, h4⟩ := ih (shiftIn s x) (p ++ [x]) (by simp; omega) (by simp; omega) (by simp) (fun i hi => by
        rw [h2]; exact hshift i (by simpa using hi))
      refine ⟨y, ?_, fun i hi => by rw [h4 i hi, List.append_assoc]; rfl⟩
      rw [List.foldl_cons, h3, h2]

/-- Whole bytes shifted in from an empty accumulator: byte j has bit 8j + k of the sequence in its bit 7 - k
(20_memory.md R62, R63). -/
theorem shiftIn_bytes (m : Nat) : ∀ (s : State) (bits : List Bool), s.acc = 0 → s.nbits = 0 → bits.length = 8 * m →
    ∃ ys : List Byte, bits.foldl shiftIn s = { s with outb := s.outb ++ ys } ∧ ys.length = m ∧
      ∀ j k, j < m → k < 8 → (ys[j]?.map fun y => y.getLsbD (7 - k)) = bits[8 * j + k]? := by
  induction m with
  | zero =>
    intro s bits _ _ hl
    rw [List.length_eq_zero_iff.mp hl]
    exact ⟨[], by simp, rfl, fun j k h => absurd h (by omega)⟩
  | succ m ih =>
    intro s bits ha hn hl
    have hsplit := List.take_append_drop 8 bits
    have hlen : (bits.take 8).length = 8 := by simp; omega
    obtain ⟨y, h1, h2⟩ := shiftIn_byte (bits.take 8) s [] (by rw [hn]; rfl) (by simpa using hlen)
      (fun e => by rw [e] at hlen; simp at hlen) (fun i h => absurd h (by simp))
    obtain ⟨ys, h3, h4, h5⟩ := ih { s with outb := s.outb ++ [y] } (bits.drop 8) ha hn (by simp; omega)
    refine ⟨y :: ys, ?_, by simp [h4], fun j k hj hk => ?_⟩
    · rw [← hsplit, List.foldl_append, h1]
      have e : ({ s with outb := s.outb ++ [y], acc := 0, nbits := 0 } : State) = { s with outb := s.outb ++ [y] } := by
        rw [← ha, ← hn]
      rw [e, h3]
      simp
    · cases j with
      | zero =>
        have := h2 (7 - k) (by omega)
        simp only [List.nil_append] at this
        rw [List.getElem?_reverse (by omega), hlen] at this
        have e : 8 - 1 - (7 - k) = k := by omega
        rw [e, List.getElem?_take_of_lt hk] at this
        have hb : k < bits.length := by omega
        simp only [List.getElem?_cons_zero, Option.map_some, this, Nat.mul_zero, Nat.zero_add]
        rw [List.getElem?_eq_getElem hb]; rfl
      | succ j =>
        rw [List.getElem?_cons_succ, h5 j k (by omega) hk, List.getElem?_drop]
        congr 1; omega

theorem paddingBits_length (n : Nat) : (paddingBits n).length = 8 - n % 8 := by
  simp only [paddingBits, padding, List.length_append, List.length_replicate, List.length_cons, List.length_nil]
  omega

/-- The padding makes the stream whole bytes (20_memory.md R65). -/
theorem padded_length (bits : List Bool) : (paddingBits bits.length ++ bits).length = 8 * (bits.length / 8 + 1) := by
  rw [List.length_append, paddingBits_length]; omega

end Sys2Proof.Machine
end

