-- ==== Sys2Proof/Laws/PerInstr.lean ====
section
/-!
SUPPORT. One lemma per command: the word of a well-formed command selects the row of its own mnemonic in the spec's table of match and mask
(30_encoding.md R84).
-/

namespace Sys2Proof.Laws.RowSelected

/-- The encoder agrees with the spec's table: the command's word selects the command's row. -/
def Statement (i : Instr) : Prop :=
  i.wf = true → ∃ r ∈ opRows, r.mnemonic = i.mnemonic ∧ r.selects (encode i) = true

/-- A symbol leaves bit 7 of its byte clear. -/
theorem symbol_and : ∀ x : Symbol, x.setWidth 8 &&& (0x80 : Byte) = 0x00 := by decide

/-- A chunk number leaves bits [15:2] of its field clear. -/
theorem chunk_and : ∀ k : BitVec 2, k.setWidth 16 &&& (0xFFFC : BitVec 16) = 0x0000 := by decide

/-- A word selects a row when each of its fields, masked, is the row's, and A is within the limit. -/
theorem selects_mkWord (name : String) (o o' om a a' am limit : Byte) (b b' bm : BitVec 16) (h1 : o &&& om = o') (h2 : a &&& am = a')
    (h3 : b &&& bm = b') (h4 : a ≤ limit) : OpRow.selects ⟨name, mkWord o' a' b', mkWord om am bm, limit⟩ (mkWord o a b) = true := by
  simp only [OpRow.selects, mkWord_and, fieldA_mkWord, h1, h2, h3, h4, decide_true, Bool.and_self]

theorem nop : Statement .nop := by
  intro _
  exact ⟨⟨"NOP", 0x00000000, 0xFFFFFFFF, 255⟩, by decide, rfl,
    selects_mkWord "NOP" 0x00 0x00 0xFF 0 0x00 0xFF 255 0 0x0000 0xFFFF (by decide) (by decide) (by decide) (by decide)⟩

theorem clr : Statement .clr := by
  intro _
  exact ⟨⟨"CLR", 0x01000000, 0xFFFFFFFF, 255⟩, by decide, rfl,
    selects_mkWord "CLR" 0x01 0x01 0xFF 0 0x00 0xFF 255 0 0x0000 0xFFFF (by decide) (by decide) (by decide) (by decide)⟩

theorem rdcsr (k : Byte) : Statement (.rdcsr k) := by
  intro h
  refine ⟨⟨"RDCSR", 0x08000000, 0xFFF8FFFF, 5⟩, by decide, rfl, ?_⟩
  revert k; decide

theorem rdnode (i : NodeIdx) : Statement (.rdnode i) := by
  intro h
  exact ⟨⟨"RDNODE", 0x09000000, 0xFF00FFFF, 254⟩, by decide, rfl,
    selects_mkWord "RDNODE" 0x09 0x09 0xFF i 0x00 0x00 254 0 0x0000 0xFFFF (by decide) BitVec.and_zero (by decide) (of_decide_eq_true h)⟩

theorem rdwt (i : NodeIdx) : Statement (.rdwt i) := by
  intro h
  exact ⟨⟨"RDWT", 0x0A000000, 0xFF00FFFF, 254⟩, by decide, rfl,
    selects_mkWord "RDWT" 0x0A 0x0A 0xFF i 0x00 0x00 254 0 0x0000 0xFFFF (by decide) BitVec.and_zero (by decide) (of_decide_eq_true h)⟩

theorem rdlen (x : Symbol) : Statement (.rdlen x) := by
  intro _
  exact ⟨⟨"RDLEN", 0x0B000000, 0xFF80FFFF, 255⟩, by decide, rfl,
    selects_mkWord "RDLEN" 0x0B 0x0B 0xFF (x.setWidth 8) 0x00 0x80 255 0 0x0000 0xFFFF (by decide) (symbol_and x) (by decide) (BitVec.le_def.mpr (Nat.le_of_lt_succ (BitVec.isLt _)))⟩

theorem rdcode (x : Symbol) (k : BitVec 2) : Statement (.rdcode x k) := by
  intro _
  exact ⟨⟨"RDCODE", 0x0C000000, 0xFF80FFFC, 255⟩, by decide, rfl,
    selects_mkWord "RDCODE" 0x0C 0x0C 0xFF (x.setWidth 8) 0x00 0x80 255 (k.setWidth 16) 0x0000 0xFFFC (by decide) (symbol_and x) (chunk_and k) (BitVec.le_def.mpr (Nat.le_of_lt_succ (BitVec.isLt _)))⟩

theorem sym (x : Symbol) : Statement (.sym x) := by
  intro _
  exact ⟨⟨"SYM", 0x10000000, 0xFF80FFFF, 255⟩, by decide, rfl,
    selects_mkWord "SYM" 0x10 0x10 0xFF (x.setWidth 8) 0x00 0x80 255 0 0x0000 0xFFFF (by decide) (symbol_and x) (by decide) (BitVec.le_def.mpr (Nat.le_of_lt_succ (BitVec.isLt _)))⟩

theorem addf (x : Symbol) (n : BitVec 16) : Statement (.addf x n) := by
  intro _
  exact ⟨⟨"ADDF", 0x11000000, 0xFF800000, 255⟩, by decide, rfl,
    selects_mkWord "ADDF" 0x11 0x11 0xFF (x.setWidth 8) 0x00 0x80 255 n 0x0000 0x0000 (by decide) (symbol_and x) BitVec.and_zero (BitVec.le_def.mpr (Nat.le_of_lt_succ (BitVec.isLt _)))⟩

theorem fin : Statement .fin := by
  intro _
  exact ⟨⟨"FIN", 0x12000000, 0xFFFFFFFF, 255⟩, by decide, rfl,
    selects_mkWord "FIN" 0x12 0x12 0xFF 0 0x00 0xFF 255 0 0x0000 0xFFFF (by decide) (by decide) (by decide) (by decide)⟩

theorem build : Statement .build := by
  intro _
  exact ⟨⟨"BUILD", 0x20000000, 0xFFFFFFFF, 255⟩, by decide, rfl,
    selects_mkWord "BUILD" 0x20 0x20 0xFF 0 0x00 0xFF 255 0 0x0000 0xFFFF (by decide) (by decide) (by decide) (by decide)⟩

theorem table : Statement .table := by
  intro _
  exact ⟨⟨"TABLE", 0x30000000, 0xFFFFFFFF, 255⟩, by decide, rfl,
    selects_mkWord "TABLE" 0x30 0x30 0xFF 0 0x00 0xFF 255 0 0x0000 0xFFFF (by decide) (by decide) (by decide) (by decide)⟩

theorem enc (x : Symbol) : Statement (.enc x) := by
  intro _
  exact ⟨⟨"ENC", 0x40000000, 0xFF80FFFF, 255⟩, by decide, rfl,
    selects_mkWord "ENC" 0x40 0x40 0xFF (x.setWidth 8) 0x00 0x80 255 0 0x0000 0xFFFF (by decide) (symbol_and x) (by decide) (BitVec.le_def.mpr (Nat.le_of_lt_succ (BitVec.isLt _)))⟩

theorem pbit (v : Byte) : Statement (.pbit v) := by
  intro _
  exact ⟨⟨"PBIT", 0x41000000, 0xFF00FFFF, 255⟩, by decide, rfl,
    selects_mkWord "PBIT" 0x41 0x41 0xFF v 0x00 0x00 255 0 0x0000 0xFFFF (by decide) BitVec.and_zero (by decide) (BitVec.le_def.mpr (Nat.le_of_lt_succ (BitVec.isLt _)))⟩

theorem pack : Statement .pack := by
  intro _
  exact ⟨⟨"PACK", 0x42000000, 0xFFFFFFFF, 255⟩, by decide, rfl,
    selects_mkWord "PACK" 0x42 0x42 0xFF 0 0x00 0xFF 255 0 0x0000 0xFFFF (by decide) (by decide) (by decide) (by decide)⟩

theorem dbeg : Statement .dbeg := by
  intro _
  exact ⟨⟨"DBEG", 0x50000000, 0xFFFFFFFF, 255⟩, by decide, rfl,
    selects_mkWord "DBEG" 0x50 0x50 0xFF 0 0x00 0xFF 255 0 0x0000 0xFFFF (by decide) (by decide) (by decide) (by decide)⟩

theorem ubyte (b : Byte) : Statement (.ubyte b) := by
  intro _
  exact ⟨⟨"UBYTE", 0x51000000, 0xFF00FFFF, 255⟩, by decide, rfl,
    selects_mkWord "UBYTE" 0x51 0x51 0xFF b 0x00 0x00 255 0 0x0000 0xFFFF (by decide) BitVec.and_zero (by decide) (BitVec.le_def.mpr (Nat.le_of_lt_succ (BitVec.isLt _)))⟩

theorem dend : Statement .dend := by
  intro _
  exact ⟨⟨"DEND", 0x52000000, 0xFFFFFFFF, 255⟩, by decide, rfl,
    selects_mkWord "DEND" 0x52 0x52 0xFF 0 0x00 0xFF 255 0 0x0000 0xFFFF (by decide) (by decide) (by decide) (by decide)⟩

end Sys2Proof.Laws.RowSelected
end

