-- ==== Sys2Proof/Laws/TreeBuilder.lean ====
section
/-!
SUPPORT. The two-queue merge: what one take and one merge do, and the invariant of the loop of 41_treebuilder.md R120.
-/

namespace Sys2Proof.Machine

theorem idx_succ {i : NodeIdx} (h : i.toNat < 255) : (i + 1).toNat = i.toNat + 1 := by
  have h1 : (1#8).toNat = 1 := rfl
  change (i + 1#8).toNat = _
  rw [BitVec.toNat_add, h1]; omega

theorem idx_ne_255 {i : NodeIdx} (h : i.toNat < 255) : i ≠ 255#8 := by
  rintro rfl
  exact absurd h (by decide)

/-! ## The queues (10_state.md R25) -/

/-- The queue pointers during a build: source within the leaves, target within the internal entries of 20_memory.md R69. -/
structure Queues (s : State) : Prop where
  /-- 2 to 128 leaves. -/
  leaves : 2 ≤ s.nleaf.toNat ∧ s.nleaf.toNat ≤ 128
  /-- The source queue. -/
  src : s.srcHead.toNat ≤ s.nleaf.toNat
  /-- The target queue. -/
  tgt : s.nleaf.toNat ≤ s.tgtHead.toNat ∧ s.tgtHead.toNat ≤ s.tgtTail.toNat
  /-- The end of the space. -/
  tail : s.tgtTail.toNat ≤ 2 * s.nleaf.toNat - 1

/-- Take() answers when a queue holds a node. -/
theorem take_exists {s : State} (q : Queues s) (h : s.srcHead.toNat < s.nleaf.toNat ∨ s.tgtHead.toNat < s.tgtTail.toNat) :
    ∃ i t, take s = .ok (i, t) := by
  obtain ⟨⟨h1, h2⟩, h3, ⟨h4, h5⟩, h6⟩ := q
  have hs : srcEmpty s = true ↔ s.srcHead.toNat = s.nleaf.toNat := by simp [srcEmpty, BitVec.toNat_inj]
  have ht : tgtEmpty s = true ↔ s.tgtHead.toNat = s.tgtTail.toNat := by simp [tgtEmpty, BitVec.toNat_inj]
  unfold take
  split
  · next e =>
    have e := hs.mp e
    rw [if_neg fun c => by have := ht.mp c; omega]
    exact ⟨_, _, rfl⟩
  · next e1 =>
    have e1 := mt hs.mpr e1
    split
    · exact ⟨_, _, rfl⟩
    · next e2 =>
      have e2 := mt ht.mpr e2
      rw [readNode_eq (idx_ne_255 (by omega)), readNode_eq (idx_ne_255 (by omega))]
      simp only [ok_bind]
      split <;> exact ⟨_, _, rfl⟩

/-- What Take() does to the queues, in numbers: the node taken was the front of one queue, and is no longer in it. -/
theorem take_spec {s t : State} {i : NodeIdx} (q : Queues s) (h : take s = .ok (i, t)) :
    t = { s with srcHead := t.srcHead, tgtHead := t.tgtHead } ∧
      ((i.toNat = s.srcHead.toNat ∧ s.srcHead.toNat < s.nleaf.toNat ∧ t.srcHead.toNat = s.srcHead.toNat + 1 ∧ t.tgtHead = s.tgtHead) ∨
        (i.toNat = s.tgtHead.toNat ∧ s.tgtHead.toNat < s.tgtTail.toNat ∧ t.tgtHead.toNat = s.tgtHead.toNat + 1 ∧
          t.srcHead = s.srcHead)) := by
  obtain ⟨⟨h1, h2⟩, h3, ⟨h4, h5⟩, h6⟩ := q
  rcases take_cases h with ⟨hn, rfl, rfl⟩ | ⟨hn, rfl, rfl⟩
  · have : s.srcHead.toNat ≠ s.nleaf.toNat := fun e => hn (BitVec.eq_of_toNat_eq e)
    exact ⟨rfl, .inl ⟨rfl, by omega, idx_succ (by omega), rfl⟩⟩
  · have : s.tgtHead.toNat ≠ s.tgtTail.toNat := fun e => hn (BitVec.eq_of_toNat_eq e)
    exact ⟨rfl, .inr ⟨rfl, by omega, idx_succ (by omega), rfl⟩⟩

/-- The two nodes a merge takes, and the state it leaves, in numbers. -/
structure Merged (s t : State) (a b : NodeIdx) : Prop where
  /-- The leaves stay. -/
  nleaf : t.nleaf = s.nleaf
  /-- The source queue after the takes. -/
  src : s.srcHead.toNat ≤ t.srcHead.toNat ∧ t.srcHead.toNat ≤ s.nleaf.toNat
  /-- The target queue after the takes: it has only nodes that were there, and then the new one. -/
  tgt : s.tgtHead.toNat ≤ t.tgtHead.toNat ∧ t.tgtHead.toNat ≤ s.tgtTail.toNat
  /-- Two nodes were taken. -/
  two : t.srcHead.toNat + t.tgtHead.toNat = s.srcHead.toNat + s.tgtHead.toNat + 2
  /-- One node was written. -/
  tail : t.tgtTail.toNat = s.tgtTail.toNat + 1
  /-- They differ. -/
  differ : a ≠ b
  /-- They are the nodes that left the queues. -/
  taken : ∀ j, (j = a.toNat ∨ j = b.toNat) ↔
    (s.srcHead.toNat ≤ j ∧ j < t.srcHead.toNat) ∨ (s.tgtHead.toNat ≤ j ∧ j < t.tgtHead.toNat)
  /-- The new node, and every other entry. -/
  node : ∀ j, nodeEntry t j =
    if j = s.tgtTail.toNat then ⟨false, 0, (nodeAt s a).weight + (nodeAt s b).weight, a, b⟩ else nodeEntry s j

/-- One merge completes while the queues hold two nodes. -/
theorem mergeOnce_spec {s : State} (q : Queues s) (h2 : 2 ≤ remaining s) (hl : s.tgtTail.toNat < 2 * s.nleaf.toNat - 1) :
    ∃ t a b, mergeOnce s = .ok t ∧ Merged s t a b := by
  have q' := q
  obtain ⟨⟨l1, l2⟩, hsrc, ⟨ht1, ht2⟩, htail⟩ := q'
  unfold remaining at h2
  obtain ⟨a, u, hu⟩ := take_exists q (by omega)
  obtain ⟨eu, cu⟩ := take_spec q hu
  have q2 : Queues { u with tbA := a } := by
    rw [eu]
    refine ⟨⟨l1, l2⟩, ?_, ⟨?_, ?_⟩, htail⟩ <;> show _ ≤ _ <;>
      rcases cu with ⟨_, _, c3, c4⟩ | ⟨_, _, c3, c4⟩ <;> simp only [c3, c4] <;> omega
  have hrem : ({ u with tbA := a } : State).srcHead.toNat < ({ u with tbA := a } : State).nleaf.toNat ∨
      ({ u with tbA := a } : State).tgtHead.toNat < ({ u with tbA := a } : State).tgtTail.toNat := by
    rw [eu]
    show u.srcHead.toNat < s.nleaf.toNat ∨ u.tgtHead.toNat < s.tgtTail.toNat
    rcases cu with ⟨_, _, c3, c4⟩ | ⟨_, _, c3, c4⟩ <;> rw [c3, c4] <;> omega
  obtain ⟨b, v, hv⟩ := take_exists q2 hrem
  obtain ⟨ev, cv⟩ := take_spec q2 hv
  have n1 : v.nleaf = s.nleaf := by rw [ev]; show u.nleaf = _; rw [eu]
  have n2 : v.tgtTail = s.tgtTail := by rw [ev]; show u.tgtTail = _; rw [eu]
  have n3 : v.node = s.node := by rw [ev]; show u.node = _; rw [eu]
  have n4 : v.tbA = a := by rw [ev]
  have m1 : u.nleaf = s.nleaf := by rw [eu]
  have m2 : u.tgtTail = s.tgtTail := by rw [eu]
  change (b.toNat = u.srcHead.toNat ∧ u.srcHead.toNat < u.nleaf.toNat ∧ v.srcHead.toNat = u.srcHead.toNat + 1 ∧ v.tgtHead = u.tgtHead) ∨
        (b.toNat = u.tgtHead.toNat ∧ u.tgtHead.toNat < u.tgtTail.toNat ∧ v.tgtHead.toNat = u.tgtHead.toNat + 1 ∧
          v.srcHead = u.srcHead) at cv
  rw [m1, m2] at cv
  simp only [← BitVec.toNat_inj] at cu cv
  have ha : a.toNat < 255 := by omega
  have hb : b.toNat < 255 := by omega
  have ht : s.tgtTail.toNat < 255 := by omega
  have hw : ∀ w : State, w.node = s.node → w.tbA = a → w.tbB = b → w.tgtTail = s.tgtTail → writeMerged w =
      .ok { setNode s.tgtTail ⟨false, 0, (nodeAt s a).weight + (nodeAt s b).weight, a, b⟩ w with tgtTail := s.tgtTail + 1 } := by
    intro w w1 w2 w3 w4
    refine writeMerged_ok.mpr ⟨w2 ▸ idx_ne_255 ha, w3 ▸ idx_ne_255 hb, w4 ▸ idx_ne_255 ht, ?_⟩
    rw [nodeAt_congr w1, nodeAt_congr w1, w2, w3, w4]
  refine ⟨_, a, b, mergeOnce_ok.mpr ⟨a, u, b, v, hu, hv, hw { v with tbB := b } n3 n4 rfl n2⟩, n1, ?_, ?_, ?_, ?_, ?_, ?_, ?_⟩
  · show _ ≤ v.srcHead.toNat ∧ v.srcHead.toNat ≤ _; omega
  · show _ ≤ v.tgtHead.toNat ∧ v.tgtHead.toNat ≤ _; omega
  · show v.srcHead.toNat + v.tgtHead.toNat = _; omega
  · exact idx_succ ht
  · intro e; rw [e] at cu; omega
  · intro j
    show _ ↔ (_ ∧ j < v.srcHead.toNat) ∨ (_ ∧ j < v.tgtHead.toNat)
    omega
  · intro j
    refine (nodeEntry_setNode s.tgtTail _ { v with tbB := b } j).trans ?_
    rw [nodeEntry_congr (show ({ v with tbB := b } : State).node = s.node from n3)]

/-! ## The invariant of the loop (R120) -/

/-- What holds after each merge of a build that began in `s₀`. -/
structure Merging (s₀ s : State) : Prop where
  /-- The pointers. -/
  queues : Queues s
  /-- The leaf count stays. -/
  nleaf : s.nleaf = s₀.nleaf
  /-- Each merge takes two nodes. -/
  count : s.srcHead.toNat + s.tgtHead.toNat + s.nleaf.toNat = 2 * s.tgtTail.toNat
  /-- Only the entries from NLEAF to TGT_TAIL - 1 are written. -/
  stay : ∀ i, i < s.nleaf.toNat ∨ s.tgtTail.toNat ≤ i → nodeEntry s i = nodeEntry s₀ i
  /-- The entries written are merged nodes. -/
  internal : ∀ i, s.nleaf.toNat ≤ i → i < s.tgtTail.toNat →
    (nodeEntry s i).leaf = false ∧ (nodeEntry s i).sym = 0 ∧ (nodeEntry s i).left.toNat < i ∧ (nodeEntry s i).right.toNat < i ∧
      (nodeEntry s i).left ≠ (nodeEntry s i).right ∧
      (nodeEntry s i).weight = (nodeEntry s (nodeEntry s i).left.toNat).weight + (nodeEntry s (nodeEntry s i).right.toNat).weight
  /-- A node has a parent exactly when it has left its queue. -/
  consumed : ∀ j, (∃ i, s.nleaf.toNat ≤ i ∧ i < s.tgtTail.toNat ∧ isChild s i j) ↔
    j < s.srcHead.toNat ∨ (s.nleaf.toNat ≤ j ∧ j < s.tgtHead.toNat)
  /-- No node has two parents. -/
  oneParent : ∀ i i' j, s.nleaf.toNat ≤ i → i < s.tgtTail.toNat → s.nleaf.toNat ≤ i' → i' < s.tgtTail.toNat →
    isChild s i j → isChild s i' j → i = i'

/-- The invariant holds when the build begins. -/
theorem merging_seed {s : State} (h1 : 2 ≤ s.nleaf.toNat) (h2 : s.nleaf.toNat ≤ 128) : Merging s (seed s) where
  queues := ⟨⟨h1, h2⟩, Nat.zero_le _, ⟨le_refl _, le_refl _⟩, by show s.nleaf.toNat ≤ 2 * s.nleaf.toNat - 1; omega⟩
  nleaf := rfl
  count := by show 0 + s.nleaf.toNat + s.nleaf.toNat = 2 * s.nleaf.toNat; omega
  stay := fun _ _ => rfl
  internal := fun i a b => absurd (lt_of_le_of_lt a b) (lt_irrefl _)
  consumed := fun j => by
    show (∃ i, s.nleaf.toNat ≤ i ∧ i < s.nleaf.toNat ∧ _) ↔ j < 0 ∨ (s.nleaf.toNat ≤ j ∧ j < s.nleaf.toNat)
    constructor
    · rintro ⟨i, a, b, _⟩; omega
    · omega
  oneParent := fun i _ _ a b => absurd (lt_of_le_of_lt a b) (lt_irrefl _)

theorem remaining_of_merging {s₀ s : State} (m : Merging s₀ s) : remaining s + s.tgtTail.toNat = 2 * s.nleaf.toNat := by
  have h1 := m.count
  have h2 := m.queues.src
  have h3 := m.queues.tgt
  unfold remaining
  omega

/-- Each merge keeps the invariant. -/
theorem Merging.step {s₀ s t : State} {a b : NodeIdx} (m : Merging s₀ s) (h : Merged s t a b)
    (hl : s.tgtTail.toNat < 2 * s.nleaf.toNat - 1) : Merging s₀ t := by
  obtain ⟨⟨⟨l1, l2⟩, hsrc, ⟨ht1, ht2⟩, htail⟩, hn, hc, hstay, hint, hcons, hone⟩ := m
  obtain ⟨e1, ⟨s1, s2⟩, ⟨t1, t2⟩, two, tl, hab, htk, hnode⟩ := h
  have ha : a.toNat < s.tgtTail.toNat := by have := (htk a.toNat).mp (.inl rfl); omega
  have hb : b.toNat < s.tgtTail.toNat := by have := (htk b.toNat).mp (.inr rfl); omega
  have hold : ∀ j, j < s.tgtTail.toNat → nodeEntry t j = nodeEntry s j := fun j hj => by
    rw [hnode j, if_neg (by omega)]
  have hnew := hnode s.tgtTail.toNat
  rw [if_pos rfl] at hnew
  have hchild_old : ∀ i j, i < s.tgtTail.toNat → (isChild t i j ↔ isChild s i j) := fun i j hi => by
    unfold isChild; rw [hold i hi]
  have hchild_new : ∀ j, isChild t s.tgtTail.toNat j ↔ j = a.toNat ∨ j = b.toNat := fun j => by
    unfold isChild; rw [hnew]; exact or_congr eq_comm eq_comm
  refine ⟨⟨?_, ?_, ?_, ?_⟩, e1.trans hn, ?_, ?_, ?_, ?_, ?_⟩ <;> simp only [e1, tl]
  · exact ⟨l1, l2⟩
  · omega
  · omega
  · omega
  · omega
  · intro i hi
    rw [hnode i, if_neg (by omega)]
    exact hstay i (by omega)
  · intro i h1 h2
    by_cases hi : i = s.tgtTail.toNat
    · subst hi
      rw [hnew]
      refine ⟨rfl, rfl, ha, hb, hab, ?_⟩
      show _ = (nodeEntry t a.toNat).weight + (nodeEntry t b.toNat).weight
      rw [hold _ ha, hold _ hb]; rfl
    · have hi' : i < s.tgtTail.toNat := by omega
      obtain ⟨g1, g2, g3, g4, g5, g6⟩ := hint i h1 hi'
      rw [hold i hi', hold _ (by omega), hold _ (by omega)]
      exact ⟨g1, g2, g3, g4, g5, g6⟩
  · intro j
    have hcj := hcons j
    have htj := htk j
    constructor
    · rintro ⟨i, h1, h2, h3⟩
      by_cases hi : i = s.tgtTail.toNat
      · subst hi
        have := htj.mp ((hchild_new j).mp h3)
        omega
      · have := hcj.mp ⟨i, h1, by omega, (hchild_old i j (by omega)).mp h3⟩
        omega
    · intro h
      by_cases hj : j < s.srcHead.toNat ∨ (s.nleaf.toNat ≤ j ∧ j < s.tgtHead.toNat)
      · obtain ⟨i, h1, h2, h3⟩ := hcj.mpr hj
        exact ⟨i, h1, by omega, (hchild_old i j h2).mpr h3⟩
      · exact ⟨s.tgtTail.toNat, by omega, by omega, (hchild_new j).mpr (htj.mpr (by omega))⟩
  · intro i i' j h1 h2 h3 h4 h5 h6
    have hcj := hcons j
    have htj := htk j
    by_cases hi : i = s.tgtTail.toNat <;> by_cases hi' : i' = s.tgtTail.toNat
    · omega
    · rw [hi] at h5
      have a1 := htj.mp ((hchild_new j).mp h5)
      have a2 := hcj.mp ⟨i', h3, by omega, (hchild_old i' j (by omega)).mp h6⟩
      omega
    · rw [hi'] at h6
      have a1 := htj.mp ((hchild_new j).mp h6)
      have a2 := hcj.mp ⟨i, h1, by omega, (hchild_old i j (by omega)).mp h5⟩
      omega
    · exact hone i i' j h1 (by omega) h3 (by omega) ((hchild_old i j (by omega)).mp h5) ((hchild_old i' j (by omega)).mp h6)

/-- The loop ends with one node left, which is the front of target, and keeps every property that each merge keeps. -/
theorem mergeLoop_ends {s₀ : State} {P : State → Prop}
    (hP : ∀ s t a b, Merging s₀ s → P s → Merged s t a b → s.tgtTail.toNat < 2 * s.nleaf.toNat - 1 → P t) :
    ∀ (n : Nat) (s : State), Merging s₀ s → P s → 2 ≤ remaining s → remaining s ≤ n + 1 →
      ∃ t, mergeLoop n s = .ok t ∧ Merging s₀ t ∧ P t ∧ remaining t = 1 ∧ t.tgtHead.toNat < t.tgtTail.toNat := by
  intro n
  induction n with
  | zero => intro s _ _ h1 h2; omega
  | succ n ih =>
    intro s m p h1 h2
    have hr := remaining_of_merging m
    have hl : s.tgtTail.toNat < 2 * s.nleaf.toNat - 1 := by omega
    obtain ⟨t, a, b, ht, hm⟩ := mergeOnce_spec m.queues h1 hl
    have mt := m.step hm hl
    have pt := hP s t a b m p hm hl
    have hr' := remaining_of_merging mt
    have := hm.tail
    rw [hm.nleaf] at hr'
    have hlt : t.tgtHead.toNat < t.tgtTail.toNat := by have := hm.tgt; omega
    unfold mergeLoop
    rw [ht, ok_bind]
    by_cases hone : remaining t = 1
    · rw [if_pos hone]; exact ⟨t, rfl, mt, pt, hone, hlt⟩
    · rw [if_neg hone]; exact ih t mt pt (by omega) (by omega)

/-- The build completes on 2 to 128 leaves, and keeps every property that each merge keeps. -/
theorem buildTree_ends {s : State} {P : State → Prop} (h1 : 2 ≤ s.nleaf.toNat) (h2 : s.nleaf.toNat ≤ 128)
    (hP : ∀ u t a b, Merging s u → P u → Merged u t a b → u.tgtTail.toNat < 2 * u.nleaf.toNat - 1 → P t) (h0 : P (seed s)) :
    ∃ u, mergeLoop 255 (seed s) = .ok u ∧ buildTree s = .ok (finishBuild u) ∧ Merging s u ∧ P u ∧
      u.srcHead.toNat = s.nleaf.toNat ∧ u.tgtHead.toNat = 2 * s.nleaf.toNat - 2 ∧ u.tgtTail.toNat = 2 * s.nleaf.toNat - 1 := by
  have m := merging_seed h1 h2
  have hr := remaining_of_merging m
  change remaining (seed s) + s.nleaf.toNat = 2 * s.nleaf.toNat at hr
  obtain ⟨u, hu, mu, pu, hone, hlt⟩ := mergeLoop_ends hP 255 (seed s) m h0 (by omega) (by omega)
  have hr' := remaining_of_merging mu
  have hq := mu.queues.src
  have hc := mu.count
  rw [mu.nleaf] at hr' hq hc
  exact ⟨u, hu, buildTree_ok.mpr ⟨u, hu, rfl⟩, mu, pu, by omega, by omega, by omega⟩

/-! ## Weights (R126) -/

/-- The weight of entry `i` as a number. -/
def entryWeight (s : State) (i : Nat) : Nat := (nodeEntry s i).weight.toNat

/-- The sum of the weights of the nodes in the two queues. -/
def queueWeight (s : State) : Nat :=
  ∑ i ∈ Finset.Ico s.srcHead.toNat s.nleaf.toNat, entryWeight s i + ∑ i ∈ Finset.Ico s.tgtHead.toNat s.tgtTail.toNat, entryWeight s i

theorem weightSum_eq (s : State) (n : Nat) : weightSum s n = ∑ i ∈ Finset.range n, entryWeight s i := by
  unfold weightSum
  induction n with
  | zero => rfl
  | succ n ih => rw [List.range_succ, List.map_append, List.sum_append, ih, Finset.sum_range_succ]; simp [entryWeight]

theorem queueWeight_seed (s : State) : queueWeight (seed s) = weightSum s s.nleaf.toNat := by
  rw [weightSum_eq, Finset.range_eq_Ico]
  show ∑ i ∈ Finset.Ico 0 s.nleaf.toNat, _ + ∑ i ∈ Finset.Ico s.nleaf.toNat s.nleaf.toNat, _ = _
  rw [Finset.Ico_self, Finset.sum_empty, Nat.add_zero]
  rfl

/-- A merge moves the weight of the two nodes it takes into the new node: as long as it fits in 32 bits, the queues keep their weight. -/
theorem Merged.weight {s t : State} {a b : NodeIdx} (q : Queues s) (h : Merged s t a b) (hfit : queueWeight s ≤ 2 ^ 32 - 1) :
    queueWeight t = queueWeight s ∧ entryWeight t s.tgtTail.toNat = entryWeight s a.toNat + entryWeight s b.toNat := by
  obtain ⟨⟨l1, l2⟩, hsrc, ⟨ht1, ht2⟩, htail⟩ := q
  obtain ⟨e1, ⟨s1, s2⟩, ⟨t1, t2⟩, two, tl, hab, htk, hnode⟩ := h
  have hne : a.toNat ≠ b.toNat := fun e => hab (BitVec.eq_of_toNat_eq e)
  have hset : ({a.toNat, b.toNat} : Finset Nat) =
      Finset.Ico s.srcHead.toNat t.srcHead.toNat ∪ Finset.Ico s.tgtHead.toNat t.tgtHead.toNat := by
    ext j
    simp only [Finset.mem_insert, Finset.mem_singleton, Finset.mem_union, Finset.mem_Ico]
    exact htk j
  have hdis : Disjoint (Finset.Ico s.srcHead.toNat t.srcHead.toNat) (Finset.Ico s.tgtHead.toNat t.tgtHead.toNat) := by
    rw [Finset.disjoint_left]
    intro j h1 h2
    simp only [Finset.mem_Ico] at h1 h2
    omega
  have hpair : entryWeight s a.toNat + entryWeight s b.toNat =
      ∑ i ∈ Finset.Ico s.srcHead.toNat t.srcHead.toNat, entryWeight s i +
        ∑ i ∈ Finset.Ico s.tgtHead.toNat t.tgtHead.toNat, entryWeight s i := by
    rw [← Finset.sum_union hdis, ← hset, Finset.sum_pair hne]
  have hs1 := Finset.sum_Ico_consecutive (entryWeight s) s1 s2
  have hs2 := Finset.sum_Ico_consecutive (entryWeight s) t1 t2
  have hold : ∀ j, j < s.tgtTail.toNat → entryWeight t j = entryWeight s j := fun j hj => by
    unfold entryWeight; rw [hnode j, if_neg (by omega)]
  have hnew : entryWeight t s.tgtTail.toNat = entryWeight s a.toNat + entryWeight s b.toNat := by
    have hle : entryWeight s a.toNat + entryWeight s b.toNat ≤ queueWeight s := by unfold queueWeight; omega
    unfold entryWeight at hle ⊢
    rw [hnode _, if_pos rfl]
    show ((nodeAt s a).weight + (nodeAt s b).weight).toNat = _
    rw [BitVec.toNat_add, nodeAt_eq, nodeAt_eq]
    omega
  refine ⟨?_, hnew⟩
  have c1 : ∑ i ∈ Finset.Ico t.srcHead.toNat s.nleaf.toNat, entryWeight t i =
      ∑ i ∈ Finset.Ico t.srcHead.toNat s.nleaf.toNat, entryWeight s i :=
    Finset.sum_congr rfl fun j hj => hold j (by simp only [Finset.mem_Ico] at hj; omega)
  have c2 : ∑ i ∈ Finset.Ico t.tgtHead.toNat (s.tgtTail.toNat + 1), entryWeight t i =
      ∑ i ∈ Finset.Ico t.tgtHead.toNat s.tgtTail.toNat, entryWeight s i + (entryWeight s a.toNat + entryWeight s b.toNat) := by
    rw [Finset.sum_Ico_succ_top t2, hnew]
    congr 1
    exact Finset.sum_congr rfl fun j hj => hold j (by simp only [Finset.mem_Ico] at hj; omega)
  unfold queueWeight
  rw [e1, tl, c1, c2]
  omega

/-- The queues hold the leaves' weight, and each merged node's weight is exactly the sum of its children's. -/
def WeightKept (s₀ s : State) : Prop :=
  queueWeight s = weightSum s₀ s₀.nleaf.toNat ∧ ∀ i, s₀.nleaf.toNat ≤ i → i < s.tgtTail.toNat →
    entryWeight s i = entryWeight s (nodeEntry s i).left.toNat + entryWeight s (nodeEntry s i).right.toNat

theorem weightKept_seed (s : State) : WeightKept s (seed s) :=
  ⟨queueWeight_seed s, fun i a b => absurd (show i < s.nleaf.toNat from b) (by omega)⟩

/-- Each merge keeps it when the leaves' weight fits in 32 bits. -/
theorem WeightKept.step {s₀ s t : State} {a b : NodeIdx} (hfit : weightSum s₀ s₀.nleaf.toNat ≤ 2 ^ 32 - 1) (m : Merging s₀ s)
    (k : WeightKept s₀ s) (hm : Merged s t a b) (_ : s.tgtTail.toNat < 2 * s.nleaf.toNat - 1) : WeightKept s₀ t := by
  obtain ⟨p1, p2⟩ := k
  obtain ⟨w1, w2⟩ := hm.weight m.queues (by omega)
  refine ⟨w1.trans p1, fun i g1 g2 => ?_⟩
  have htk := hm.taken
  have hq := m.queues.tgt
  have h1 := hm.src
  have h2 := hm.tgt
  have ha : a.toNat < s.tgtTail.toNat := by have := (htk a.toNat).mp (.inl rfl); omega
  have hb : b.toNat < s.tgtTail.toNat := by have := (htk b.toNat).mp (.inr rfl); omega
  have hold : ∀ j, j < s.tgtTail.toNat → nodeEntry t j = nodeEntry s j := fun j hj => by rw [hm.node j, if_neg (by omega)]
  have how : ∀ j, j < s.tgtTail.toNat → entryWeight t j = entryWeight s j := fun j hj => by unfold entryWeight; rw [hold j hj]
  by_cases hi : i = s.tgtTail.toNat
  · subst hi
    rw [w2, hm.node s.tgtTail.toNat, if_pos rfl, how _ ha, how _ hb]
  · have := hm.tail
    have := congrArg BitVec.toNat m.nleaf
    have hi' : i < s.tgtTail.toNat := by omega
    obtain ⟨_, _, b3, b4, _⟩ := m.internal i (by omega) hi'
    rw [hold i hi', how i hi', how _ (by omega), how _ (by omega)]
    exact p2 i g1 hi'

/-! ## What a take depends on (R122, R128) -/

/-- Two states that agree on the queues and their front nodes take the same node. -/
theorem take_agree {s s' t : State} {i : NodeIdx} (h1 : s'.nleaf = s.nleaf) (h2 : s'.srcHead = s.srcHead) (h3 : s'.tgtHead = s.tgtHead)
    (h4 : s'.tgtTail = s.tgtTail) (f1 : s.srcHead ≠ s.nleaf → nodeAt s' s.srcHead = nodeAt s s.srcHead)
    (f2 : s.tgtHead ≠ s.tgtTail → nodeAt s' s.tgtHead = nodeAt s s.tgtHead) (h : take s = .ok (i, t)) :
    take s' = .ok (i, { s' with srcHead := t.srcHead, tgtHead := t.tgtHead }) := by
  have e1 : srcEmpty s' = srcEmpty s := by simp only [srcEmpty, h1, h2]
  have e2 : tgtEmpty s' = tgtEmpty s := by simp only [tgtEmpty, h3, h4]
  have t1 : takeSource s' = (s.srcHead, { s' with srcHead := s.srcHead + 1, tgtHead := s.tgtHead }) := by
    simp only [takeSource, h2, ← h3]
  have t2 : takeTarget s' = (s.tgtHead, { s' with srcHead := s.srcHead, tgtHead := s.tgtHead + 1 }) := by
    simp only [takeTarget, h3, ← h2]
  unfold take at *
  rw [e1, e2, t1, t2]
  by_cases c1 : srcEmpty s = true
  · rw [if_pos c1] at h ⊢
    by_cases c2 : tgtEmpty s = true
    · rw [if_pos c2] at h; cases h
    · rw [if_neg c2] at h ⊢; cases h; rfl
  · rw [if_neg c1] at h ⊢
    by_cases c2 : tgtEmpty s = true
    · rw [if_pos c2] at h ⊢; cases h; rfl
    · rw [if_neg c2] at h ⊢
      obtain ⟨a, ha, h⟩ := bind_ok.mp h
      obtain ⟨b, hb, h⟩ := bind_ok.mp h
      obtain ⟨a1, a2⟩ := readNode_ok.mp ha
      obtain ⟨b1, b2⟩ := readNode_ok.mp hb
      have n1 : s.srcHead ≠ s.nleaf := fun e => c1 (decide_eq_true e)
      have n2 : s.tgtHead ≠ s.tgtTail := fun e => c2 (decide_eq_true e)
      rw [h2, h3, readNode_eq a1, readNode_eq b1, f1 n1, f2 n2, ← a2, ← b2]
      simp only [ok_bind]
      by_cases c3 : a.weight ≤ b.weight
      · rw [if_pos c3] at h ⊢; cases h; rfl
      · rw [if_neg c3] at h ⊢; cases h; rfl

/-- Taking a node does not depend on TBSTATE. -/
theorem take_tbState {s t : State} {i : NodeIdx} (x : BitVec 3) (h : take s = .ok (i, t)) :
    take { s with tbState := x } = .ok (i, { t with tbState := x }) := by
  have e := take_agree (s := s) (s' := { s with tbState := x }) rfl rfl rfl rfl (fun _ => rfl) (fun _ => rfl) h
  rw [e]
  rcases take_cases h with ⟨_, _, rfl⟩ | ⟨_, _, rfl⟩ <;> rfl

/-! ## What a merge depends on (R128) -/

/-- Two states agree on NLEAF, the queues and every entry below TGT_TAIL. -/
def Agree (s s' : State) : Prop :=
  s'.nleaf = s.nleaf ∧ s'.srcHead = s.srcHead ∧ s'.tgtHead = s.tgtHead ∧ s'.tgtTail = s.tgtTail ∧
    ∀ i, i < s.tgtTail.toNat → nodeEntry s' i = nodeEntry s i

/-- States that agree take the same node and still agree. -/
theorem agree_take {s s' t : State} {i : NodeIdx} (q : Queues s) (g : Agree s s') (h : take s = .ok (i, t)) :
    ∃ t', take s' = .ok (i, t') ∧ Agree t t' ∧ t'.tbA = s'.tbA ∧ t.tbA = s.tbA := by
  obtain ⟨g1, g2, g3, g4, g5⟩ := g
  obtain ⟨_, q1, ⟨q2, q3⟩, q4⟩ := q
  refine ⟨_, take_agree g1 g2 g3 g4 ?_ ?_ h, ?_, rfl, ?_⟩
  · intro hne
    have : s.srcHead.toNat ≠ s.nleaf.toNat := fun e => hne (BitVec.eq_of_toNat_eq e)
    exact g5 _ (by omega)
  · intro hne
    have : s.tgtHead.toNat ≠ s.tgtTail.toNat := fun e => hne (BitVec.eq_of_toNat_eq e)
    exact g5 _ (by omega)
  · rcases take_cases h with ⟨_, _, rfl⟩ | ⟨_, _, rfl⟩ <;> exact ⟨g1, rfl, rfl, g4, g5⟩
  · rcases take_cases h with ⟨_, _, rfl⟩ | ⟨_, _, rfl⟩ <;> rfl

/-- States that agree merge the same two nodes and still agree. -/
theorem agree_merge {s s' t : State} (q : Queues s) (hl : s.tgtTail.toNat < 2 * s.nleaf.toNat - 1) (h2 : 2 ≤ remaining s)
    (g : Agree s s') (h : mergeOnce s = .ok t) : ∃ t', mergeOnce s' = .ok t' ∧ Agree t t' := by
  have q0 := q
  obtain ⟨⟨l1, l2⟩, q1, ⟨q2, q3⟩, q4⟩ := q
  unfold remaining at h2
  obtain ⟨a, u, b, v, hu, hv, hw⟩ := mergeOnce_ok.mp h
  obtain ⟨u', hu', gu, _⟩ := agree_take q0 g hu
  have qu : Queues { u with tbA := a } := by
    rcases take_cases hu with ⟨hne, rfl, rfl⟩ | ⟨hne, rfl, rfl⟩
    · have : s.srcHead.toNat ≠ s.nleaf.toNat := fun e => hne (BitVec.eq_of_toNat_eq e)
      refine ⟨⟨l1, l2⟩, ?_, ⟨q2, q3⟩, q4⟩
      show (s.srcHead + 1).toNat ≤ s.nleaf.toNat
      rw [idx_succ (by omega)]; omega
    · have : s.tgtHead.toNat ≠ s.tgtTail.toNat := fun e => hne (BitVec.eq_of_toNat_eq e)
      refine ⟨⟨l1, l2⟩, q1, ⟨?_, ?_⟩, q4⟩
      · show s.nleaf.toNat ≤ (s.tgtHead + 1).toNat
        rw [idx_succ (by omega)]; omega
      · show (s.tgtHead + 1).toNat ≤ s.tgtTail.toNat
        rw [idx_succ (by omega)]; omega
  obtain ⟨v', hv', gv, f1, f2⟩ := agree_take (s' := { u' with tbA := a }) qu gu hv
  obtain ⟨w1, w2, w3, rfl⟩ := writeMerged_ok.mp hw
  have hvt : v.tgtTail = s.tgtTail := by
    have e1 := take_frame hv
    have e2 := take_frame hu
    unfold mergeFrame at e1 e2
    rcases take_cases hv with ⟨_, _, rfl⟩ | ⟨_, _, rfl⟩ <;> rcases take_cases hu with ⟨_, _, rfl⟩ | ⟨_, _, rfl⟩ <;> rfl
  have hva : v.tbA = a := f2
  have hva' : v'.tbA = a := f1
  obtain ⟨t0, a0, b0, m0, mm⟩ := mergeOnce_spec q0 (by unfold remaining; exact h2) hl
  have hat : a.toNat < s.tgtTail.toNat := by
    rcases take_cases hu with ⟨hne, rfl, rfl⟩ | ⟨hne, rfl, rfl⟩
    · have : s.srcHead.toNat ≠ s.nleaf.toNat := fun e => hne (BitVec.eq_of_toNat_eq e)
      omega
    · have : s.tgtHead.toNat ≠ s.tgtTail.toNat := fun e => hne (BitVec.eq_of_toNat_eq e)
      omega
  have hbt : b.toNat < s.tgtTail.toNat := by
    have ut : u.tgtTail = s.tgtTail := by rcases take_cases hu with ⟨_, _, rfl⟩ | ⟨_, _, rfl⟩ <;> rfl
    have un : u.nleaf = s.nleaf := by rcases take_cases hu with ⟨_, _, rfl⟩ | ⟨_, _, rfl⟩ <;> rfl
    obtain ⟨_, r1, ⟨r2, r3⟩, _⟩ := qu
    change u.srcHead.toNat ≤ u.nleaf.toNat at r1
    change u.nleaf.toNat ≤ u.tgtHead.toNat at r2
    change u.tgtHead.toNat ≤ u.tgtTail.toNat at r3
    rw [ut] at r3
    rw [un] at r1 r2
    rcases take_cases hv with ⟨hne, rfl, _⟩ | ⟨hne, rfl, _⟩
    · have : u.srcHead.toNat ≠ s.nleaf.toNat := fun e => hne (BitVec.eq_of_toNat_eq (e.trans (by rw [← un])))
      show u.srcHead.toNat < _; omega
    · have : u.tgtHead.toNat ≠ s.tgtTail.toNat := fun e => hne (BitVec.eq_of_toNat_eq (e.trans (by rw [← ut])))
      show u.tgtHead.toNat < _; omega
  obtain ⟨k1, k2, k3, k4, k5⟩ := gv
  rw [hvt] at k5
  have nA : nodeAt v' a = nodeAt v a := k5 _ hat
  have nB : nodeAt v' b = nodeAt v b := k5 _ hbt
  have hw' : writeMerged { v' with tbB := b } =
      .ok { setNode v.tgtTail ⟨false, 0, (nodeAt v a).weight + (nodeAt v b).weight, a, b⟩ { v' with tbB := b } with
            tgtTail := v.tgtTail + 1 } := by
    have : ∀ w : State, nodeAt w a = nodeAt v a → nodeAt w b = nodeAt v b → w.tbA = a → w.tbB = b → w.tgtTail = v.tgtTail →
        writeMerged w =
          .ok { setNode v.tgtTail ⟨false, 0, (nodeAt v a).weight + (nodeAt v b).weight, a, b⟩ w with tgtTail := v.tgtTail + 1 } := by
      intro w x1 x2 x3 x4 x5
      refine writeMerged_ok.mpr ⟨?_, ?_, ?_, ?_⟩
      · rw [x3]; exact hva ▸ w1
      · rw [x4]; exact w2
      · rw [x5]; exact w3
      · rw [x3, x4, x5, x1, x2]
    exact this _ nA nB hva' rfl k4
  refine ⟨_, mergeOnce_ok.mpr ⟨a, u', b, v', hu', hv', hw'⟩, k1, k2, k3, rfl, ?_⟩
  intro i hi
  have eA : nodeAt { v with tbB := b } v.tbA = nodeAt v a := by rw [hva]; rfl
  have eB : nodeAt { v with tbB := b } b = nodeAt v b := rfl
  change i < (v.tgtTail + 1).toNat at hi
  rw [hvt, idx_succ (by omega)] at hi
  refine (nodeEntry_setNode v.tgtTail _ { v' with tbB := b } i).trans (Eq.trans ?_ (nodeEntry_setNode v.tgtTail _ { v with tbB := b } i).symm)
  by_cases hi2 : i = v.tgtTail.toNat
  · rw [if_pos hi2, if_pos hi2]
    show _ = NodeEntry.mk false 0 ((nodeAt { v with tbB := b } v.tbA).weight + (nodeAt { v with tbB := b } b).weight) v.tbA b
    rw [eA, eB, hva]
  · rw [if_neg hi2, if_neg hi2]
    refine k5 i ?_
    rw [hvt] at hi2; omega

end Sys2Proof.Machine
end

