-- ==== Sys2Proof/Tests/Slice0.lean ====
section
/-!
SUPPORT. Tests with expected results from the spec's encodings and from the vectors of 95_test_vectors.md, and, for every statement of
Certificates/Slice0/Obligations.lean that has hypotheses, a witness that meets them.
-/

namespace Sys2Proof.Machine.Tests

/-! ## States of Scenario A of 95_test_vectors.md 1.2 (and Scenario B of 1.3) -/

/-- A leaf entry. -/
def leaf (x : Symbol) (w : Word) : NodeEntry := ⟨true, x, w, 0, 0⟩

/-- An internal entry. -/
def int (w : Word) (l r : NodeIdx) : NodeEntry := ⟨false, 0, w, l, r⟩

/-- Scenario A after its nine SYM. -/
def countedA : State := { State.reset with freq := [(97, 3), (98, 4), (99, 2)], total := 9 }

/-- Scenario A after FIN. -/
def sortedA : State := { countedA with node := [(0, leaf 99 2), (1, leaf 97 3), (2, leaf 98 4)], nleaf := 3, phase := 1 }

/-- Scenario A after BUILD. -/
def treeA : State :=
  { sortedA with node := sortedA.node ++ [(3, int 5 0 1), (4, int 9 2 3)], srcHead := 3, tgtHead := 4, tgtTail := 5, tbA := 2, tbB := 3,
                 tbState := 4, root := 4, phase := 2 }

/-- Scenario A after TABLE: a = "11", b = "0", c = "10". -/
def readyA : State :=
  { treeA with code := [(97, ⟨true, 2, 3#127 <<< 125⟩), (98, ⟨true, 1, 0⟩), (99, ⟨true, 2, 1#127 <<< 126⟩)], phase := 3 }

/-- Scenario A after TABLE, DBEG and one byte whose bits ended on node 3 (95_test_vectors.md U4). -/
def sessionA : State := { readyA with uphase := 2, cursor := 3 }

/-- Scenario B after its four SYM. -/
def countedB : State := { State.reset with freq := [(97, 4)], total := 4 }

/-- A faulted state (95_test_vectors.md P21). -/
def faultedP21 : State := { State.reset with bitbuf := [true], err := 2, errcmd := 0x41020000 }

/-- The outcome is a next state that passes a check. -/
def nextIs (r : Result) (check : State → Bool) : Bool :=
  match r with
  | .next t => check t
  | .fault _ => false
  | .refused _ => false

/-! ## Well-formedness: each check refuses an ill-formed term (30_encoding.md R85) -/

theorem test_wf_csr_number : (Instr.rdcsr 6).wf = false ∧ (Instr.rdcsr 255).wf = false ∧ (Instr.rdcsr 5).wf = true := by decide
theorem test_wf_node_index_rdnode : (Instr.rdnode 255).wf = false ∧ (Instr.rdnode 254).wf = true := by decide
theorem test_wf_node_index_rdwt : (Instr.rdwt 255).wf = false ∧ (Instr.rdwt 254).wf = true := by decide

/-- An ill-formed term acts as its illegal word (notes/assumptions/11.md). -/
theorem test_ill_formed_term : nextIs (exec (.rdcsr 6) State.reset) (fun t => decide (t.err = 5 ∧ t.errcmd = 0x08060000)) = true := by decide

/-! ## Decoding: one word per command, written bit by bit from 30_encoding.md R82 and R84: OPC, A, B -/

theorem test_decode_nop : decode 0b00000000_00000000_0000000000000000 = .ok .nop := by decide
theorem test_decode_clr : decode 0b00000001_00000000_0000000000000000 = .ok .clr := by decide
theorem test_decode_rdcsr : decode 0b00001000_00000100_0000000000000000 = .ok (.rdcsr 4) := by decide
theorem test_decode_rdnode : decode 0b00001001_11111110_0000000000000000 = .ok (.rdnode 254) := by decide
theorem test_decode_rdwt : decode 0b00001010_10000001_0000000000000000 = .ok (.rdwt 129) := by decide
theorem test_decode_rdlen : decode 0b00001011_01111111_0000000000000000 = .ok (.rdlen 127) := by decide
theorem test_decode_rdcode : decode 0b00001100_01000001_0000000000000010 = .ok (.rdcode 65 2) := by decide
theorem test_decode_sym : decode 0b00010000_01100001_0000000000000000 = .ok (.sym 97) := by decide
theorem test_decode_addf : decode 0b00010001_00000001_1000000000000111 = .ok (.addf 1 0x8007) := by decide
theorem test_decode_fin : decode 0b00010010_00000000_0000000000000000 = .ok .fin := by decide
theorem test_decode_build : decode 0b00100000_00000000_0000000000000000 = .ok .build := by decide
theorem test_decode_table : decode 0b00110000_00000000_0000000000000000 = .ok .table := by decide
theorem test_decode_enc : decode 0b01000000_00100010_0000000000000000 = .ok (.enc 34) := by decide
theorem test_decode_pbit : decode 0b01000001_11111111_0000000000000000 = .ok (.pbit 255) := by decide
theorem test_decode_pack : decode 0b01000010_00000000_0000000000000000 = .ok .pack := by decide
theorem test_decode_dbeg : decode 0b01010000_00000000_0000000000000000 = .ok .dbeg := by decide
theorem test_decode_ubyte : decode 0b01010001_10110111_0000000000000000 = .ok (.ubyte 0xB7) := by decide
theorem test_decode_dend : decode 0b01010010_00000000_0000000000000000 = .ok .dend := by decide

/-- One word of 95_test_vectors.md 2.7 for each reason of R85. -/
theorem test_decode_refuses :
    decode 0x7F000000 = .error .unassignedOpc ∧ decode 0x01000001 = .error .mustBeZero ∧ decode 0x10800000 = .error .mustBeZero ∧
      decode 0x0C450004 = .error .mustBeZero ∧ decode 0x08060000 = .error .csrNumber ∧ decode 0x0AFF0000 = .error .nodeIndex := by decide

/-- The table's numbering of bits is the word's own (notes/assumptions/15.md). -/
theorem test_decode_table_word : decodeTableWord 32 0x1166002D = some (.addf 102 45) ∧ decodeTableWord 32 0x10800000 = none := by decide

/-! ## The assembler (30_encoding.md R88, R89) -/

/-- The text of the first example line assembles to its word (30_encoding.md R88). -/
theorem test_assemble_addf : assembleWords "ADDF 'f', 45".toList = some [0x1166002D] := by decide

/-! ## Service commands (45_system.md) -/

theorem test_nop_in_fault : nextIs (exec .nop faultedP21) (fun t => decide (t = faultedP21)) = true := by decide

/-- Vector S7 and S8: everything cleared, the traces kept. -/
theorem test_clr_keeps_traces :
    nextIs (exec .clr { readyA with outb := [0x7F, 0x0A], err := 2, errcmd := 0x41020000 })
      (fun t => decide (t = { State.reset with outb := [0x7F, 0x0A] })) = true := by decide

/-- Scenario A: STATUS after TABLE, QPTR, and the identification word of vector S1. -/
theorem test_rdcsr :
    nextIs (exec (.rdcsr 0) readyA) (fun t => decide (t.rsp = [0x00040330])) = true ∧
      nextIs (exec (.rdcsr 4) readyA) (fun t => decide (t.rsp = [0x04050403])) = true ∧
      nextIs (exec (.rdcsr 5) State.reset) (fun t => decide (t.rsp = [0x48550180])) = true := by decide

/-- Vector P22: RDCSR executes while faulted. -/
theorem test_rdcsr_in_fault :
    nextIs (exec (.rdcsr 1) faultedP21) (fun t => decide (t.rsp = [0x41020000])) = true ∧
      nextIs (exec (.rdcsr 3) faultedP21) (fun t => decide (t.rsp = [1])) = true := by decide

/-- Vector S4. -/
theorem test_rdnode :
    nextIs (exec (.rdnode 4) treeA) (fun t => decide (t.rsp = [0x00000203])) = true ∧
      nextIs (exec (.rdnode 0) treeA) (fun t => decide (t.rsp = [0x01630000])) = true := by decide

/-- Vectors S4 and S3. -/
theorem test_rdwt :
    nextIs (exec (.rdwt 3) treeA) (fun t => decide (t.rsp = [5])) = true ∧
      nextIs (exec (.rdwt 0) State.reset) (fun t => decide (t.rsp = [0])) = true := by decide

/-- Vector S5. -/
theorem test_rdlen :
    nextIs (exec (.rdlen 97) readyA) (fun t => decide (t.rsp = [0x00000102])) = true ∧
      nextIs (exec (.rdlen 122) readyA) (fun t => decide (t.rsp = [0])) = true := by decide

/-- The chunks of a code of thirty-three ones, and chunk 3 with its padding 0 (95_test_vectors.md Program 5; 45_system.md R206). -/
theorem test_rdcode_chunks :
    codeChunk (entryOf (List.replicate 33 true)).bits 0 = 0xFFFFFFFF ∧ codeChunk (entryOf (List.replicate 33 true)).bits 1 = 0x80000000 ∧
      codeChunk (BitVec.allOnes 127) 3 = 0xFFFFFFFE := by decide

theorem test_rdcode : nextIs (exec (.rdcode 97 0) readyA) (fun t => decide (t.rsp = [0xC0000000])) = true := by decide

/-! ## The frequency analyser (40_frequency.md) -/

/-- Vectors F1 and F7. -/
theorem test_sym :
    nextIs (exec (.sym 97) State.reset) (fun t => decide (t = { State.reset with freq := [(97, 1)], total := 1 })) = true ∧
      nextIs (exec (.sym 97) sortedA) (fun t => decide (t = { sortedA with err := 6, errcmd := 0x10610000 })) = true := by decide

/-- Vector F11. -/
theorem test_sym_overflow :
    nextIs (exec (.sym 2) { State.reset with total := 0xFFFFFFFF }) (fun t => decide (t.err = 9 ∧ t.errcmd = 0x10020000 ∧ t.freq = [])) = true := by
  decide

/-- Vector F2, and F3's ADDF of zero. -/
theorem test_addf :
    nextIs (exec (.addf 102 45) State.reset) (fun t => decide (t.freq = [(102, 45)] ∧ t.total = 45)) = true ∧
      nextIs (exec (.addf 65 0) State.reset) (fun t => decide (t = State.reset)) = true := by decide

/-- Vector F10. -/
theorem test_addf_at_the_limit :
    nextIs (exec (.addf 1 0) { State.reset with total := 0xFFFFFFFF }) (fun t => decide (t.err = 0 ∧ t.total = 0xFFFFFFFF)) = true := by decide

/-- Vectors F4 and F5: no record, and the synthetic record that wraps to symbol 0. -/
theorem test_fin_corners :
    nextIs (exec .fin State.reset) (fun t => decide (t.err = 1 ∧ t.errcmd = 0x12000000 ∧ t.phase = 0)) = true ∧
      nextIs (exec .fin { State.reset with freq := [(127, 2)], total := 2 })
        (fun t => decide (t.node = [(0, leaf 0 0), (1, leaf 127 2)] ∧ t.nleaf = 2 ∧ t.status = 0x00000210)) = true := by decide

/-- Scenario A: the sorted list. -/
theorem test_fin_sorts : nextIs (exec .fin countedA) (fun t => decide (t = sortedA)) = true := by decide

/-! ## The tree builder (41_treebuilder.md) -/

/-- Scenario A: the table of its merges. -/
theorem test_build : nextIs (exec .build sortedA) (fun t => decide (t = treeA)) = true := by decide

/-- Vector T1: on a tie of source and target the source is preferred. -/
theorem test_build_tie :
    nextIs (exec .build { State.reset with node := [(0, leaf 65 1), (1, leaf 66 1), (2, leaf 67 2)], nleaf := 3, phase := 1 })
      (fun t => decide (nodeAt t 3 = int 2 0 1 ∧ nodeAt t 4 = int 4 2 3 ∧ t.qptr = 0x04050403)) = true := by decide

/-! ## The code table (42_codetable.md) -/

/-- Scenario A: its three codes. -/
theorem test_table : nextIs (exec .table treeA) (fun t => decide (t = readyA)) = true := by decide

/-- Vector K8: TABLE before BUILD. -/
theorem test_table_out_of_phase : nextIs (exec .table sortedA) (fun t => decide (t.err = 6 ∧ t.errcmd = 0x30000000)) = true := by decide

/-! ## The encode path and bit packer (43_bitpacker.md), with the buffer capacities of the vectors -/

/-- Scenario A, and vector P26: the second code does not fit in 3 bits. -/
theorem test_enc_rule :
    (encodeSymbol 3 0x40610000 97 readyA).bitbuf = [true, true] ∧
      encodeSymbol 3 0x40610000 97 { readyA with bitbuf := [true, true] } =
        { readyA with bitbuf := [true, true], err := 8, errcmd := 0x40610000 } := by decide

/-- Vector P28: ENC before TABLE. -/
theorem test_enc_out_of_phase : nextIs (exec (.enc 97) treeA) (fun t => decide (t.err = 6 ∧ t.errcmd = 0x40610000)) = true := by decide

/-- Vector P25: the fifth bit does not fit in 4 bits. -/
theorem test_pbit_rule :
    (appendRawBit 4 0x41010000 1 { State.reset with bitbuf := [true, true, true, true] }).err = 8 ∧
      (appendRawBit 4 0x41010000 1 { State.reset with bitbuf := [true, true, true] }).bitbuf = [true, true, true, true] := by decide

/-- Vector P23. -/
theorem test_pbit_invalid : nextIs (exec (.pbit 255) State.reset) (fun t => decide (t.err = 2 ∧ t.errcmd = 0x41FF0000)) = true := by decide

/-- Vector P5. -/
theorem test_pack :
    nextIs (exec .pack { State.reset with bitbuf := [true, false, true, true, false] })
      (fun t => decide (t = { State.reset with outb := [0x36] })) = true := by decide

set_option maxRecDepth 2000 in
/-- Vector P8: a payload of whole bytes still gets a padding byte. -/
theorem test_pack_whole_bytes :
    nextIs (exec .pack { State.reset with bitbuf := [true, false, true, true, false, false, true, false] })
      (fun t => decide (t.outb = [0x01, 0xB2])) = true := by decide

/-! ## The unpacker and decoder (44_unpacker_decoder.md) -/

/-- Scenario A: DBEG, and vector U8. -/
theorem test_dbeg :
    nextIs (exec .dbeg readyA) (fun t => decide (t = { readyA with uphase := 1, cursor := 4 })) = true ∧
      nextIs (exec .dbeg sessionA) (fun t => decide (t.err = 6 ∧ t.errcmd = 0x50000000)) = true := by decide

/-- Scenario A: UBYTE 7F as first byte emits "aaa"; UBYTE 0A as a later byte emits "bbbbcc". -/
theorem test_ubyte :
    nextIs (exec (.ubyte 0x7F) { readyA with uphase := 1, cursor := 4 })
        (fun t => decide (t.outs = [97, 97, 97] ∧ t.uphase = 2 ∧ t.cursor = 4)) = true ∧
      nextIs (exec (.ubyte 0x0A) { readyA with uphase := 2, cursor := 4 })
        (fun t => decide (t.outs = [98, 98, 98, 98, 99, 99] ∧ t.cursor = 4)) = true := by decide

/-- Vector U7. -/
theorem test_ubyte_no_sentinel :
    nextIs (exec (.ubyte 0) { readyA with uphase := 1, cursor := 4 })
      (fun t => decide (t = { readyA with uphase := 1, cursor := 4, err := 3, errcmd := 0x51000000 })) = true := by decide

/-- Vectors U1 and U4. -/
theorem test_dend :
    nextIs (exec .dend { readyA with uphase := 2, cursor := 4 }) (fun t => decide (t.status = 0x04040330)) = true ∧
      nextIs (exec .dend sessionA) (fun t => decide (t.status = 0x030403B3 ∧ t.errcmd = 0x52000000)) = true := by decide

/-! ## Steps (30_encoding.md R87; notes/assumptions/1.md) -/

/-- The word placed by `withFetchWord` is the one the next step runs. -/
theorem test_step_runs_fetch_word :
    nextIs (step (State.reset.withFetchWord 32 0x1166002D)) (fun t => decide (t.freq = [(102, 45)] ∧ t.port = [])) = true := by decide

/-- Hardware reset empties the traces and keeps what the host has still to send. -/
theorem test_step_reset :
    nextIs (step { readyA with outb := [1], port := [.rst, .cmd 0] }) (fun t => decide (t = { State.reset with port := [.cmd 0] })) = true := by
  decide

/-- Vector of 95_test_vectors.md 2.7: an illegal word. -/
theorem test_step_illegal :
    nextIs (step { State.reset with port := [.cmd 0x7F000000] }) (fun t => decide (t = { State.reset with err := 5, errcmd := 0x7F000000 })) = true := by
  decide

/-! ## Witnesses: for each statement with hypotheses, a state and operands that meet them together, each clause at a boundary -/

/-! ### Encoding -/

theorem witness_DecodeInvertsEncode : (Instr.rdcsr 5).wf = true ∧ (Instr.rdnode 254).wf = true ∧ (Instr.addf 127 0xFFFF).wf = true := by decide

theorem witness_EncodeInvertsDecode : decode 0x0C7F0003 = .ok (.rdcode 127 3) := by decide

theorem witness_DecoderFollowsTheTable :
    decode 0x08050000 = .ok (.rdcsr 5) ∧ (⟨"RDCSR", 0x08000000, 0xFFF8FFFF, 5⟩ : OpRow) ∈ opRows ∧
      OpRow.selects ⟨"RDCSR", 0x08000000, 0xFFF8FFFF, 5⟩ 0x08050000 = true := by decide

theorem witness_OneRowPerWord :
    (⟨"PBIT", 0x41000000, 0xFF00FFFF, 255⟩ : OpRow) ∈ opRows ∧ OpRow.selects ⟨"PBIT", 0x41000000, 0xFF00FFFF, 255⟩ 0x41FF0000 = true := by
  decide

/-! ### Steps and faults -/

theorem witness_StepRunsTheDecodedCommand :
    ({ readyA with port := [.cmd 0x40620000, .rst] } : State).port = .cmd 0x40620000 :: [.rst] ∧ decode 0x40620000 = .ok (.enc 98) := by
  decide

theorem witness_IllegalWordsFaultOrAreIgnored :
    decode 0x08060000 = .error .csrNumber ∧
      (({ State.reset with port := [.cmd 0x08060000] } : State).port = [.cmd 0x08060000] ∧ State.reset.err = 0) ∧
      (({ faultedP21 with port := [.cmd 0x08060000] } : State).port = [.cmd 0x08060000] ∧ faultedP21.err ≠ 0) := by decide

theorem witness_IdleStepAndHardwareReset :
    readyA.port = [] ∧ ({ faultedP21 with port := [.rst, .cmd 0] } : State).port = .rst :: [.cmd 0] := by decide

theorem witness_FaultedBlockIgnoresWork : isService .pack = false ∧ faultedP21.err ≠ 0 := by decide

/-- The phases on each side of every clause. -/
theorem witness_OutOfPhaseRaisesSequenceError :
    (sortedA.err = 0 ∧ sortedA.phase ≠ 0 ∧ sortedA.phase.toNat < 2 ∧ sortedA.uphase = 0) ∧
      (State.reset.err = 0 ∧ State.reset.phase ≠ 1 ∧ State.reset.phase ≠ 2 ∧ State.reset.phase ≠ 3) ∧
      (sessionA.err = 0 ∧ 2 ≤ sessionA.phase.toNat ∧ sessionA.uphase ≠ 0) := by decide

theorem witness_FaultsArePrecise :
    State.reset.err = 0 ∧ exec .fin State.reset = .next { State.reset with err := 1, errcmd := 0x12000000 } ∧
      ({ State.reset with err := 1, errcmd := 0x12000000 } : State).err ≠ 0 := ⟨by decide, rfl, by decide⟩

/-- One step in each of the three cases. -/
theorem witness_FirstErrorStaysUntilClear :
    faultedP21.err ≠ 0 ∧ step { faultedP21 with port := [.rst] } = .next State.reset ∧
      step { faultedP21 with port := [.cmd 0x01000000] } = .next State.reset ∧
      step { faultedP21 with port := [.cmd 0x42000000] } = .next faultedP21 := ⟨by decide, rfl, rfl, rfl⟩

theorem witness_ErrorCodesByCommand :
    sortedA.err = 0 ∧ (Instr.sym 97).wf = true ∧ exec (.sym 97) sortedA = .next { sortedA with err := 6, errcmd := 0x10610000 } :=
  ⟨by decide, by decide, rfl⟩

/-- The fault rises at PBIT 2 and falls at CLR. -/
theorem witness_FaultOutputFollowsErr :
    (exec .clr faultedP21 = .next State.reset ∧ faultedP21.faultO = 1 ∧ State.reset.faultO = 0) ∧
      (exec (.pbit 2) State.reset = .next { State.reset with err := 2, errcmd := 0x41020000 } ∧
        ({ State.reset with err := 2, errcmd := 0x41020000 } : State).faultO = 1) := ⟨⟨rfl, rfl, rfl⟩, rfl, rfl⟩

/-! ### Service commands -/

/-- OPC 0 with operand A set, and with the lowest bit set. -/
theorem witness_NopChangesNothing :
    ((0x00010000 : Word).extractLsb' 24 8 = 0 ∧ (0x00010000 : Word) ≠ 0) ∧
      ((0x00000001 : Word).extractLsb' 24 8 = 0 ∧ (0x00000001 : Word) ≠ 0) := by decide

theorem witness_RdcsrAppendsTheRegister :
    (5 : Byte) < 6 ∧ (5 : Byte) < 255 ∧ (0 : Byte) ≤ 5 ∧ (1 : Byte) ≤ 5 ∧ (2 : Byte) ≤ 5 ∧ (3 : Byte) ≤ 5 ∧ (4 : Byte) ≤ 5 ∧ (5 : Byte) ≤ 5 := by decide

theorem witness_RdnodeAppendsTheFields : (0 : NodeIdx) ≤ 254 ∧ (254 : NodeIdx) ≤ 254 := by decide

theorem witness_RdwtAppendsTheWeight : (0 : NodeIdx) ≤ 254 ∧ (254 : NodeIdx) ≤ 254 := by decide

/-- The clauses of RDCODE's bits: the last code bit and the bit after it, both in chunk 3. -/
theorem witness_RdcodeAppendsTheChunk :
    30 < 32 ∧ 32 * (3 : BitVec 2).toNat + 30 < 127 ∧ 31 < 32 ∧ ¬ 32 * (3 : BitVec 2).toNat + 31 < 127 := by decide

/-! ### The frequency analyser -/

/-- TOTAL at the last value that SYM accepts, and the first it refuses. -/
theorem witness_SymCountsOneSymbol :
    ({ State.reset with total := 0xFFFFFFFE } : State).err = 0 ∧ ({ State.reset with total := 0xFFFFFFFE } : State).phase = 0 ∧
      ({ State.reset with total := 0xFFFFFFFE } : State).total.toNat + 1 ≤ 2 ^ 32 - 1 := by decide

theorem witness_AddfAddsTheCount :
    ({ State.reset with total := 0xFFFF0000 } : State).err = 0 ∧ ({ State.reset with total := 0xFFFF0000 } : State).phase = 0 ∧
      ({ State.reset with total := 0xFFFF0000 } : State).total.toNat + (0xFFFF : BitVec 16).toNat ≤ 2 ^ 32 - 1 := by decide

theorem witness_CountOverflowRaised :
    ({ State.reset with total := 0xFFFFFFFF } : State).err = 0 ∧ ({ State.reset with total := 0xFFFFFFFF } : State).phase = 0 ∧
      ({ State.reset with total := 0xFFFFFFFF } : State).total.toNat = 2 ^ 32 - 1 ∧
      ({ State.reset with total := 0xFFFFFFFF } : State).total.toNat + (1 : BitVec 16).toNat > 2 ^ 32 - 1 := by decide

theorem witness_AddfOrderDoesNotMatter :
    MemoryForm countedA ∧ countedA.err = 0 ∧ countedA.phase = 0 ∧
      countedA.total.toNat + (0xFFFF : BitVec 16).toNat + (1 : BitVec 16).toNat ≤ 2 ^ 32 - 1 := by decide

set_option maxRecDepth 4000 in
theorem witness_FinOfNothingIsEmptyInput :
    (State.reset.err = 0 ∧ State.reset.phase = 0 ∧ ∀ x, freqAt State.reset x = 0) ∧
      (countedA.err = 0 ∧ countedA.phase = 0 ∧ countedA.total.toNat = countSum countedA) :=
  ⟨⟨rfl, rfl, fun _ => rfl⟩, rfl, rfl, rfl⟩

theorem witness_FinStoresTheSortedLeaves :
    (countedB.err = 0 ∧ countedB.phase = 0 ∧ ∃ x, freqAt countedB x ≠ 0) ∧
      (countedA.err = 0 ∧ countedA.phase = 0 ∧ (∃ x, freqAt countedA x ≠ 0) ∧
        ∃ x y, x ≠ y ∧ freqAt countedA x ≠ 0 ∧ freqAt countedA y ≠ 0) :=
  ⟨⟨rfl, rfl, 97, by decide⟩, rfl, rfl, ⟨97, by decide⟩, 97, 98, by decide⟩

theorem witness_FinInjectsTheSyntheticRecord :
    countedB.err = 0 ∧ countedB.phase = 0 ∧ freqAt countedB 97 ≠ 0 ∧ ∀ y, y ≠ 97 → freqAt countedB y = 0 :=
  ⟨rfl, rfl, by decide, by decide⟩

/-! ### The tree builder -/

/-- Only source holds nodes, only target does, both do. -/
theorem witness_TakeFollowsTheTieBreak :
    ((seed sortedA).srcHead ≠ (seed sortedA).nleaf ∧ (seed sortedA).tgtHead = (seed sortedA).tgtTail) ∧
      (({ treeA with tgtHead := 4 } : State).srcHead = treeA.nleaf ∧ ({ treeA with tgtHead := 4 } : State).tgtHead ≠ treeA.tgtTail) ∧
      (({ treeA with srcHead := 2, tgtHead := 3 } : State).srcHead ≠ treeA.nleaf ∧
        ({ treeA with srcHead := 2, tgtHead := 3 } : State).tgtHead ≠ treeA.tgtTail ∧
        ({ treeA with srcHead := 2, tgtHead := 3 } : State).srcHead ≠ 255 ∧
        ({ treeA with srcHead := 2, tgtHead := 3 } : State).tgtHead ≠ 255) := by decide

theorem witness_MergedNodeIsWrittenAtTheTail :
    ({ sortedA with tbA := 0, tbB := 1, tgtTail := 254 } : State).tbA ≠ 255 ∧
      ({ sortedA with tbA := 0, tbB := 1, tgtTail := 254 } : State).tbB ≠ 255 ∧
      ({ sortedA with tbA := 0, tbB := 1, tgtTail := 254 } : State).tgtTail ≠ 255 := by decide

theorem witness_BuildCompletes :
    (sortedA.err = 0 ∧ sortedA.phase = 1 ∧ 2 ≤ sortedA.nleaf.toNat ∧ sortedA.nleaf.toNat ≤ 128) ∧
      (2 ≤ ({ sortedA with nleaf := 2 } : State).nleaf.toNat ∧ ({ sortedA with nleaf := 128 } : State).nleaf.toNat ≤ 128) := by decide

theorem build_sortedA : exec .build sortedA = .next treeA := rfl

theorem witness_BuildMakesAStrictTree :
    sortedA.err = 0 ∧ sortedA.phase = 1 ∧ 2 ≤ sortedA.nleaf.toNat ∧ sortedA.nleaf.toNat ≤ 128 ∧
      (∀ i, i < sortedA.nleaf.toNat → (nodeEntry sortedA i).leaf = true) ∧ exec .build sortedA = .next treeA :=
  ⟨rfl, rfl, by decide, by decide, by decide, build_sortedA⟩

theorem witness_RootWeightIsTheSumOfTheLeaves :
    sortedA.err = 0 ∧ sortedA.phase = 1 ∧ 2 ≤ sortedA.nleaf.toNat ∧ sortedA.nleaf.toNat ≤ 128 ∧
      weightSum sortedA sortedA.nleaf.toNat ≤ 2 ^ 32 - 1 ∧ exec .build sortedA = .next treeA :=
  ⟨rfl, rfl, by decide, by decide, by decide, build_sortedA⟩

/-- The other state holds other counts, traces and entries above the leaves. -/
theorem witness_BuildDependsOnTheLeavesAlone :
    sortedA.err = 0 ∧ sortedA.phase = 1 ∧ 2 ≤ sortedA.nleaf.toNat ∧ sortedA.nleaf.toNat ≤ 128 ∧
      (∀ i, i < sortedA.nleaf.toNat → nodeEntry { sortedA with freq := [], outb := [1], node := sortedA.node ++ [(9, leaf 1 1)] } i =
        nodeEntry sortedA i) ∧
      exec .build sortedA = .next treeA ∧
      ∃ t, exec .build { sortedA with freq := [], outb := [1], node := sortedA.node ++ [(9, leaf 1 1)] } = .next t :=
  ⟨rfl, rfl, by decide, by decide, by decide, build_sortedA, _, rfl⟩

theorem witness_FsmReachesTheStateOfTheLoop : sortedA.tbState = tbIdle ∧ buildTree sortedA = .ok treeA := ⟨rfl, rfl⟩

/-! ### The code table -/

/-- The tree of Scenario A is strict. -/
theorem treeA_shape : TreeShape treeA where
  leafCount := by decide
  rootIndex := by decide
  leaves := by decide
  internal := by
    intro i h1 h2
    change 3 ≤ i at h1
    change i ≤ 4 at h2
    interval_cases i <;> decide
  parent := by
    intro j h
    change j < 4 at h
    interval_cases j
    · exact ⟨3, by decide, by decide, .inl rfl⟩
    · exact ⟨3, by decide, by decide, .inr rfl⟩
    · exact ⟨4, by decide, by decide, .inl rfl⟩
    · exact ⟨4, by decide, by decide, .inr rfl⟩
  oneParent := by
    intro i i' j h1 h2 h3 h4 h5 h6
    change 3 ≤ i at h1
    change i ≤ 4 at h2
    change 3 ≤ i' at h3
    change i' ≤ 4 at h4
    interval_cases i <;> interval_cases i' <;> first | rfl | (rcases h5 with rfl | rfl <;> rcases h6 with h6 | h6 <;> exact absurd h6 (by decide))

/-- Its leaves are sorted. -/
theorem treeA_sorted : LeavesSorted treeA := by
  intro i j h1 h2
  change j < 3 at h2
  interval_cases j <;> interval_cases i <;> decide

theorem witness_TableWritesThePathOfEveryLeaf : treeA.err = 0 ∧ treeA.phase = 2 ∧ TreeShape treeA ∧ LeavesSorted treeA :=
  ⟨rfl, rfl, treeA_shape, treeA_sorted⟩

theorem witness_EntryHoldsTheCode :
    (1 ≤ [true].length ∧ [true].length ≤ 127) ∧ (1 ≤ (List.replicate 127 true).length ∧ (List.replicate 127 true).length ≤ 127) := by simp

/-- Its codes are the paths of its leaves. -/
theorem readyA_paths : CodesArePaths readyA where
  path := by
    intro x hx
    have h : ∀ y : Symbol, (codeAt readyA y).valid = true → y = 97 ∨ y = 98 ∨ y = 99 := by decide
    rcases h x hx with rfl | rfl | rfl
    · exact ⟨by decide, 1, by decide⟩
    · exact ⟨by decide, 2, by decide⟩
    · exact ⟨by decide, 0, by decide⟩
  complete := by decide

theorem witness_NoCodeIsAPrefixOfAnother :
    CodesArePaths readyA ∧ (97 : Symbol) ≠ 99 ∧ (codeAt readyA 97).valid = true ∧ (codeAt readyA 99).valid = true :=
  ⟨readyA_paths, by decide, by decide, by decide⟩

/-! ### The encode path and bit packer -/

theorem one_le_bitbufCap : 1 ≤ Config.bitbufCap := Nat.le_add_left 1 _

/-- A buffer that holds as many bits as it can, after TABLE. -/
def fullA : State := { readyA with bitbuf := List.replicate Config.bitbufCap false }

theorem fullA_length : fullA.bitbuf.length = Config.bitbufCap := List.length_replicate

/-- The empty buffer takes a code of one bit, whatever its capacity. -/
theorem witness_EncAppendsTheCode :
    readyA.err = 0 ∧ readyA.phase = 3 ∧ (codeAt readyA 98).valid = true ∧
      readyA.bitbuf.length + (codeAt readyA 98).len.toNat ≤ Config.bitbufCap :=
  ⟨rfl, rfl, by decide, one_le_bitbufCap⟩

theorem witness_EncErrors :
    (readyA.err = 0 ∧ readyA.phase = 3 ∧ (codeAt readyA 65).valid = false) ∧
      (fullA.err = 0 ∧ fullA.phase = 3 ∧ (codeAt fullA 98).valid = true ∧
        fullA.bitbuf.length + (codeAt fullA 98).len.toNat > Config.bitbufCap) :=
  ⟨by decide, rfl, rfl, rfl, by rw [fullA_length]; exact Nat.lt_succ_self _⟩

/-- The values 1 and 2 stand on each side of the limit; the buffer is empty, and full. -/
theorem witness_PbitAppendsOrRaises :
    ((1 : Byte).toNat ≤ 1 ∧ State.reset.err = 0 ∧ State.reset.bitbuf.length + 1 ≤ Config.bitbufCap) ∧
      ((1 : Byte).toNat ≤ 1 ∧ fullA.err = 0 ∧ fullA.bitbuf.length + 1 > Config.bitbufCap) ∧ 1 < (2 : Byte).toNat :=
  ⟨⟨by decide, rfl, one_le_bitbufCap⟩, ⟨by decide, rfl, by rw [fullA_length]; exact Nat.lt_succ_self _⟩, by decide⟩

/-- Scenario A after its first ENC. -/
def packA : State := { readyA with bitbuf := [true, true] }

theorem witness_PackEmitsTheWireFormat : packA.err = 0 ∧ packA.acc = 0 ∧ packA.nbits = 0 := by decide

theorem witness_PackOfNothingEmitsOneByte : readyA.err = 0 ∧ readyA.acc = 0 ∧ readyA.nbits = 0 ∧ readyA.bitbuf = [] := by decide

theorem witness_UnpackingUndoesPacking :
    packA.err = 0 ∧ packA.acc = 0 ∧ packA.nbits = 0 ∧
      exec .pack packA = .next { packA with outb := packA.outb ++ (7 : Byte) :: [], bitbuf := [] } := ⟨rfl, rfl, rfl, rfl⟩

/-! ### The unpacker and decoder -/

/-- PHASE 2 is the least that has a tree, PHASE 1 the greatest that has none; and a session may be open. -/
theorem witness_DbegOpensASession :
    (treeA.err = 0 ∧ 2 ≤ treeA.phase.toNat ∧ treeA.uphase = 0) ∧ (sortedA.err = 0 ∧ ¬ (2 ≤ sortedA.phase.toNat ∧ sortedA.uphase = 0)) ∧
      (sessionA.err = 0 ∧ ¬ (2 ≤ sessionA.phase.toNat ∧ sessionA.uphase = 0)) := by decide

/-- From node 3 the bit 1 leads to a leaf; from the root it leads to node 3, which is internal. -/
theorem witness_DecodeBitWalksOneEdge :
    (sessionA.cursor ≠ 255 ∧ (1 : NodeIdx) = (if true then (nodeAt sessionA sessionA.cursor).right else (nodeAt sessionA sessionA.cursor).left) ∧
        (1 : NodeIdx) ≠ 255 ∧ (nodeAt sessionA 1).leaf = true) ∧
      (({ sessionA with cursor := 4 } : State).cursor ≠ 255 ∧ (3 : NodeIdx) = (nodeAt { sessionA with cursor := 4 } 4).right ∧
        (3 : NodeIdx) ≠ 255 ∧ (nodeAt { sessionA with cursor := 4 } 3).leaf = false) := by decide

theorem sessionA_shape : TreeShape sessionA := TreeShape.congr (s := treeA) rfl rfl rfl treeA_shape

/-- First byte 80 has its highest set bit at 7, first byte 01 at 0; a later byte may be any. -/
theorem witness_UbyteDecodesItsPayload :
    (sessionA.err = 0 ∧ TreeShape sessionA ∧ sessionA.nleaf.toNat ≤ sessionA.cursor.toNat ∧ sessionA.cursor.toNat ≤ sessionA.root.toNat ∧
        sessionA.uphase = 2) ∧
      TreeShape { sessionA with uphase := 1, cursor := 4 } ∧ ({ sessionA with uphase := 1, cursor := 4 } : State).uphase = 1 ∧
      ((0x80 : Byte).getLsbD 7 = true ∧ ∀ k, 7 < k → (0x80 : Byte).getLsbD k = false) ∧
      ((0x01 : Byte).getLsbD 0 = true ∧ ∀ k, 0 < k → (0x01 : Byte).getLsbD k = false) := by
  refine ⟨⟨rfl, sessionA_shape, by decide, by decide, rfl⟩, TreeShape.congr (s := treeA) rfl rfl rfl treeA_shape, rfl, ⟨by decide, fun k hk => ?_⟩, by decide,
    fun k hk => ?_⟩
  · exact BitVec.getLsbD_of_ge _ _ (by omega)
  · by_cases h : k < 8
    · interval_cases k <;> decide
    · exact BitVec.getLsbD_of_ge _ _ (by omega)

theorem witness_FirstByteWithoutSentinelIsMalformed :
    ({ sessionA with uphase := 1 } : State).err = 0 ∧ ({ sessionA with uphase := 1 } : State).uphase = 1 := by decide

theorem witness_DendGivesTheVerdict :
    (({ sessionA with cursor := 4 } : State).err = 0 ∧ ({ sessionA with cursor := 4 } : State).uphase = 2 ∧
        ({ sessionA with cursor := 4 } : State).cursor = sessionA.root) ∧
      ({ sessionA with uphase := 1 } : State).uphase = 1 ∧ (sessionA.err = 0 ∧ sessionA.uphase = 2 ∧ sessionA.cursor ≠ sessionA.root) ∧
      (treeA.err = 0 ∧ treeA.uphase = 0) := by
  decide

theorem witness_DecoderFollowsAPathToItsLeaf :
    ({ sessionA with cursor := 4 } : State).cursor = sessionA.root ∧ isPathTo { sessionA with cursor := 4 } [true, false] 99 :=
  ⟨by decide, by decide, 0, by decide⟩

theorem witness_DecodingInvertsEncoding :
    CodesArePaths { sessionA with cursor := 4 } ∧ (∀ x ∈ [97, 98, 99], (codeAt { sessionA with cursor := 4 } x).valid = true) ∧
      ({ sessionA with cursor := 4 } : State).cursor = sessionA.root :=
  ⟨codesArePaths_congr (s := readyA) rfl rfl rfl rfl readyA_paths, by decide, by decide⟩

/-! ### The invariants: an open session of Scenario A meets all of 10_state.md R46 -/

theorem nodeEntry_beyond (i : Nat) (h : 4 < i) : nodeEntry sessionA i = .zero := by
  have h0 : ¬ 0 = i := by omega
  have h1 : ¬ 1 = i := by omega
  have h2 : ¬ 2 = i := by omega
  have h3 : ¬ 3 = i := by omega
  have h4 : ¬ 4 = i := by omega
  simp [nodeEntry, sessionA, readyA, treeA, sortedA, Memory.read, h0, h1, h2, h3, h4]

set_option maxRecDepth 4000 in
theorem sessionA_registers : RegisterRules sessionA where
  total := rfl
  fits := Nat.zero_le _
  accumulator := ⟨rfl, rfl⟩
  errcmd := by decide
  codes := .inl rfl
  tbState := .inr rfl
  uphase := .inr (.inr rfl)

theorem sessionA_weights : WeightsAdd sessionA := by
  intro i h1 h2
  change 3 ≤ i at h1
  change i ≤ 4 at h2
  interval_cases i <;> decide

theorem sessionA_pipeline : PipelineRules sessionA where
  analyse := fun h => absurd h (by decide)
  leaves := fun _ => ⟨by decide, by decide, by decide, leavesSorted_congr (s := treeA) rfl rfl treeA_sorted, by decide⟩
  sorted := fun h => absurd h (by decide)
  tree := fun _ => ⟨rfl, rfl, rfl, by decide, sessionA_shape, sessionA_weights, by decide, nodeEntry_beyond⟩
  table := fun _ => codesArePaths_congr (s := readyA) rfl rfl rfl rfl readyA_paths
  unset := fun h => absurd rfl h
  session := fun _ => ⟨by decide, by decide, by decide⟩

/-- It meets them with a word waiting too. -/
theorem sessionA_inv (q : List PortEvent) : Inv { sessionA with port := q } where
  memory := by
    show MemoryForm sessionA
    decide
  registers := by
    obtain ⟨a, b, c, d, e, f, g⟩ := sessionA_registers
    exact ⟨a, b, c, d, e, f, g⟩
  pipeline := pipelineRules_congr (s := sessionA) rfl rfl rfl rfl rfl rfl rfl rfl rfl rfl rfl rfl sessionA_pipeline

/-- The step of DEND off the root, in that session (95_test_vectors.md U4). -/
theorem step_sessionA :
    step { sessionA with port := [.cmd 0x52000000] } = .next { sessionA with err := 3, errcmd := 0x52000000 } := rfl

theorem witness_StepKeepsMemoryForm :
    MemoryForm { sessionA with port := [.cmd 0x52000000] } ∧
      step { sessionA with port := [.cmd 0x52000000] } = .next { sessionA with err := 3, errcmd := 0x52000000 } :=
  ⟨(sessionA_inv _).memory, step_sessionA⟩

theorem witness_StepKeepsRegisterRules :
    RegisterRules { sessionA with port := [.cmd 0x52000000] } ∧
      step { sessionA with port := [.cmd 0x52000000] } = .next { sessionA with err := 3, errcmd := 0x52000000 } :=
  ⟨(sessionA_inv _).registers, step_sessionA⟩

theorem witness_StepKeepsPipelineRules :
    Inv { sessionA with port := [.cmd 0x52000000] } ∧
      step { sessionA with port := [.cmd 0x52000000] } = .next { sessionA with err := 3, errcmd := 0x52000000 } :=
  ⟨sessionA_inv _, step_sessionA⟩

theorem witness_NoStepStops : Inv { sessionA with port := [.cmd 0x52000000] } := sessionA_inv _

theorem witness_TracesOnlyGrow :
    step { sessionA with port := [.cmd 0x52000000] } = .next { sessionA with err := 3, errcmd := 0x52000000 } ∧
      ¬ ∃ q, ({ sessionA with port := [.cmd 0x52000000] } : State).port = .rst :: q :=
  ⟨step_sessionA, fun ⟨_, h⟩ => by cases h⟩

theorem witness_PhaseAdvancesByOneOrClears :
    exec .build sortedA = .next treeA ∧ exec .clr sortedA = .next State.reset ∧ exec .nop sortedA = .next sortedA :=
  ⟨build_sortedA, rfl, rfl⟩

theorem witness_WrittenOnlyByTheListedCommands : exec .build sortedA = .next treeA ∧ (Instr.build) ≠ .clr := ⟨build_sortedA, by decide⟩

end Sys2Proof.Machine.Tests
end

/-!
PROOFS of the family 10_state.md: what a step can do, said once (`step_outcomes`), which fields each command may write (`Frame`), and the
invariants of 10_state.md R46 from them.
-/

namespace Sys2Proof

/-! ## The word of a decoded command (30_encoding.md R82 to R84) -/

section
variable {w : Word} {i : Instr} {o : Byte}

/-! For each format: when it accepts a word whose OPC is the command's, the word is the command's own. -/

theorem encode_of_formatZ {j : Instr} (h : formatZ w j = .ok i) (ho : fieldOpc w = o)
    (hj : encode j = mkWord o 0 0) : encode i = w := by
  obtain ⟨rfl, ha, hb⟩ := formatZ_ok.mp h
  rw [hj, ← mkWord_fields w, ho, ha, hb]

theorem encode_of_formatS {f : Symbol → Instr} (h : formatS w f = .ok i) (ho : fieldOpc w = o)
    (hf : ∀ x, encode (f x) = mkWord o (x.setWidth 8) 0) : encode i = w := by
  obtain ⟨x, rfl, ha, hb⟩ := formatS_ok.mp h
  rw [hf, ← mkWord_fields w, ho, ha, hb]

theorem encode_of_formatSN {f : Symbol → BitVec 16 → Instr} (h : formatSN w f = .ok i) (ho : fieldOpc w = o)
    (hf : ∀ x n, encode (f x n) = mkWord o (x.setWidth 8) n) : encode i = w := by
  obtain ⟨x, rfl, ha⟩ := formatSN_ok.mp h
  conv_rhs => rw [← mkWord_fields w, ho, ha]
  exact hf x _

theorem encode_of_formatV {f : Byte → Instr} (h : formatV w f = .ok i) (ho : fieldOpc w = o)
    (hf : ∀ v, encode (f v) = mkWord o v 0) : encode i = w := by
  obtain ⟨rfl, hb⟩ := formatV_ok.mp h
  conv_rhs => rw [← mkWord_fields w, ho, hb]
  exact hf _

theorem encode_of_formatX {inRange : Byte → Bool} {e : Reject} {f : Byte → Instr} (h : formatX w inRange e f = .ok i)
    (ho : fieldOpc w = o) (hf : ∀ v, encode (f v) = mkWord o v 0) : encode i = w := by
  obtain ⟨rfl, _, hb⟩ := formatX_ok.mp h
  conv_rhs => rw [← mkWord_fields w, ho, hb]
  exact hf _

theorem encode_of_formatSK {f : Symbol → BitVec 2 → Instr} (h : formatSK w f = .ok i)
    (ho : fieldOpc w = o) (hf : ∀ x k, encode (f x k) = mkWord o (x.setWidth 8) (k.setWidth 16)) : encode i = w := by
  obtain ⟨x, k, rfl, ha, hb⟩ := formatSK_ok.mp h
  rw [hf, ← mkWord_fields w, ho, ha, hb]

/-- One comparison of the decoder: the word has this OPC and its format accepts it, or the rest of the table decides. -/
theorem decode_branch {a b : Except Reject Instr} (h : (if fieldOpc w = o then a else b) = .ok i) :
    (fieldOpc w = o ∧ a = .ok i) ∨ b = .ok i := by
  split at h
  · next ho => exact .inl ⟨ho, h⟩
  · exact .inr h

/-- A command has no other word than its own: the decoder's rows in order, each by the rule of its format. -/
theorem encode_of_decode (h : decode w = .ok i) : encode i = w := by
  unfold decode at h
  rcases decode_branch h with ⟨ho, h⟩ | h
  · exact encode_of_formatZ h ho rfl
  rcases decode_branch h with ⟨ho, h⟩ | h
  · exact encode_of_formatZ h ho rfl
  rcases decode_branch h with ⟨ho, h⟩ | h
  · exact encode_of_formatX h ho (fun _ => rfl)
  rcases decode_branch h with ⟨ho, h⟩ | h
  · exact encode_of_formatX h ho (fun _ => rfl)
  rcases decode_branch h with ⟨ho, h⟩ | h
  · exact encode_of_formatX h ho (fun _ => rfl)
  rcases decode_branch h with ⟨ho, h⟩ | h
  · exact encode_of_formatS h ho (fun _ => rfl)
  rcases decode_branch h with ⟨ho, h⟩ | h
  · exact encode_of_formatSK h ho (fun _ _ => rfl)
  rcases decode_branch h with ⟨ho, h⟩ | h
  · exact encode_of_formatS h ho (fun _ => rfl)
  rcases decode_branch h with ⟨ho, h⟩ | h
  · exact encode_of_formatSN h ho (fun _ _ => rfl)
  rcases decode_branch h with ⟨ho, h⟩ | h
  · exact encode_of_formatZ h ho rfl
  rcases decode_branch h with ⟨ho, h⟩ | h
  · exact encode_of_formatZ h ho rfl
  rcases decode_branch h with ⟨ho, h⟩ | h
  · exact encode_of_formatZ h ho rfl
  rcases decode_branch h with ⟨ho, h⟩ | h
  · exact encode_of_formatS h ho (fun _ => rfl)
  rcases decode_branch h with ⟨ho, h⟩ | h
  · exact encode_of_formatV h ho (fun _ => rfl)
  rcases decode_branch h with ⟨ho, h⟩ | h
  · exact encode_of_formatZ h ho rfl
  rcases decode_branch h with ⟨ho, h⟩ | h
  · exact encode_of_formatZ h ho rfl
  rcases decode_branch h with ⟨ho, h⟩ | h
  · exact encode_of_formatV h ho (fun _ => rfl)
  rcases decode_branch h with ⟨ho, h⟩ | h
  · exact encode_of_formatZ h ho rfl
  cases h

end

/-- The word 0 is NOP, so no illegal word is 0. -/
theorem ne_zero_of_decode_error {w : Word} {e : Reject} (h : decode w = .error e) : w ≠ 0 := by
  rintro rfl
  rw [show decode 0 = .ok .nop by decide] at h
  cases h

end Sys2Proof

namespace Sys2Proof.Machine

/-! ## What a command that raises records (60_exceptions.md R221, R231) -/

theorem code_ne_zero (e : ErrorCode) : e.code ≠ 0 := by cases e <;> decide

/-- Only NOP has the word 0. -/
theorem opc_ne_zero {i : Instr} (h : i ≠ .nop) : fieldOpc (encode i) ≠ 0 := by
  cases i <;> simp_all [encode]

theorem encode_ne_zero {i : Instr} (h : i ≠ .nop) : encode i ≠ 0 :=
  fun e => opc_ne_zero h (by rw [e]; rfl)

theorem encode_ne_zero_of_mayRaise {i : Instr} {e : ErrorCode} (h : mayRaise i e) : encode i ≠ 0 :=
  encode_ne_zero (by rintro rfl; exact h)

/-- IoFailure is raised by no command (60_exceptions.md R226). -/
theorem ne_ioFailure_of_mayRaise {i : Instr} {e : ErrorCode} (h : mayRaise i e) : e ≠ .ioFailure := by
  rintro rfl
  cases i <;> simp [mayRaise] at h

end Sys2Proof.Machine

namespace Sys2Proof.Machine

/-! ## The frame of a command's effect: the rows of 10_state.md R20 that it may write -/

/-- The fields a command that raises nothing may write; CLR alone is given by its result. -/
def Frame (i : Instr) (s t : State) : Prop :=
  match i with
  | .nop => t = s
  | .clr => t = clearAll s
  | .rdcsr _ => t = { s with rsp := t.rsp }
  | .rdnode _ => t = { s with rsp := t.rsp }
  | .rdwt _ => t = { s with rsp := t.rsp }
  | .rdlen _ => t = { s with rsp := t.rsp }
  | .rdcode _ _ => t = { s with rsp := t.rsp }
  | .sym _ => t = { s with freq := t.freq, total := t.total }
  | .addf _ _ => t = { s with freq := t.freq, total := t.total }
  | .fin => t = { s with node := t.node, nleaf := t.nleaf, phase := t.phase }
  | .build => t = { s with node := t.node, srcHead := t.srcHead, tgtHead := t.tgtHead, tgtTail := t.tgtTail, tbA := t.tbA,
                           tbB := t.tbB, tbState := t.tbState, root := t.root, phase := t.phase }
  | .table => t = { s with code := t.code, phase := t.phase }
  | .enc _ => t = { s with bitbuf := t.bitbuf }
  | .pbit _ => t = { s with bitbuf := t.bitbuf }
  | .pack => t = { s with bitbuf := t.bitbuf, acc := t.acc, nbits := t.nbits, outb := t.outb }
  | .dbeg => t = { s with uphase := t.uphase, cursor := t.cursor }
  | .ubyte _ => t = { s with uphase := t.uphase, cursor := t.cursor, outs := t.outs }
  | .dend => t = { s with uphase := t.uphase }

/-- An effect keeps to its command's frame. -/
theorem effect_frame {i : Instr} {s t : State} (h : Effect i s t) : Frame i s t := by
  cases i with
  | nop => exact h
  | clr => exact h
  | rdcsr k => cases h; rfl
  | rdnode j => cases h; rfl
  | rdwt j => cases h; rfl
  | rdlen x => cases h; rfl
  | rdcode x k => cases h; rfl
  | sym x => obtain ⟨_, _, _, rfl⟩ := h; rfl
  | addf x n => obtain ⟨_, _, _, rfl⟩ := h; rfl
  | fin => obtain ⟨_, _, _, rfl⟩ := h; rfl
  | build =>
    obtain ⟨_, _, h⟩ := h
    obtain ⟨u, hu, rfl⟩ := buildTree_ok.mp h
    have hf : mergeFrame (seed s) u := mergeLoop_frame _ hu
    unfold mergeFrame at hf
    unfold Frame
    rw [hf]; rfl
  | table =>
    obtain ⟨_, _, h⟩ := h
    obtain ⟨_, _, _, _, _, rfl⟩ := buildTable_ok.mp h
    rfl
  | enc x => obtain ⟨_, _, _, _, rfl⟩ := h; rfl
  | pbit v => obtain ⟨_, _, _, rfl⟩ := h; rfl
  | pack => obtain ⟨_, rfl⟩ := h; exact (packAll_frame s).1
  | dbeg => obtain ⟨_, _, _, rfl⟩ := h; rfl
  | ubyte b =>
    obtain ⟨_, _, ⟨_, j, _, h⟩ | ⟨_, h⟩⟩ := h
    · unfold Frame
      rw [(decodeBits_frame _ h).1]
    · unfold Frame
      rw [(decodeBits_frame _ h).1]
  | dend => obtain ⟨_, _, _, _, rfl⟩ := h; rfl

/-- No effect but CLR's touches ERR and ERRCMD. -/
theorem effect_keeps_err {i : Instr} {s t : State} (h : Effect i s t) (hi : i ≠ .clr) : t.err = s.err ∧ t.errcmd = s.errcmd := by
  have hf := effect_frame h
  cases i with
  | clr => exact absurd rfl hi
  | _ => rw [hf]; exact ⟨rfl, rfl⟩

/-- No effect touches what the host has still to send. -/
theorem effect_port {i : Instr} {s t : State} (h : Effect i s t) : t.port = s.port := by
  have hf := effect_frame h
  cases i with
  | clr => rw [hf]; rfl
  | _ => rw [hf]

/-- Every effect appends to the traces (10_state.md R36). -/
theorem effect_traces {i : Instr} {s t : State} (h : Effect i s t) : s.outb <+: t.outb ∧ s.outs <+: t.outs ∧ s.rsp <+: t.rsp := by
  have hf := effect_frame h
  cases i with
  | rdcsr _ | rdnode _ | rdwt _ | rdlen _ | rdcode _ _ =>
    cases h; exact ⟨List.prefix_rfl, List.prefix_rfl, List.prefix_append _ _⟩
  | pack =>
    have hb : s.outb <+: t.outb := h.2 ▸ (packAll_frame s).2
    rw [hf]; exact ⟨hb, List.prefix_rfl, List.prefix_rfl⟩
  | ubyte b =>
    have hs : s.outs <+: t.outs := by
      obtain ⟨_, _, ⟨_, j, _, h⟩ | ⟨_, h⟩⟩ := h <;> obtain ⟨_, ys, ho, _⟩ := decodeBits_frame _ h
      · exact ⟨ys, ho.symm⟩
      · exact ⟨ys, ho.symm⟩
    rw [hf]; exact ⟨List.prefix_rfl, hs, List.prefix_rfl⟩
  | _ => rw [hf]; exact ⟨List.prefix_rfl, List.prefix_rfl, List.prefix_rfl⟩

/-- PHASE after an effect (10_state.md R33). -/
theorem effect_phase {i : Instr} {s t : State} (h : Effect i s t) :
    (i = .clr ∧ t.phase = pAnalyse) ∨ (i = .fin ∧ s.phase = pAnalyse ∧ t.phase = pSorted) ∨
      (i = .build ∧ s.phase = pSorted ∧ t.phase = pTree) ∨ (i = .table ∧ s.phase = pTree ∧ t.phase = pReady) ∨
      t.phase = s.phase := by
  have hf := effect_frame h
  cases i with
  | clr => rw [hf]; exact .inl ⟨rfl, rfl⟩
  | fin => obtain ⟨_, hp, _, rfl⟩ := h; exact .inr (.inl ⟨rfl, hp, rfl⟩)
  | build =>
    obtain ⟨_, hp, h⟩ := h
    exact .inr (.inr (.inl ⟨rfl, hp, congrArg State.phase (buildTree_frame h)⟩))
  | table =>
    obtain ⟨_, hp, h⟩ := h
    exact .inr (.inr (.inr (.inl ⟨rfl, hp, congrArg State.phase (buildTable_frame h)⟩)))
  | _ => rw [hf]; exact .inr (.inr (.inr (.inr rfl)))

/-! ## Everything a step can do -/

/-- A step leaves all but the port, or is a hardware reset, or raises an error, or is a command's effect. -/
inductive StepOutcomes (s t : State) : Prop where
  /-- No event, a command ignored, or an illegal word ignored. -/
  | unchanged (same : t = { s with port := s.port.tail })
  /-- Hardware reset. -/
  | reset (q : List PortEvent) (next : s.port = .rst :: q) (cleared : t = hardReset { s with port := q })
  /-- An error is raised: not IoFailure, and not by the word 0, which is NOP. -/
  | raised (e : ErrorCode) (w : Word) (clean : s.err = 0) (code : e ≠ .ioFailure) (word : w ≠ 0)
      (entry : t = raise e w { s with port := s.port.tail })
  /-- A command has its effect. -/
  | effect (i : Instr) (q : List PortEvent) (next : s.port = .cmd (encode i) :: q) (h : Effect i { s with port := q } t)

/-- The one inversion lemma of `step`. -/
theorem step_outcomes {s t : State} (h : step s = .next t) : StepOutcomes s t := by
  have idle : s.port = [] → s = { s with port := s.port.tail } := fun hp => by cases s; cases hp; rfl
  rcases step_cases s with ⟨hp, hs⟩ | ⟨q, hp, hs⟩ | ⟨w, q, i, hp, hd, hs⟩ | ⟨w, q, e, hp, hd, hs⟩ <;> rw [hs] at h
  · cases h; exact .unchanged (idle hp)
  · cases h; exact .reset q hp rfl
  · have hq : s.port.tail = q := by rw [hp]; rfl
    cases exec_outcomes h with
    | ignored _ _ same => exact .unchanged (hq ▸ same)
    | raised e clean may entry =>
      exact .raised e (encode i) clean (ne_ioFailure_of_mayRaise may) (encode_ne_zero_of_mayRaise may) (hq ▸ entry)
    | effect h => exact .effect i q (by rw [hp, encode_of_decode hd]) h
  · have hq : s.port.tail = q := by rw [hp]; rfl
    cases h
    rcases illegal_cases w { s with port := q } with ⟨_, he⟩ | ⟨clean, he⟩
    · exact .unchanged (hq ▸ he)
    · exact .raised .illegalCommand w clean (by decide) (ne_zero_of_decode_error hd) (hq ▸ he)

/-! ## The rules of the whole machine -/

/-- Settles O13: of all a step can do, only a hardware reset and the effect of CLR change ERR and ERRCMD of a faulted block. -/
theorem firstErrorStaysUntilClear : Obligations.FirstErrorStaysUntilClear := by
  intro s t hs h
  cases step_outcomes h with
  | unchanged same => subst same; exact .inr (.inr ⟨rfl, rfl⟩)
  | reset q next _ => exact .inl ⟨q, next⟩
  | raised e w clean _ _ _ => exact absurd clean hs
  | effect i q next h =>
    by_cases hi : i = .clr
    · subst hi; exact .inr (.inl ⟨q, next⟩)
    · have keeps := effect_keeps_err h hi
      exact .inr (.inr keeps)

/-- Settles O58: an effect appends to the traces, and nothing else but a hardware reset touches them. -/
theorem tracesOnlyGrow : Obligations.TracesOnlyGrow := by
  intro s t h hr
  cases step_outcomes h with
  | unchanged same => subst same; exact ⟨List.prefix_rfl, List.prefix_rfl, List.prefix_rfl, rfl⟩
  | reset q next _ => exact absurd ⟨q, next⟩ hr
  | raised e w _ _ _ entry => subst entry; exact ⟨List.prefix_rfl, List.prefix_rfl, List.prefix_rfl, rfl⟩
  | effect i q next h =>
    obtain ⟨hb, hs, hr⟩ := effect_traces h
    exact ⟨hb, hs, hr, by rw [effect_port h, next]; rfl⟩

/-- Settles O59: an error keeps PHASE, and an effect moves it only as `effect_phase` says. -/
theorem phaseAdvancesByOneOrClears : Obligations.PhaseAdvancesByOneOrClears := by
  intro i s t h
  cases exec_outcomes h with
  | ignored _ _ same => exact .inl (by rw [same])
  | raised e _ _ entry => exact .inl (by rw [entry, raise_phase])
  | effect h =>
    rcases effect_phase h with ⟨hi, ht⟩ | ⟨hi, hs, ht⟩ | ⟨hi, hs, ht⟩ | ⟨hi, hs, ht⟩ | ht
    · exact .inr (.inl ⟨ht, hi⟩)
    · exact .inr (.inr ⟨by rw [ht, hs]; rfl, .inl hi⟩)
    · exact .inr (.inr ⟨by rw [ht, hs]; rfl, .inr (.inl hi)⟩)
    · exact .inr (.inr ⟨by rw [ht, hs]; rfl, .inr (.inr hi)⟩)
    · exact .inl ht

/-- Settles O60: the frame of each command's effect lies within the last column of 10_state.md R20, and a raise writes ERR and ERRCMD
alone. -/
theorem writtenOnlyByTheListedCommands : Obligations.WrittenOnlyByTheListedCommands := by
  intro i s t h
  cases exec_outcomes h with
  | ignored _ _ same => subst same; simp
  | raised e clean _ entry =>
    have hc : ¬ e.code = 0#4 := code_ne_zero e
    subst entry
    simp [clean, hc]
  | effect h =>
    have hf := effect_frame h
    cases i with
    | clr => rw [show t = clearAll s from hf]; simp
    | _ => rw [hf]; simp

end Sys2Proof.Machine

namespace Sys2Proof.Machine

/-! ## R46 items 1, 7, 8 and 9 (RegisterRules): `{ r with ... }` keeps every rule that reads no field written -/

theorem registerRules_reset : RegisterRules State.reset where
  total := ((countSum_eq_zero State.reset).mpr fun _ => rfl).symm
  fits := Nat.zero_le _
  accumulator := ⟨rfl, rfl⟩
  errcmd := ⟨fun _ => rfl, fun _ => rfl⟩
  codes := .inl rfl
  tbState := .inl rfl
  uphase := .inl rfl

/-- The codes that a raise stores (10_state.md R46 item 9). -/
theorem code_stored {e : ErrorCode} (h : e ≠ .ioFailure) :
    e.code = 1 ∨ e.code = 2 ∨ e.code = 3 ∨ e.code = 5 ∨ e.code = 6 ∨ e.code = 7 ∨ e.code = 8 ∨ e.code = 9 := by
  cases e with
  | ioFailure => exact absurd rfl h
  | _ => decide

section
variable {s t : State}

/-- An error raised by a word other than 0 leaves ERR and ERRCMD both non-zero. -/
theorem registerRules_raise {e : ErrorCode} {w : Word} (he : e ≠ .ioFailure) (hw : w ≠ 0) (r : RegisterRules s) :
    RegisterRules (raise e w s) :=
  { r with
    errcmd := ⟨fun h => absurd h (code_ne_zero e), fun h => absurd h hw⟩
    codes := .inr (code_stored he) }

/-- SYM and ADDF add the same number to a count and to TOTAL, which has room for it. -/
theorem registerRules_addCount {x : Symbol} {n : Word} (hn : s.total.toNat + n.toNat ≤ 2 ^ 32 - 1) (r : RegisterRules s) :
    RegisterRules { setFreq x (freqAt s x + n) s with total := s.total + n } :=
  { r with
    total := by
      show (s.total + n).toNat = countSum (setFreq x (freqAt s x + n) s)
      have hsum := countSum_setFreq x (freqAt s x + n) s
      have hle := le_countSum s x
      have htotal := r.total
      rw [BitVec.toNat_add] at hsum ⊢
      omega }

/-- ENC and PBIT append bits where they fit. -/
theorem registerRules_append {bits : List Bool} (hb : s.bitbuf.length + bits.length ≤ Config.bitbufCap) (r : RegisterRules s) :
    RegisterRules { s with bitbuf := s.bitbuf ++ bits } :=
  { r with fits := List.length_append.trans_le hb }

/-- PACK shifts in whole bytes, so it leaves the accumulator empty as it found it (43_bitpacker.md R164). -/
theorem packAll_emits (ha : s.acc = 0) (hn : s.nbits = 0) : ∃ ys, packAll s = { s with outb := s.outb ++ ys, bitbuf := [] } := by
  obtain ⟨ys, hys, _, _⟩ := shiftIn_bytes (s.bitbuf.length / 8 + 1) s _ ha hn (padded_length s.bitbuf)
  exact ⟨ys, by rw [packAll, hys]⟩

theorem registerRules_pack (r : RegisterRules s) : RegisterRules (packAll s) := by
  obtain ⟨ys, hp⟩ := packAll_emits r.accumulator.1 r.accumulator.2
  rw [hp]
  exact { r with fits := Nat.zero_le _ }

/-- UBYTE finds the sentinel or stays in the payload (10_state.md R31). -/
theorem effect_ubyte_uphase {b : Byte} (h : Effect (.ubyte b) s t) : t.uphase = uPayload ∨ t.uphase = s.uphase := by
  obtain ⟨_, _, ⟨_, j, _, h⟩ | ⟨_, h⟩⟩ := h
  · exact .inl (by rw [(decodeBits_frame _ h).1])
  · exact .inr (by rw [(decodeBits_frame _ h).1])

/-- Every effect keeps the register rules. -/
theorem registerRules_effect {i : Instr} (h : Effect i s t) (r : RegisterRules s) : RegisterRules t := by
  have hf := effect_frame h
  cases i with
  | clr => rw [hf]; exact { registerRules_reset with }
  | sym x =>
    obtain ⟨_, _, hn, rfl⟩ := h
    exact registerRules_addCount hn r
  | addf x n =>
    obtain ⟨_, _, hn, rfl⟩ := h
    exact registerRules_addCount (by rw [countOperand_toNat]; exact hn) r
  | build => rw [buildTree_frame h.2.2]; exact { r with tbState := .inr rfl }
  | enc x =>
    obtain ⟨_, _, _, hb, rfl⟩ := h
    exact registerRules_append hb r
  | pbit v =>
    obtain ⟨_, _, hb, rfl⟩ := h
    exact registerRules_append hb r
  | pack =>
    obtain ⟨_, rfl⟩ := h
    exact registerRules_pack r
  | dbeg =>
    obtain ⟨_, _, _, rfl⟩ := h
    exact { r with uphase := .inr (.inl rfl) }
  | ubyte b =>
    have hu : t.uphase = uIdle ∨ t.uphase = uFirst ∨ t.uphase = uPayload := by
      rcases effect_ubyte_uphase h with hu | hu
      · exact .inr (.inr hu)
      · rw [hu]; exact r.uphase
    rw [hf]
    exact { r with uphase := hu }
  | dend =>
    obtain ⟨_, _, _, _, rfl⟩ := h
    exact { r with uphase := .inl rfl }
  | _ => rw [hf]; exact { r with }

end

/-- Settles O55: each of the four things a step can do keeps the register rules. -/
theorem stepKeepsRegisterRules : Obligations.StepKeepsRegisterRules := by
  intro s t r h
  cases step_outcomes h with
  | unchanged same => subst same; exact { r with }
  | reset q _ cleared => subst cleared; exact { registerRules_reset with }
  | raised e w _ code word entry => subst entry; exact registerRules_raise code word { r with }
  | effect i q _ h => exact registerRules_effect h { r with }

end Sys2Proof.Machine

namespace Sys2Proof.Machine

/-! ## R46 items 2 to 6 (PipelineRules): what reset, FIN, BUILD and TABLE establish; `{ p with ... }` keeps every rule that reads no field
written -/

section
variable {s t : State}

/-- A state that holds the fields the rules read keeps them, whatever else it holds. -/
theorem pipelineRules_unread (p : PipelineRules s)
    (h : t = { t with node := s.node, nleaf := s.nleaf, root := s.root, code := s.code, phase := s.phase, tbState := s.tbState,
                      uphase := s.uphase, total := s.total, srcHead := s.srcHead, tgtHead := s.tgtHead, tgtTail := s.tgtTail,
                      cursor := s.cursor }) : PipelineRules t := by
  rw [h]
  exact pipelineRules_congr (s := s) rfl rfl rfl rfl rfl rfl rfl rfl rfl rfl rfl rfl p

/-! ### The rules of the leaves and of the tree -/

/-- Item 3 of R46 together with the sum that item 4 needs. -/
def LeafRules (s : State) : Prop :=
  2 ≤ s.nleaf.toNat ∧ s.nleaf.toNat ≤ 128 ∧ (∀ i, i < s.nleaf.toNat → (nodeEntry s i).leaf = true) ∧ LeavesSorted s ∧
    weightSum s s.nleaf.toNat = s.total.toNat

/-- The leaves' rules read NLEAF, TOTAL and the entries below NLEAF. -/
theorem leafRules_congr (h1 : t.nleaf = s.nleaf) (h2 : t.total = s.total)
    (h3 : ∀ i, i < s.nleaf.toNat → nodeEntry t i = nodeEntry s i) (l : LeafRules s) : LeafRules t := by
  obtain ⟨two, most, leaf, sorted, sum⟩ := l
  unfold LeafRules LeavesSorted
  rw [h1, h2, ← sum]
  refine ⟨two, most, fun i hi => ?_, fun i j hij hj => ?_, ?_⟩
  · rw [h3 i hi]; exact leaf i hi
  · rw [h3 i (by omega), h3 j hj]; exact sorted i j hij hj
  · rw [weightSum_eq, weightSum_eq]
    refine Finset.sum_congr rfl fun i hi => ?_
    rw [entryWeight, entryWeight, h3 i (Finset.mem_range.mp hi)]

/-- Item 4 of R46 for PHASE at least 2. -/
def TreeRules (s : State) : Prop :=
  s.tbState = tbDone ∧ s.srcHead = s.nleaf ∧ s.tgtHead = s.root ∧ s.tgtTail.toNat = 2 * s.nleaf.toNat - 1 ∧ TreeShape s ∧
    WeightsAdd s ∧ (nodeEntry s s.root.toNat).weight = s.total ∧ ∀ i, s.root.toNat < i → nodeEntry s i = .zero

/-- The tree's rules read the fields of the builder and TOTAL. -/
theorem treeRules_congr (h1 : t.node = s.node) (h2 : t.nleaf = s.nleaf) (h3 : t.root = s.root) (h4 : t.tbState = s.tbState)
    (h5 : t.srcHead = s.srcHead) (h6 : t.tgtHead = s.tgtHead) (h7 : t.tgtTail = s.tgtTail) (h8 : t.total = s.total)
    (r : TreeRules s) : TreeRules t := by
  obtain ⟨done, src, head, tail, shape, weights, root, beyond⟩ := r
  have same := nodeEntry_congr h1
  refine ⟨h4.trans done, by rw [h5, h2]; exact src, by rw [h6, h3]; exact head, by rw [h7, h2]; exact tail, shape.congr h1 h2 h3,
    weightsAdd_congr h1 h2 weights, by rw [h3, h8, same]; exact root, fun i hi => ?_⟩
  rw [same]; exact beyond i (h3 ▸ hi)

/-! ### PHASE 0 -/

theorem pipelineRules_reset : PipelineRules State.reset where
  analyse := fun _ => ⟨rfl, rfl, fun _ => rfl, rfl⟩
  leaves := fun h => absurd rfl h
  sorted := fun h => absurd h (by decide)
  tree := fun h => absurd h (by decide)
  table := fun h => absurd h (by decide)
  unset := fun _ _ => rfl
  session := fun h => absurd rfl h

/-- In PHASE 0 no rule speaks of the counts or of TOTAL, which SYM and ADDF write. -/
theorem pipelineRules_count (m : Memory Word) (n : Word) (hp : s.phase = pAnalyse) (p : PipelineRules s) :
    PipelineRules { s with freq := m, total := n } :=
  { p with
    leaves := fun h => absurd hp h
    tree := fun h => absurd (hp ▸ h : pTree ≤ pAnalyse) (by decide)
    table := fun h => absurd (hp ▸ h : pAnalyse = pReady) (by decide) }

/-! ### FIN -/

/-- A list of records stored from entry 0 on meets the leaves' rules. -/
theorem leafRules_of_records {rs : List Record} (h2 : 2 ≤ rs.length) (h128 : rs.length ≤ 128)
    (hsym : rs.Pairwise fun a b => a.sym ≠ b.sym) (hord : rs.Pairwise fun a b => recordBefore a b = true)
    (hsum : (rs.map fun r => r.weight.toNat).sum = t.total.toNat) (hn : t.nleaf.toNat = rs.length)
    (hnode : ∀ i (hi : i < rs.length), nodeEntry t i = leafOf rs[i]) : LeafRules t := by
  unfold LeafRules LeavesSorted
  rw [hn, ← hsum]
  refine ⟨h2, h128, fun i hi => ?_, fun i j hij hj => ?_, ?_⟩
  · rw [hnode i hi]; rfl
  · rw [hnode i (by omega), hnode j hj]
    exact ⟨List.pairwise_iff_getElem.mp hsym i j (by omega) hj hij,
      recordBefore_iff.mp (List.pairwise_iff_getElem.mp hord i j (by omega) hj hij)⟩
  · unfold weightSum
    congr 1
    refine List.ext_getElem (by simp) fun i hi _ => ?_
    have hi' : i < rs.length := by simpa using hi
    simp only [List.getElem_map, List.getElem_range, hnode i hi']
    rfl

/-- The state FIN leaves from counts that have a record (40_frequency.md R102). -/
def finished (s : State) : State :=
  { s with node := (seedLeaves 0 (sortedList s) s).node, nleaf := BitVec.ofNat 8 (sortedList s).length, phase := pSorted }

theorem finished_nleaf (hr : recordSet s ≠ []) : (finished s).nleaf.toNat = (sortedList s).length := by
  have h := (sortedList_spec hr).2.1
  show (BitVec.ofNat 8 _).toNat = _
  rw [BitVec.toNat_ofNat]; omega

theorem finished_node (hr : recordSet s ≠ []) (i : Nat) :
    nodeEntry (finished s) i = (((sortedList s)[i]?).map leafOf).getD (nodeEntry s i) :=
  nodeEntry_sorted hr i

/-- FIN stores the leaves sorted, on entries that were all unused. -/
theorem pipelineRules_finished (hr : recordSet s ≠ []) (hp : s.phase = pAnalyse) (htotal : s.total.toNat = countSum s)
    (p : PipelineRules s) : PipelineRules (finished s) := by
  obtain ⟨_, hidle, hzero, hclosed⟩ := p.analyse hp
  obtain ⟨h2, h128, hsym, hord, _⟩ := sortedList_spec hr
  have hn := finished_nleaf hr
  exact {
    analyse := fun h => absurd h (show pSorted ≠ pAnalyse by decide)
    leaves := fun _ => leafRules_of_records h2 h128 hsym hord ((sortedList_sum s).trans htotal.symm) hn fun i hi => by
      rw [finished_node hr, List.getElem?_eq_getElem hi]; rfl
    sorted := fun _ => ⟨hidle, hclosed, fun i hi => by
      rw [finished_node hr, List.getElem?_eq_none (hn ▸ hi)]; exact hzero i⟩
    tree := fun h => absurd h (show ¬ pTree ≤ pSorted by decide)
    table := fun h => absurd h (show pSorted ≠ pReady by decide)
    unset := fun _ => p.unset (by rw [hp]; decide)
    session := fun h => absurd hclosed h }

/-! ### BUILD -/

/-- Where the merge ends: source is empty, and target holds the root alone. -/
def MergeEnd (s u : State) : Prop :=
  Merging s u ∧ u.srcHead.toNat = s.nleaf.toNat ∧ u.tgtHead.toNat = 2 * s.nleaf.toNat - 2 ∧ u.tgtTail.toNat = 2 * s.nleaf.toNat - 1

/-- The merged entries are a strict tree: every node below the root has left its queue. -/
theorem treeShape_of_mergeEnd {u : State} (hleaf : ∀ i, i < s.nleaf.toNat → (nodeEntry s i).leaf = true) (h : MergeEnd s u) :
    TreeShape (finishBuild u) := by
  obtain ⟨m, hsrc, hhead, htail⟩ := h
  have hn := congrArg BitVec.toNat m.nleaf
  have hl := m.queues.leaves
  refine ⟨hl, hhead.trans (by rw [← hn]; rfl), fun i hi => ?_, fun i h1 h2 => ?_, fun j hj => ?_, fun i i' j h1 h2 h3 h4 => ?_⟩
  · change (nodeEntry u i).leaf = true
    change i < u.nleaf.toNat at hi
    rw [m.stay i (.inl hi)]
    exact hleaf i (by omega)
  · change i ≤ 2 * u.nleaf.toNat - 2 at h2
    obtain ⟨leaf, _, left, right, differ, _⟩ := m.internal i h1 (by omega)
    exact ⟨leaf, left, right, differ⟩
  · change j < 2 * u.nleaf.toNat - 2 at hj
    obtain ⟨i, h1, h2, h3⟩ := (m.consumed j).mpr (by omega)
    exact ⟨i, h1, by show i ≤ 2 * u.nleaf.toNat - 2; omega, h3⟩
  · change i ≤ 2 * u.nleaf.toNat - 2 at h2
    change i' ≤ 2 * u.nleaf.toNat - 2 at h4
    exact m.oneParent i i' j h1 (by omega) h3 (by omega)

/-- The root is the one node left in the queues, so it has the weight of all leaves. -/
theorem rootWeight_of_mergeEnd {u : State} (h : MergeEnd s u) (k : WeightKept s u) :
    entryWeight u u.tgtHead.toNat = weightSum s s.nleaf.toNat := by
  obtain ⟨m, hsrc, hhead, htail⟩ := h
  have hl := m.queues.leaves
  rw [m.nleaf] at hl
  have hone : Finset.Ico u.tgtHead.toNat u.tgtTail.toNat = {u.tgtHead.toNat} := by
    rw [show u.tgtTail.toNat = u.tgtHead.toNat + 1 by omega, Nat.Ico_succ_singleton]
  rw [← k.1, queueWeight, m.nleaf, hsrc, Finset.Ico_self, Finset.sum_empty, Nat.zero_add, hone, Finset.sum_singleton]

/-- The whole of what BUILD leaves on 2 to 128 leaves whose weights fit. -/
theorem buildTree_mergeEnd (h1 : 2 ≤ s.nleaf.toNat) (h2 : s.nleaf.toNat ≤ 128) (hfit : weightSum s s.nleaf.toNat ≤ 2 ^ 32 - 1)
    (h : buildTree s = .ok t) : ∃ u, t = finishBuild u ∧ mergeFrame (seed s) u ∧ MergeEnd s u ∧ WeightKept s u := by
  obtain ⟨u, hu, hb, m, k, hsrc, hhead, htail⟩ :=
    buildTree_ends (P := WeightKept s) h1 h2 (fun _ _ _ _ m k hm hl => k.step hfit m hm hl) (weightKept_seed s)
  rw [h] at hb
  exact ⟨u, Except.ok.inj hb, mergeLoop_frame _ hu, ⟨m, hsrc, hhead, htail⟩, k⟩

/-- BUILD makes the tree of the sorted leaves. -/
theorem pipelineRules_built (hp : s.phase = pSorted) (h : buildTree s = .ok t) (p : PipelineRules s) : PipelineRules t := by
  have l : LeafRules s := p.leaves (by rw [hp]; decide)
  obtain ⟨_, hclosed, hzero⟩ := p.sorted hp
  obtain ⟨two, most, hleaf, _, hsum⟩ := id l
  obtain ⟨u, rfl, hf, e, k⟩ := buildTree_mergeEnd two most (by have := s.total.isLt; omega) h
  obtain ⟨m, hsrc, hhead, htail⟩ := id e
  have hn : u.nleaf.toNat = s.nleaf.toNat := congrArg BitVec.toNat m.nleaf
  have htotal : u.total = s.total := by rw [hf]; rfl
  have hcode : u.code = s.code := by rw [hf]; rfl
  have huphase : u.uphase = s.uphase := by rw [hf]; rfl
  exact {
    analyse := fun h => absurd h (show pTree ≠ pAnalyse by decide)
    leaves := fun _ => leafRules_congr (t := finishBuild u) m.nleaf htotal (fun i hi => m.stay i (.inl (by omega))) l
    sorted := fun h => absurd h (show pTree ≠ pSorted by decide)
    tree := fun _ => ⟨rfl, BitVec.eq_of_toNat_eq (hsrc.trans hn.symm), rfl, by
      show u.tgtTail.toNat = 2 * u.nleaf.toNat - 1
      omega,
      treeShape_of_mergeEnd hleaf e,
      fun i h1 h2 => by
        change u.nleaf.toNat ≤ i at h1
        change i ≤ 2 * u.nleaf.toNat - 2 at h2
        exact k.2 i (by omega) (by omega),
      BitVec.eq_of_toNat_eq (by
        rw [show (finishBuild u).total = s.total from htotal, ← hsum]
        exact rootWeight_of_mergeEnd (u := u) e k),
      fun i hi => by
        change u.tgtHead.toNat < i at hi
        exact (m.stay i (.inr (by omega))).trans (hzero i (by omega))⟩
    table := fun h => absurd h (show pTree ≠ pReady by decide)
    unset := fun _ x => (codeAt_congr (t := finishBuild u) hcode x).trans (p.unset (by rw [hp]; decide) x)
    session := fun h => absurd (huphase.trans hclosed) h }

/-! ### TABLE -/

/-- An entry of at most 127 bits holds them (42_codetable.md R143, R144). -/
theorem sequence_entryOf {q : List Bool} (hq : q.length ≤ 127) : (entryOf q).sequence = q := by
  have hlen : (BitVec.ofNat 7 q.length).toNat = q.length := by rw [BitVec.toNat_ofNat]; omega
  refine List.ext_getElem (by simp [CodeEntry.sequence, entryOf, hlen]) fun i hi hi' => ?_
  simp only [CodeEntry.sequence, entryOf, List.getElem_map, List.getElem_range, leftAlign_getMsbD q i (by omega)]
  rw [List.getElem?_eq_getElem hi']; rfl

/-- What TABLE adds to a tree whose code entries were unset: every entry set is the path entry of a leaf, and every leaf has one. -/
theorem codesArePaths_of_table {c : Memory CodeEntry} (T : TreeShape s) (hunset : ∀ x, codeAt s x = .unset)
    (hpath : ∀ x : Symbol, Memory.read .unset c x.toNat = codeAt s x ∨ PathEntry s c x)
    (hleaf : ∀ i, i < s.nleaf.toNat → PathEntry s c (nodeEntry s i).sym) :
    CodesArePaths { s with code := c, phase := pReady } := by
  have hcode : ∀ x, codeAt { s with code := c, phase := pReady } x = Memory.read .unset c x.toNat := fun _ => rfl
  refine ⟨fun x hx => ?_, fun i hi => ?_⟩
  · rw [hcode] at hx ⊢
    rcases hpath x with h | ⟨q, j, hne, hfollow, hj, hsym, hlen, hread⟩
    · rw [h, hunset x] at hx; cases hx
    · have hl := T.leafCount
      rw [hread, sequence_entryOf (by omega)]
      exact ⟨hne, j, (followPath_congr (s := s) (t := { s with code := c, phase := pReady }) rfl q s.root).trans hfollow,
        idx_ne_255 (by omega), T.leaves _ hj, hsym⟩
  · obtain ⟨q, _, _, _, _, _, _, hread⟩ := hleaf i hi
    refine (congrArg CodeEntry.valid (hcode (nodeEntry s i).sym)).trans ?_
    rw [hread]; rfl

/-- TABLE writes the paths of the leaves. -/
theorem pipelineRules_table (hp : s.phase = pTree) (h : buildTable s = .ok t) (p : PipelineRules s) : PipelineRules t := by
  have htree : TreeRules s := p.tree (show pTree ≤ s.phase by rw [hp]; exact BitVec.le_refl _)
  obtain ⟨_, _, _, _, T, _⟩ := id htree
  obtain ⟨c, hc, hpath, hleaf⟩ := buildTable_spec T
  obtain rfl := Except.ok.inj (hc.symm.trans h)
  exact { p with
    analyse := fun h => absurd h (show pReady ≠ pAnalyse by decide)
    leaves := fun _ => p.leaves (by rw [hp]; decide)
    sorted := fun h => absurd h (show pReady ≠ pSorted by decide)
    tree := fun _ => treeRules_congr (s := s) rfl rfl rfl rfl rfl rfl rfl rfl htree
    table := fun _ => codesArePaths_of_table T (p.unset (by rw [hp]; decide)) hpath hleaf
    unset := fun h => absurd rfl h
    session := fun h => ⟨show pTree ≤ pReady by decide, (p.session h).2⟩ }

/-! ### Decode sessions -/

/-- With a tree there, a command may write UPHASE, CURSOR and OUTS, as long as the cursor of an open session is internal. -/
theorem pipelineRules_session (hf : t = { s with uphase := t.uphase, cursor := t.cursor, outs := t.outs }) (hp : pTree ≤ s.phase)
    (hc : t.uphase ≠ uIdle → s.nleaf.toNat ≤ t.cursor.toNat ∧ t.cursor.toNat ≤ s.root.toNat) (p : PipelineRules s) :
    PipelineRules t := by
  generalize t.uphase = u, t.cursor = c, t.outs = o at hf hc
  subst hf
  exact { p with
    analyse := fun h => absurd (h ▸ hp : pTree ≤ pAnalyse) (by decide)
    sorted := fun h => absurd (h ▸ hp : pTree ≤ pSorted) (by decide)
    tree := fun h => treeRules_congr (s := s) rfl rfl rfl rfl rfl rfl rfl rfl (p.tree h)
    table := fun h => codesArePaths_congr (s := s) rfl rfl rfl rfl (p.table h)
    session := fun h => ⟨hp, hc h⟩ }

/-- Every bit sequence the decoder takes from an internal cursor leaves it internal. -/
theorem decodeBits_cursor {xs : List Bool} (h : decodeBits xs s = .ok t) (T : TreeShape s) (h1 : s.nleaf.toNat ≤ s.cursor.toNat)
    (h2 : s.cursor.toNat ≤ s.root.toNat) : s.nleaf.toNat ≤ t.cursor.toNat ∧ t.cursor.toNat ≤ s.root.toNat := by
  obtain ⟨v, hv, hc⟩ := decodeBits_internal xs T h1 h2
  obtain rfl := Except.ok.inj (hv.symm.trans h)
  exact hc

theorem effect_ubyte_cursor {b : Byte} (h : Effect (.ubyte b) s t) (T : TreeShape s) (h1 : s.nleaf.toNat ≤ s.cursor.toNat)
    (h2 : s.cursor.toNat ≤ s.root.toNat) : s.nleaf.toNat ≤ t.cursor.toNat ∧ t.cursor.toNat ≤ s.root.toNat := by
  obtain ⟨_, _, ⟨_, j, _, h⟩ | ⟨_, h⟩⟩ := h
  · exact decodeBits_cursor (s := { s with uphase := uPayload }) h (TreeShape.congr (s := s) rfl rfl rfl T) h1 h2
  · exact decodeBits_cursor h T h1 h2

/-! ### Every command -/

/-- Every effect keeps the pipeline's rules; FIN needs the sum of the counts. -/
theorem pipelineRules_effect {i : Instr} (h : Effect i s t) (htotal : s.total.toNat = countSum s) (p : PipelineRules s) :
    PipelineRules t := by
  have hf := effect_frame h
  cases i with
  | clr => rw [hf]; exact pipelineRules_unread pipelineRules_reset rfl
  | sym x => rw [hf]; exact pipelineRules_count _ _ h.2.1 p
  | addf x n => rw [hf]; exact pipelineRules_count _ _ h.2.1 p
  | fin =>
    obtain ⟨_, hp, hr, rfl⟩ := h
    exact pipelineRules_finished hr hp htotal p
  | build =>
    obtain ⟨_, hp, h⟩ := h
    exact pipelineRules_built hp h p
  | table =>
    obtain ⟨_, hp, h⟩ := h
    exact pipelineRules_table hp h p
  | dbeg =>
    obtain ⟨_, hp, _, rfl⟩ := h
    obtain ⟨_, _, _, _, T, _⟩ := p.tree hp
    have hr := T.rootIndex
    have hl := T.leafCount
    exact pipelineRules_session hf hp (fun _ => ⟨show s.nleaf.toNat ≤ s.root.toNat by omega, le_refl _⟩) p
  | ubyte b =>
    obtain ⟨hp, h1, h2⟩ := p.session h.2.1
    obtain ⟨_, _, _, _, T, _⟩ := p.tree hp
    exact pipelineRules_session hf hp (fun _ => effect_ubyte_cursor h T h1 h2) p
  | dend =>
    obtain ⟨_, hopen, _, _, rfl⟩ := h
    exact pipelineRules_session rfl (p.session hopen).1 (fun hu => absurd rfl hu) p
  | _ => rw [hf]; exact pipelineRules_unread p rfl

end

/-! ## The invariant (10_state.md R46) -/

/-- Settles O56: each of the four things a step can do keeps the pipeline's rules. -/
theorem stepKeepsPipelineRules : Obligations.StepKeepsPipelineRules := by
  intro s t inv h
  have p : PipelineRules { s with port := s.port.tail } :=
    pipelineRules_unread inv.pipeline rfl
  cases step_outcomes h with
  | unchanged same => rw [same]; exact p
  | reset q _ cleared =>
    rw [cleared]; exact pipelineRules_unread pipelineRules_reset rfl
  | raised e w _ _ _ entry => rw [entry]; exact pipelineRules_unread p rfl
  | effect i q next h =>
    rw [next] at p
    exact pipelineRules_effect h inv.registers.total p

/-- Settles O53: after reset the memories are empty, the registers 0, and PHASE is 0. -/
theorem resetMeetsTheInvariant : Obligations.ResetMeetsTheInvariant where
  memory := ⟨Memory.wf_nil _ _, Memory.wf_nil _ _, Memory.wf_nil _ _⟩
  registers := registerRules_reset
  pipeline := pipelineRules_reset

end Sys2Proof.Machine

/-!
PROOFS of the family 20_memory.md: the bytes PACK emits, that every step keeps the memories in canonical form, and that no step stops.
-/

namespace Sys2Proof.Machine

/-! ## The wire format (20_memory.md R62 to R65; 43_bitpacker.md R162 to R165) -/

theorem paddingBits_eq (n : Nat) : paddingBits n = List.replicate (7 - n % 8) false ++ [true] := by
  rw [paddingBits, padding, show 8 - n % 8 - 1 = 7 - n % 8 by omega]

/-- Settles O43: the padding makes the stream whole bytes, and `shiftIn_bytes` says what whole bytes shifted in emit. -/
theorem packEmitsTheWireFormat : Obligations.PackEmitsTheWireFormat := by
  intro s he ha hn
  obtain ⟨ys, hys, hlen, hbits⟩ := shiftIn_bytes (s.bitbuf.length / 8 + 1) s _ ha hn (padded_length s.bitbuf)
  refine ⟨ys, ?_, hlen, fun j k hj hk => ?_⟩
  · rw [exec_pack, work_legal he legal_pack, packAll, hys]
  · rw [hbits j k (hlen ▸ hj) hk, paddingBits_eq]

end Sys2Proof.Machine

namespace Sys2Proof.Machine

/-! ## The canonical form of the memories (20_memory.md R60, R61; notes/assumptions/5.md): every index written lies in its space -/

/-- The part of `MemoryForm` that speaks of NODE. -/
def NodeForm (s : State) : Prop := Memory.wf NodeEntry.zero 255 s.node = true

/-- The part of `MemoryForm` that speaks of CODE, for a memory not yet in a state. -/
def CodeForm (c : Memory CodeEntry) : Prop := Memory.wf CodeEntry.unset 128 c = true

section
variable {s t : State}

theorem memoryForm_reset : MemoryForm State.reset := ⟨Memory.wf_nil _ _, Memory.wf_nil _ _, Memory.wf_nil _ _⟩

/-! ### FREQ -/

/-- A symbol is an index of FREQ. -/
theorem memoryForm_setFreq (x : Symbol) (v : Word) (h : MemoryForm s) : MemoryForm (setFreq x v s) :=
  ⟨Memory.wf_write 0 128 s.freq x.toNat v x.isLt h.1, h.2⟩

/-! ### NODE -/

theorem nodeForm_setNode {i : NodeIdx} (e : NodeEntry) (hi : i.toNat < 255) (h : NodeForm s) : NodeForm (setNode i e s) :=
  Memory.wf_write NodeEntry.zero 255 s.node i.toNat e hi h

/-- Leaves seeded within the space keep the form. -/
theorem nodeForm_seedLeaves (rs : List Record) : ∀ {i : Nat} {s : State}, i + rs.length ≤ 255 → NodeForm s →
    NodeForm (seedLeaves i rs s) := by
  induction rs with
  | nil => intro i s _ h; exact h
  | cons r rs ih =>
    intro i s hl h
    rw [List.length_cons] at hl
    have hi : (BitVec.ofNat 8 i).toNat < 255 := by rw [BitVec.toNat_ofNat]; omega
    exact ih (by omega) (nodeForm_setNode (leafOf r) hi h)

theorem take_node {i : NodeIdx} (h : take s = .ok (i, t)) : t.node = s.node := by
  rcases take_cases h with ⟨_, _, rfl⟩ | ⟨_, _, rfl⟩
  · rfl
  · rfl

/-- A merge writes the one entry at TGT_TAIL, and stops before it would write NODE[255]. -/
theorem nodeForm_mergeOnce (hm : mergeOnce s = .ok t) (h : NodeForm s) : NodeForm t := by
  obtain ⟨i, u, j, v, hu, hv, hw⟩ := mergeOnce_ok.mp hm
  obtain ⟨_, _, htail, rfl⟩ := writeMerged_ok.mp hw
  have hnode : v.node = s.node := (take_node hv).trans (take_node (t := u) hu)
  have hform : NodeForm v := by rw [NodeForm, hnode]; exact h
  exact nodeForm_setNode (s := v) _ (nodeIdx_toNat_lt htail) hform

theorem nodeForm_mergeLoop : ∀ (n : Nat) {s : State}, mergeLoop n s = .ok t → NodeForm s → NodeForm t
  | 0, _, hm, _ => by cases hm
  | n + 1, s, hm, h => by
    obtain ⟨u, hu, hrest⟩ := bind_ok.mp hm
    have hu := nodeForm_mergeOnce hu h
    split at hrest
    · cases hrest; exact hu
    · exact nodeForm_mergeLoop n hrest hu

theorem nodeForm_buildTree (hb : buildTree s = .ok t) (h : NodeForm s) : NodeForm t := by
  obtain ⟨u, hu, rfl⟩ := buildTree_ok.mp hb
  exact nodeForm_mergeLoop (t := u) 255 hu h

/-! ### CODE -/

/-- The traversal writes at symbols, which are indices of CODE. -/
theorem codeForm_walk : ∀ (depth : Nat) {i : NodeIdx} {p : List Bool} {code c : Memory CodeEntry},
    walk s depth i p code = .ok c → CodeForm code → CodeForm c
  | 0, _, _, _, _, hw, _ => by cases hw
  | depth + 1, i, p, code, c, hw, h => by
    obtain ⟨n, _, hw⟩ := bind_ok.mp hw
    split at hw
    · cases hw
      exact Memory.wf_write CodeEntry.unset 128 code n.sym.toNat (entryOf p) n.sym.isLt h
    · obtain ⟨l, hl, hr⟩ := bind_ok.mp hw
      exact codeForm_walk depth hr (codeForm_walk depth hl h)

theorem codeForm_buildTable (hb : buildTable s = .ok t) (h : CodeForm s.code) : CodeForm t.code := by
  obtain ⟨_, c, d, hc, hd, rfl⟩ := buildTable_ok.mp hb
  exact codeForm_walk 127 hd (codeForm_walk 127 hc h)

/-! ### Every command -/

/-- SYM and ADDF write FREQ, FIN and BUILD write NODE, TABLE writes CODE, and CLR empties all three. -/
theorem memoryForm_effect {i : Instr} (h : Effect i s t) (m : MemoryForm s) : MemoryForm t := by
  have hf := effect_frame h
  obtain ⟨hfreq, hnode, hcode⟩ := id m
  cases i with
  | clr => rw [hf]; exact memoryForm_reset
  | sym x =>
    obtain ⟨_, _, _, rfl⟩ := h
    exact memoryForm_setFreq x _ m
  | addf x n =>
    obtain ⟨_, _, _, rfl⟩ := h
    exact memoryForm_setFreq x _ m
  | fin =>
    obtain ⟨_, _, hr, rfl⟩ := h
    obtain ⟨_, hlen, _⟩ := sortedList_spec hr
    exact ⟨hfreq, nodeForm_seedLeaves (sortedList s) (i := 0) (by omega) hnode, hcode⟩
  | build =>
    obtain ⟨_, _, hb⟩ := h
    have hbuilt : NodeForm t := nodeForm_buildTree hb hnode
    rw [hf]; exact ⟨hfreq, hbuilt, hcode⟩
  | table =>
    obtain ⟨_, _, hb⟩ := h
    have htable : CodeForm t.code := codeForm_buildTable hb hcode
    rw [hf]; exact ⟨hfreq, hnode, htable⟩
  | _ => rw [hf]; exact m

end

/-- Settles O54: of all a step can do, only a hardware reset and a command's effect write the memories. -/
theorem stepKeepsMemoryForm : Obligations.StepKeepsMemoryForm := by
  intro s t m h
  cases step_outcomes h with
  | unchanged same => rw [same]; exact m
  | reset q _ cleared => rw [cleared]; exact memoryForm_reset
  | raised e w _ _ _ entry => rw [entry]; exact m
  | effect i q _ h => exact memoryForm_effect h m

end Sys2Proof.Machine

namespace Sys2Proof.Machine

/-! ## No step stops (93_implementation_defined.md U2): only BUILD, TABLE and UBYTE could, and the pipeline's rules give them what they
read -/

/-- The computation gives a next state. -/
def Completes (r : Result) : Prop := ∃ t, r = .next t

section
variable {s : State}

/-- A work command completes if its rule does where it is legal. -/
theorem completes_work {i : Instr} {body : State → Result} (h : legal i s = true → Completes (body s)) :
    Completes (work i body s) := by
  by_cases he : s.err = 0
  · by_cases hl : legal i s = true
    · rw [work_legal he hl]; exact h hl
    · exact ⟨_, work_outOfPhase he (Bool.not_eq_true _ ▸ hl)⟩
  · exact ⟨_, work_faulted he⟩

/-- A rule that always answers. -/
theorem completes_work_next (i : Instr) (rule : State → State) : Completes (work i (fun s => .next (rule s)) s) :=
  completes_work fun _ => ⟨_, rfl⟩

theorem completes_outcomeOf {e : Except Fault State} (h : ∃ t, e = .ok t) : Completes (outcomeOf e) := by
  obtain ⟨t, rfl⟩ := h
  exact ⟨t, rfl⟩

/-- In PHASE 1 there are 2 to 128 leaves to merge (41_treebuilder.md R125). -/
theorem buildTree_completes (p : PipelineRules s) (hp : s.phase = pSorted) : ∃ t, buildTree s = .ok t := by
  obtain ⟨two, most, _⟩ := p.leaves (by rw [hp]; decide)
  obtain ⟨u, _, hb, _⟩ := buildTree_ends (P := fun _ => True) two most (fun _ _ _ _ _ _ _ _ => trivial) trivial
  exact ⟨_, hb⟩

/-- In PHASE 2 there is a strict tree to walk (42_codetable.md R142). -/
theorem buildTable_completes (p : PipelineRules s) (hp : s.phase = pTree) : ∃ t, buildTable s = .ok t := by
  obtain ⟨_, _, _, _, T, _⟩ := p.tree (show pTree ≤ s.phase by rw [hp]; exact BitVec.le_refl _)
  obtain ⟨c, hc, _⟩ := buildTable_spec T
  exact ⟨_, hc⟩

/-- In an open session the cursor is an internal node of a strict tree, from which every bit completes (44_unpacker_decoder.md R184). -/
theorem unpackByte_completes (cmd : Word) (b : Byte) (p : PipelineRules s) (hu : s.uphase ≠ uIdle) :
    ∃ t, unpackByte cmd b s = .ok t := by
  obtain ⟨hp, h1, h2⟩ := p.session hu
  obtain ⟨_, _, _, _, T, _⟩ := p.tree hp
  unfold unpackByte
  split
  · split
    · exact ⟨_, rfl⟩
    · next j _ =>
      obtain ⟨t, ht, _⟩ := decodeBits_internal (bitsBelow b j) (s := { s with uphase := uPayload })
        (TreeShape.congr (s := s) rfl rfl rfl T) h1 h2
      exact ⟨t, ht⟩
  · obtain ⟨t, ht, _⟩ := decodeBits_internal (byteBits b) T h1 h2
    exact ⟨t, ht⟩

/-- Every command completes where the pipeline's rules hold. -/
theorem completes_exec (i : Instr) (p : PipelineRules s) : Completes (exec i s) := by
  cases i with
  | build =>
    rw [exec_build]
    exact completes_work fun hl => completes_outcomeOf (buildTree_completes p (legal_build.mp hl))
  | table =>
    rw [exec_table]
    exact completes_work fun hl => completes_outcomeOf (buildTable_completes p (legal_table.mp hl))
  | ubyte b =>
    rw [exec_ubyte]
    exact completes_work fun hl => completes_outcomeOf (unpackByte_completes _ b p (legal_ubyte.mp hl))
  | nop | clr | rdcsr _ | rdnode _ | rdwt _ | rdlen _ | rdcode _ _ => exact ⟨_, rfl⟩
  | sym _ | addf _ _ | fin | enc _ | pbit _ | pack | dbeg | dend => exact completes_work_next _ _

end

/-- Settles O57: with no event, on a reset and on an illegal word a step always answers; a command completes by the pipeline's rules,
which do not read the port. -/
theorem noStepStops : Obligations.NoStepStops := by
  intro s inv
  rcases step_cases s with ⟨_, hs⟩ | ⟨q, _, hs⟩ | ⟨w, q, i, _, _, hs⟩ | ⟨w, q, e, _, _, hs⟩
  · exact ⟨_, hs⟩
  · exact ⟨_, hs⟩
  · rw [hs]; exact completes_exec i (pipelineRules_unread inv.pipeline rfl)
  · exact ⟨_, hs⟩

end Sys2Proof.Machine

/-!
PROOFS of the family 30_encoding.md: which words decode (`decode_iff`), from which the agreement of the decoder with the encoder and with
the table of match and mask follows; and what a step makes of a command word.
-/

namespace Sys2Proof

/-! ## The decoder on the word of a command (30_encoding.md R82 to R85) -/

/-- Within its operand limits, and only there, a command is what its word decodes to: the OPC finds the row, and the row's format reads the
operands back. -/
theorem decode_encode_iff (i : Instr) : decode (encode i) = .ok i ↔ i.wf = true := by
  cases i with
  | nop | clr | fin | build | table | pack | dbeg | dend => decide
  | rdlen x | sym x | enc x => simp [encode, decode, formatS_ok, Instr.wf]
  | addf x n => simp [encode, decode, formatSN_ok, Instr.wf]
  | pbit v | ubyte v => simp [encode, decode, formatV_ok, Instr.wf]
  | rdcsr k | rdnode k | rdwt k => simp [encode, decode, formatX_ok, Instr.wf]
  | rdcode x k => simp [encode, decode, formatSK_ok, Instr.wf]

/-- The words that decode are the words of the well-formed commands, one word each. -/
theorem decode_iff {w : Word} {i : Instr} : decode w = .ok i ↔ i.wf = true ∧ encode i = w := by
  constructor
  · intro h
    have hw : encode i = w := encode_of_decode h
    exact ⟨(decode_encode_iff i).mp (hw ▸ h), hw⟩
  · rintro ⟨hwf, rfl⟩
    exact (decode_encode_iff i).mpr hwf

/-- Settles O2: each command's format reads back the operands that the encoder writes (`decode_encode_iff`). -/
theorem decodeInvertsEncode : Obligations.DecodeInvertsEncode :=
  fun i => (decode_encode_iff i).mpr

/-- Settles O3: the word is the command's own (`encode_of_decode`), so the limits are those of `decode_encode_iff`. -/
theorem encodeInvertsDecode : Obligations.EncodeInvertsDecode :=
  fun _ _ => decode_iff.mp

/-! ## The decoder and the assembler on the spec's own words (30_encoding.md R84, R85, R88, R89) -/

/-- Settles O1: each word is a number, and the decoder computes. -/
theorem specWordsDecode : Obligations.SpecWordsDecode := by
  unfold Obligations.SpecWordsDecode
  decide

/-- Settles O6: each line is a list of characters, and the assembler computes. -/
theorem assemblerGivesTheSpecWords : Obligations.AssemblerGivesTheSpecWords := by
  unfold Obligations.AssemblerGivesTheSpecWords
  decide

/-! ## The decoder and the table of match and mask (30_encoding.md R84, R85) -/

/-- The command's word selects the row of its mnemonic. -/
theorem encode_selects_row : ∀ i : Instr, Laws.RowSelected.Statement i
  | .nop => Laws.RowSelected.nop
  | .clr => Laws.RowSelected.clr
  | .rdcsr k => Laws.RowSelected.rdcsr k
  | .rdnode j => Laws.RowSelected.rdnode j
  | .rdwt j => Laws.RowSelected.rdwt j
  | .rdlen x => Laws.RowSelected.rdlen x
  | .rdcode x k => Laws.RowSelected.rdcode x k
  | .sym x => Laws.RowSelected.sym x
  | .addf x n => Laws.RowSelected.addf x n
  | .fin => Laws.RowSelected.fin
  | .build => Laws.RowSelected.build
  | .table => Laws.RowSelected.table
  | .enc x => Laws.RowSelected.enc x
  | .pbit v => Laws.RowSelected.pbit v
  | .pack => Laws.RowSelected.pack
  | .dbeg => Laws.RowSelected.dbeg
  | .ubyte b => Laws.RowSelected.ubyte b
  | .dend => Laws.RowSelected.dend

/-- `i` is the well-formed command with this mnemonic and this word. -/
def IsCommand (name : String) (w : Word) (i : Instr) : Prop := i.wf = true ∧ encode i = w ∧ i.mnemonic = name

/-- Every word that selects the row is the word of a command of the row. -/
def OpRow.Covered (r : OpRow) : Prop := ∀ w, r.selects w = true → ∃ i, IsCommand r.mnemonic w i

/-! Operand fields under the masks of R84. -/

theorem byte_and_full (a : Byte) : a &&& 0xFF = a := BitVec.and_allOnes

theorem fieldB_and_full (b : BitVec 16) : b &&& 0xFFFF = b := BitVec.and_allOnes

theorem symbol_of_mask {a : Byte} (h : a &&& 0x80 = 0) : (a.setWidth 7).setWidth 8 = a :=
  setWidth_symbol a (by simpa using congrArg (·.getLsbD 7) h)

theorem chunk_of_mask {b : BitVec 16} (h : b &&& 0xFFFC = 0) : (b.setWidth 2).setWidth 16 = b := by
  refine setWidth_chunk b (BitVec.eq_of_getLsbD_eq fun i hi => ?_)
  have mask : ∀ i < 14, (0xFFFC : BitVec 16).getLsbD (2 + i) = true := by decide
  have bit := congrArg (·.getLsbD (2 + i)) h
  simp only [BitVec.getLsbD_and, mask i hi, Bool.and_true] at bit
  simpa [hi] using bit

section
variable {name : String} {o am limit : Byte} {bm : BitVec 16}

/-- A row fixes OPC, and masks A and B to 0. -/
theorem covered_of_fields
    (h : ∀ a b, a &&& am = 0 → b &&& bm = 0 → a ≤ limit → ∃ i, IsCommand name (mkWord o a b) i) :
    OpRow.Covered ⟨name, mkWord o 0 0, mkWord 0xFF am bm, limit⟩ := by
  intro w hw
  rw [← mkWord_fields w, OpRow.selects, mkWord_and, fieldA_mkWord, Bool.and_eq_true, decide_eq_true_eq, decide_eq_true_eq,
    mkWord_inj] at hw
  obtain ⟨⟨ho, ha, hb⟩, hl⟩ := hw
  rw [← mkWord_fields w, ← byte_and_full (fieldOpc w), ho]
  exact h _ _ ha hb hl

/-! One lemma per kind of operands. -/

theorem covered_noOperand {i : Instr} (hi : IsCommand name (mkWord o 0 0) i) :
    OpRow.Covered ⟨name, mkWord o 0 0, mkWord 0xFF 0xFF 0xFFFF, limit⟩ :=
  covered_of_fields fun a b ha hb _ => by
    rw [← byte_and_full a, ha, ← fieldB_and_full b, hb]
    exact ⟨i, hi⟩

/-- A byte in A, whatever the mask says of it beyond the limit. -/
theorem covered_byte {f : Byte → Instr} (hf : ∀ a, a ≤ limit → IsCommand name (mkWord o a 0) (f a)) :
    OpRow.Covered ⟨name, mkWord o 0 0, mkWord 0xFF am 0xFFFF, limit⟩ :=
  covered_of_fields fun a b _ hb hl => by
    rw [← fieldB_and_full b, hb]
    exact ⟨f a, hf a hl⟩

theorem covered_symbol {f : Symbol → Instr} (hf : ∀ x, IsCommand name (mkWord o (x.setWidth 8) 0) (f x)) :
    OpRow.Covered ⟨name, mkWord o 0 0, mkWord 0xFF 0x80 0xFFFF, limit⟩ :=
  covered_of_fields fun _ b ha hb _ => by
    rw [← fieldB_and_full b, hb, ← symbol_of_mask ha]
    exact ⟨_, hf _⟩

theorem covered_symbolCount {f : Symbol → BitVec 16 → Instr} (hf : ∀ x n, IsCommand name (mkWord o (x.setWidth 8) n) (f x n)) :
    OpRow.Covered ⟨name, mkWord o 0 0, mkWord 0xFF 0x80 0, limit⟩ :=
  covered_of_fields fun _ _ ha _ _ => by
    rw [← symbol_of_mask ha]
    exact ⟨_, hf _ _⟩

theorem covered_symbolChunk {f : Symbol → BitVec 2 → Instr}
    (hf : ∀ x k, IsCommand name (mkWord o (x.setWidth 8) (k.setWidth 16)) (f x k)) :
    OpRow.Covered ⟨name, mkWord o 0 0, mkWord 0xFF 0x80 0xFFFC, limit⟩ :=
  covered_of_fields fun _ _ ha hb _ => by
    rw [← symbol_of_mask ha, ← chunk_of_mask hb]
    exact ⟨_, hf _ _⟩

end

/-- The eighteen rows of R84 in their order, each by its operands. -/
theorem opRows_covered : ∀ r ∈ opRows, r.Covered := by
  simp only [opRows, List.forall_mem_append, List.forall_mem_cons]
  exact ⟨
    ⟨covered_noOperand (o := 0x00) (i := .nop) ⟨rfl, rfl, rfl⟩,
    covered_noOperand (o := 0x01) (i := .clr) ⟨rfl, rfl, rfl⟩,
    covered_byte (o := 0x08) (am := 0xF8) (f := .rdcsr) fun _ h => ⟨decide_eq_true h, rfl, rfl⟩,
    covered_byte (o := 0x09) (am := 0x00) (f := .rdnode) fun _ h => ⟨decide_eq_true h, rfl, rfl⟩,
    covered_byte (o := 0x0A) (am := 0x00) (f := .rdwt) fun _ h => ⟨decide_eq_true h, rfl, rfl⟩,
    covered_symbol (o := 0x0B) (f := .rdlen) fun _ => ⟨rfl, rfl, rfl⟩,
    covered_symbolChunk (o := 0x0C) (f := .rdcode) fun _ _ => ⟨rfl, rfl, rfl⟩,
    covered_symbol (o := 0x10) (f := .sym) fun _ => ⟨rfl, rfl, rfl⟩,
    covered_symbolCount (o := 0x11) (f := .addf) fun _ _ => ⟨rfl, rfl, rfl⟩,
    List.forall_mem_nil _⟩,
    covered_noOperand (o := 0x12) (i := .fin) ⟨rfl, rfl, rfl⟩,
    covered_noOperand (o := 0x20) (i := .build) ⟨rfl, rfl, rfl⟩,
    covered_noOperand (o := 0x30) (i := .table) ⟨rfl, rfl, rfl⟩,
    covered_symbol (o := 0x40) (f := .enc) fun _ => ⟨rfl, rfl, rfl⟩,
    covered_byte (o := 0x41) (am := 0x00) (f := .pbit) fun _ _ => ⟨rfl, rfl, rfl⟩,
    covered_noOperand (o := 0x42) (i := .pack) ⟨rfl, rfl, rfl⟩,
    covered_noOperand (o := 0x50) (i := .dbeg) ⟨rfl, rfl, rfl⟩,
    covered_byte (o := 0x51) (am := 0x00) (f := .ubyte) fun _ _ => ⟨rfl, rfl, rfl⟩,
    covered_noOperand (o := 0x52) (i := .dend) ⟨rfl, rfl, rfl⟩,
    List.forall_mem_nil _⟩

/-- Settles O4: a word that decodes is its command's own, which selects the command's row; and a word that selects a row is the word of a
command of the row, which decodes to it. -/
theorem decoderFollowsTheTable : Obligations.DecoderFollowsTheTable := by
  constructor
  · intro w i h
    obtain ⟨hwf, rfl⟩ := decode_iff.mp h
    obtain ⟨r, hr, hm, hs⟩ := encode_selects_row i hwf
    exact ⟨r, hr, hs, hm⟩
  · intro w r hr hs
    obtain ⟨i, hwf, hw, hm⟩ := opRows_covered r hr w hs
    exact ⟨i, decode_iff.mpr ⟨hwf, hw⟩, hm⟩

/-- No two rows share a mnemonic. -/
theorem mnemonics_nodup : (opRows.map OpRow.mnemonic).Nodup := by decide

/-- Settles O5: rows that select one word have the mnemonic of the one command it decodes to, which names its row (`mnemonics_nodup`). -/
theorem oneRowPerWord : Obligations.OneRowPerWord := by
  intro w r r' hr hr' hs hs'
  obtain ⟨i, hi, hm⟩ := decoderFollowsTheTable.2 w r hr hs
  obtain ⟨i', hi', hm'⟩ := decoderFollowsTheTable.2 w r' hr' hs'
  cases hi.symm.trans hi'
  exact List.inj_on_of_nodup_map mnemonics_nodup hr hr' (hm.symm.trans hm')

end Sys2Proof

namespace Sys2Proof.Machine

/-! ## A step on a command word (30_encoding.md R85, R87) -/

/-- Settles O7: `step_command`. -/
theorem stepRunsTheDecodedCommand : Obligations.StepRunsTheDecodedCommand :=
  fun _ _ _ _ => step_command

/-- Settles O8: a step on such a word is the rule for illegal words, which goes by ERR. -/
theorem illegalWordsFaultOrAreIgnored : Obligations.IllegalWordsFaultOrAreIgnored := by
  intro s w q e hp hd
  rw [step_illegal hp hd]
  rcases illegal_cases w { s with port := q } with ⟨he, hi⟩ | ⟨he, hi⟩
  · exact ⟨fun h => absurd h he, fun _ => by rw [hi]⟩
  · exact ⟨fun _ => by rw [hi]; rfl, fun h => absurd he h⟩

end Sys2Proof.Machine

/-!
PROOFS of the family 40_frequency.md: the next state of SYM and ADDF while TOTAL has room (`counted`) and of FIN from counts that have a
record (`finished`), and what these states hold.
-/

namespace Sys2Proof.Machine

/-! ## SYM and ADDF (40_frequency.md R100, R101) -/

section
variable {s : State} {x : Symbol}

/-- The state with `n` more counted of the symbol `x`. -/
def counted (x : Symbol) (n : Word) (s : State) : State :=
  { setFreq x (freqAt s x + n) s with total := s.total + n }

/-- While TOTAL has room, SYM and ADDF count. -/
theorem addCount_counted {c n : Word} (hroom : s.total.toNat + n.toNat ≤ 2 ^ 32 - 1) : addCount c x n s = counted x n s := by
  rcases addCount_cases c x n s with ⟨hfull, _⟩ | ⟨_, h⟩
  · omega
  · exact h

theorem exec_sym_counted (he : s.err = 0) (hp : s.phase = 0) (hroom : s.total.toNat + 1 ≤ 2 ^ 32 - 1) :
    exec (.sym x) s = .next (counted x 1 s) := by
  rw [exec_sym, work_legal he (legal_sym.mpr hp), addCount_counted hroom]

theorem exec_addf_counted {n : BitVec 16} (he : s.err = 0) (hp : s.phase = 0)
    (hroom : s.total.toNat + n.toNat ≤ 2 ^ 32 - 1) : exec (.addf x n) s = .next (counted x (countOperand n) s) := by
  rw [← countOperand_toNat n] at hroom
  rw [exec_addf, work_legal he (legal_addf.mpr hp), addCount_counted hroom]

theorem freqAt_counted (x y : Symbol) (n : Word) (s : State) :
    freqAt (counted x n s) y = freqAt s y + if y = x then n else 0 := by
  rw [show freqAt (counted x n s) y = _ from freqAt_setFreq x y _ s]
  split
  · next h => rw [h]
  · exact (add_zero _).symm

theorem freqAt_counted_self (x : Symbol) (n : Word) (s : State) : freqAt (counted x n s) x = freqAt s x + n := by
  rw [freqAt_counted, if_pos rfl]

theorem freqAt_counted_other {y : Symbol} (hy : y ≠ x) (n : Word) (s : State) : freqAt (counted x n s) y = freqAt s y := by
  rw [freqAt_counted, if_neg hy, add_zero]

/-- TOTAL grows by the whole count of an ADDF that it has room for. -/
theorem counted_total_toNat {n : BitVec 16} (hroom : s.total.toNat + n.toNat ≤ 2 ^ 32 - 1) :
    (counted x (countOperand n) s).total.toNat = s.total.toNat + n.toNat := by
  show (s.total + countOperand n).toNat = _
  rw [BitVec.toNat_add, countOperand_toNat]
  omega

end

/-- Settles O23: SYM counts one more of its symbol. -/
theorem symCountsOneSymbol : Obligations.SymCountsOneSymbol := by
  intro x s he hp hroom
  exact ⟨counted x 1 s, exec_sym_counted he hp hroom, freqAt_counted_self x 1 s, fun _ hy => freqAt_counted_other hy 1 s, rfl, rfl⟩

/-- Settles O24: ADDF counts its operand, zero-extended, of its symbol. -/
theorem addfAddsTheCount : Obligations.AddfAddsTheCount := by
  intro x n s he hp hroom
  exact ⟨counted x (countOperand n) s, exec_addf_counted he hp hroom, freqAt_counted_self x _ s,
    fun _ hy => freqAt_counted_other hy _ s, counted_total_toNat hroom, rfl⟩

/-! ## The order of counts (40_frequency.md R101; notes/assumptions/5.md) -/

section
variable {s t : State} {x : Symbol}

/-- In canonical form FREQ is determined by the counts it holds. -/
theorem freq_ext (hs : MemoryForm s) (ht : MemoryForm t) (h : ∀ x, freqAt s x = freqAt t x) : s.freq = t.freq := by
  refine Memory.ext_of_read 0 128 _ _ hs.1 ht.1 fun i => ?_
  by_cases hi : i < 128
  · have hx := h (BitVec.ofNat 7 i)
    rwa [freqAt, freqAt, BitVec.toNat_ofNat, Nat.mod_eq_of_lt hi] at hx
  · rw [Memory.read_beyond 0 128 s.freq i (by omega) 0 hs.1, Memory.read_beyond 0 128 t.freq i (by omega) 0 ht.1]

theorem memoryForm_counted (n : Word) (h : MemoryForm s) : MemoryForm (counted x n s) :=
  memoryForm_setFreq x _ h

/-- The additions to FREQ and to TOTAL commute. -/
theorem counted_comm (y : Symbol) (n m : Word) (h : MemoryForm s) :
    counted y m (counted x n s) = counted x n (counted y m s) := by
  have hfreq : (counted y m (counted x n s)).freq = (counted x n (counted y m s)).freq :=
    freq_ext (memoryForm_counted m (memoryForm_counted n h)) (memoryForm_counted n (memoryForm_counted m h)) fun z => by
      simp only [freqAt_counted]
      exact add_right_comm _ _ _
  have htotal : s.total + n + m = s.total + m + n := add_right_comm _ _ _
  calc counted y m (counted x n s)
      = { s with freq := (counted y m (counted x n s)).freq, total := s.total + n + m } := rfl
    _ = { s with freq := (counted x n (counted y m s)).freq, total := s.total + m + n } := by rw [hfreq, htotal]
    _ = counted x n (counted y m s) := rfl

end

/-- Settles O26: TOTAL has room for each count after the other, and the counts commute. -/
theorem addfOrderDoesNotMatter : Obligations.AddfOrderDoesNotMatter := by
  intro x y n m s hform he hp hroom
  have hn : s.total.toNat + n.toNat ≤ 2 ^ 32 - 1 := by omega
  have hm : s.total.toNat + m.toNat ≤ 2 ^ 32 - 1 := by omega
  refine ⟨counted x (countOperand n) s, counted y (countOperand m) s, counted y (countOperand m) (counted x (countOperand n) s),
    exec_addf_counted he hp hn, exec_addf_counted he hp ?_, exec_addf_counted he hp hm, ?_⟩
  · rw [counted_total_toNat hn]; omega
  · rw [counted_comm y _ _ hform]
    exact exec_addf_counted he hp (by rw [counted_total_toNat hm]; omega)

/-! ## FIN (40_frequency.md R102 to R107) -/

section
variable {s : State} {x : Symbol}

theorem exec_fin_finished (he : s.err = 0) (hp : s.phase = 0) (hr : recordSet s ≠ []) : exec .fin s = .next (finished s) := by
  rw [exec_fin, work_legal he (legal_fin.mpr hp)]
  rcases finish_cases (encode .fin) s with ⟨hnil, _⟩ | ⟨_, h⟩
  · exact absurd hnil hr
  · exact congrArg _ h

theorem recordSet_ne_nil (hx : freqAt s x ≠ 0) : recordSet s ≠ [] :=
  fun h => hx (recordSet_nil.mp h x)

/-- Two symbols counted have two records. -/
theorem recordSet_length_ne_one {y : Symbol} (hxy : x ≠ y) (hx : freqAt s x ≠ 0) (hy : freqAt s y ≠ 0) :
    (recordSet s).length ≠ 1 := by
  intro h
  obtain ⟨r, hr⟩ := List.length_eq_one_iff.mp h
  have only : ∀ z, freqAt s z ≠ 0 → z = r.sym := fun z hz =>
    congrArg Record.sym (List.mem_singleton.mp (hr ▸ mem_recordSet.mpr ⟨hz, rfl⟩ : (⟨z, freqAt s z⟩ : Record) ∈ [r]))
  exact hxy ((only x hx).trans (only y hy).symm)

/-- The leaf FIN stores of each record of the sorted list. -/
theorem finished_leaf (hr : recordSet s ≠ []) {i : Nat} (hi : i < (sortedList s).length) :
    nodeEntry (finished s) i = leafOf (sortedList s)[i] := by
  rw [finished_node hr, List.getElem?_eq_getElem hi]
  rfl

/-- From the list's length on, FIN leaves NODE alone. -/
theorem finished_beyond (hr : recordSet s ≠ []) {i : Nat} (hi : (sortedList s).length ≤ i) :
    nodeEntry (finished s) i = nodeEntry s i := by
  rw [finished_node hr, List.getElem?_eq_none hi]
  rfl

/-- The leaves stand in the order of the sorted list. -/
theorem finished_leavesSorted (hr : recordSet s ≠ []) : LeavesSorted (finished s) := by
  obtain ⟨_, _, hsym, hord, _⟩ := sortedList_spec hr
  intro i j hij hj
  rw [finished_nleaf hr] at hj
  rw [finished_leaf hr (hij.trans hj), finished_leaf hr hj]
  exact ⟨List.pairwise_iff_getElem.mp hsym i j _ hj hij, recordBefore_iff.mp (List.pairwise_iff_getElem.mp hord i j _ hj hij)⟩

/-- The synthetic record comes before the record it is made from, whatever their symbols, because its weight is 0. -/
theorem synthetic_before {r : Record} (hw : r.weight ≠ 0) : recordBefore (synthetic r) r = true := by
  have hpos : 0 < r.weight := by bv_omega
  exact recordBefore_iff.mpr (.inl hpos)

/-- The sorted list of the only symbol counted (40_frequency.md R107). -/
theorem sortedList_single (hx : freqAt s x ≠ 0) (h : ∀ y, y ≠ x → freqAt s y = 0) :
    sortedList s = [synthetic ⟨x, freqAt s x⟩, ⟨x, freqAt s x⟩] := by
  rw [sortedList, recordSet_single hx h]
  show insertRecord _ [synthetic _] = _
  rw [insertRecord, if_pos (synthetic_before hx), insertRecord]

/-- The symbol of the synthetic record is the next one, and 0 after the last. -/
theorem synthetic_sym (r : Record) : (synthetic r).sym = BitVec.ofNat 7 ((r.sym.toNat + 1) % 128) := by
  refine BitVec.eq_of_toNat_eq ?_
  show (r.sym + 1#7).toNat = _
  rw [BitVec.toNat_add, BitVec.toNat_ofNat, BitVec.toNat_ofNat]
  omega

end

/-- Settles O28: what `sortedList_spec` says of the sorted list, read at the leaves. -/
theorem finStoresTheSortedLeaves : Obligations.FinStoresTheSortedLeaves := by
  rintro s he hp ⟨x, hx⟩
  have hr := recordSet_ne_nil hx
  obtain ⟨h2, h128, _, _, hweight, hevery, hpositive⟩ := sortedList_spec hr
  refine ⟨finished s, exec_fin_finished he hp hr, rfl, ?_⟩
  rw [finished_nleaf hr]
  refine ⟨h2, h128, fun i hi => ?_, finished_leavesSorted hr, fun x hx => ?_, ?_, fun i hi => finished_beyond hr hi, rfl⟩
  · rw [finished_leaf hr hi]
    exact ⟨rfl, rfl, rfl, hweight _ (List.getElem_mem hi)⟩
  · obtain ⟨r, hmem, hsym⟩ := hevery x hx
    obtain ⟨i, hi, rfl⟩ := List.getElem_of_mem hmem
    exact ⟨i, hi, by rw [finished_leaf hr hi]; exact hsym⟩
  · rintro ⟨x, y, hxy, hx, hy⟩ i hi
    rw [finished_leaf hr hi]
    exact hpositive (recordSet_length_ne_one hxy hx hy) _ (List.getElem_mem hi)

/-- Settles O29: the two leaves are those of `sortedList_single`. -/
theorem finInjectsTheSyntheticRecord : Obligations.FinInjectsTheSyntheticRecord := by
  intro x s he hp hx h
  have hr := recordSet_ne_nil hx
  have hlist := sortedList_single hx h
  refine ⟨finished s, exec_fin_finished he hp hr, ?_, rfl, ?_, ?_, rfl, rfl⟩
  · show BitVec.ofNat 8 (sortedList s).length = 2
    rw [hlist]; rfl
  · show nodeEntry (finished s) 0 = _
    rw [finished_node hr, hlist, ← synthetic_sym ⟨x, freqAt s x⟩]
    rfl
  · show nodeEntry (finished s) 1 = _
    rw [finished_node hr, hlist]
    rfl

end Sys2Proof.Machine

/-!
PROOFS of the family 41_treebuilder.md: one take and one merge case by case, what BUILD leaves (from `MergeEnd`, the end of the loop), and
two simulations of the loop: by the loop of another state with the same leaves (R128), and by the FSM (R123).
-/

namespace Sys2Proof.Machine

/-! ## One take and one merge (41_treebuilder.md R122, R124) -/

section
variable {s : State}

theorem srcEmpty_iff : srcEmpty s = true ↔ s.srcHead = s.nleaf := decide_eq_true_iff

theorem tgtEmpty_iff : tgtEmpty s = true ↔ s.tgtHead = s.tgtTail := decide_eq_true_iff

theorem take_of_tgtEmpty (hsrc : s.srcHead ≠ s.nleaf) (htgt : s.tgtHead = s.tgtTail) : take s = .ok (takeSource s) := by
  rw [take, if_neg (mt srcEmpty_iff.mp hsrc), if_pos (tgtEmpty_iff.mpr htgt)]

theorem take_of_srcEmpty (hsrc : s.srcHead = s.nleaf) (htgt : s.tgtHead ≠ s.tgtTail) : take s = .ok (takeTarget s) := by
  rw [take, if_pos (srcEmpty_iff.mpr hsrc), if_neg (mt tgtEmpty_iff.mp htgt)]

/-- While both queues hold a node, the weights of their fronts decide. -/
theorem take_of_both (hsrc : s.srcHead ≠ s.nleaf) (htgt : s.tgtHead ≠ s.tgtTail) (hs : s.srcHead ≠ 255#8) (ht : s.tgtHead ≠ 255#8) :
    take s = if (nodeAt s s.srcHead).weight ≤ (nodeAt s s.tgtHead).weight then .ok (takeSource s) else .ok (takeTarget s) := by
  rw [take, if_neg (mt srcEmpty_iff.mp hsrc), if_neg (mt tgtEmpty_iff.mp htgt), readNode_eq hs, readNode_eq ht, ok_bind, ok_bind]

end

/-- Settles O30: the three cases of Take(); the order of weights is the order of their numbers. -/
theorem takeFollowsTheTieBreak : Obligations.TakeFollowsTheTieBreak :=
  fun _ => ⟨take_of_tgtEmpty, take_of_srcEmpty, take_of_both⟩

/-- Settles O31: `writeMerged_ok` gives the state a merge leaves, in which TGT_TAIL alone reads another entry. -/
theorem mergedNodeIsWrittenAtTheTail : Obligations.MergedNodeIsWrittenAtTheTail := by
  intro s ha hb htail
  refine ⟨_, writeMerged_ok.mpr ⟨ha, hb, htail, rfl⟩, ?_, fun i hi => ?_, rfl⟩
  · exact (nodeAt_setNode s.tgtTail s.tgtTail _ s).trans (if_pos rfl)
  · exact (nodeAt_setNode s.tgtTail i _ s).trans (if_neg hi)

/-! ## What BUILD leaves (41_treebuilder.md R120, R124 to R126) -/

section
variable {s t : State}

/-- A legal BUILD is the build. -/
theorem exec_build_next (he : s.err = 0) (hp : s.phase = 1) : exec .build s = .next t ↔ buildTree s = .ok t := by
  rw [exec_build, work_legal he (legal_build.mpr hp), outcomeOf_next]

/-- On 2 to 128 leaves the build ends, whatever their weights. -/
theorem buildTree_exists (h1 : 2 ≤ s.nleaf.toNat) (h2 : s.nleaf.toNat ≤ 128) :
    ∃ u, buildTree s = .ok (finishBuild u) ∧ MergeEnd s u := by
  obtain ⟨u, _, hb, m, _, hsrc, hhead, htail⟩ := buildTree_ends (P := fun _ => True) h1 h2 (fun _ _ _ _ _ _ _ _ => trivial) trivial
  exact ⟨u, hb, m, hsrc, hhead, htail⟩

/-- A build that answers on 2 to 128 leaves has come to the end of the merge. -/
theorem mergeEnd_of_buildTree (h1 : 2 ≤ s.nleaf.toNat) (h2 : s.nleaf.toNat ≤ 128) (h : buildTree s = .ok t) :
    ∃ u, t = finishBuild u ∧ MergeEnd s u := by
  obtain ⟨u, hb, e⟩ := buildTree_exists h1 h2
  exact ⟨u, Except.ok.inj (h.symm.trans hb), e⟩

end

/-- Settles O32: the build ends as `MergeEnd` says, and keeps its frame. -/
theorem buildCompletes : Obligations.BuildCompletes := by
  intro s he hp h1 h2
  obtain ⟨u, hb, m, hsrc, hhead, htail⟩ := buildTree_exists h1 h2
  have hn := congrArg BitVec.toNat m.nleaf
  refine ⟨_, (exec_build_next he hp).mpr hb, rfl, rfl, hhead, BitVec.eq_of_toNat_eq hsrc, rfl, htail, fun i hi => ?_, ?_⟩
  · exact m.stay i (by omega)
  · exact buildTree_frame hb

/-- Settles O33: the merged entries are a strict tree, and the loop's invariant says what each of them holds. -/
theorem buildMakesAStrictTree : Obligations.BuildMakesAStrictTree := by
  intro s t he hp h1 h2 hleaf hx
  obtain ⟨u, rfl, e⟩ := mergeEnd_of_buildTree h1 h2 ((exec_build_next he hp).mp hx)
  refine ⟨treeShape_of_mergeEnd hleaf e, fun i hi hroot => ?_⟩
  obtain ⟨m, _, _, htail⟩ := e
  have hn := congrArg BitVec.toNat m.nleaf
  obtain ⟨_, hsym, _, _, _, hweight⟩ := m.internal i (by omega) (by omega)
  exact ⟨hsym, hweight⟩

/-- Settles O34: each merge keeps the weight in the queues, which at the end is the root's. -/
theorem rootWeightIsTheSumOfTheLeaves : Obligations.RootWeightIsTheSumOfTheLeaves := by
  intro s t he hp h1 h2 hfit hx
  obtain ⟨u, rfl, _, e, k⟩ := buildTree_mergeEnd h1 h2 hfit ((exec_build_next he hp).mp hx)
  refine ⟨fun i hi hroot => ?_, rootWeight_of_mergeEnd (u := u) e k⟩
  obtain ⟨m, _, _, htail⟩ := e
  have hn := congrArg BitVec.toNat m.nleaf
  change u.nleaf.toNat ≤ i at hi
  change i ≤ 2 * u.nleaf.toNat - 2 at hroot
  exact k.2 i (by omega) (by omega)

/-! ## The loop, one merge at a time (41_treebuilder.md R120) -/

theorem mergeLoop_succ_ok {n : Nat} {s t : State} : mergeLoop (n + 1) s = .ok t ↔
    ∃ u, mergeOnce s = .ok u ∧ (remaining u = 1 ∧ u = t ∨ remaining u ≠ 1 ∧ mergeLoop n u = .ok t) := by
  rw [mergeLoop, bind_ok]
  refine exists_congr fun u => and_congr_right fun _ => ?_
  by_cases hone : remaining u = 1
  · simp [hone]
  · simp [hone]

/-! ## The loop depends on the leaves alone (41_treebuilder.md R128) -/

section
variable {s₀ s s' t : State}

/-- While two nodes remain, TGT_TAIL is below the end of the space. -/
theorem Merging.tail_lt (m : Merging s₀ s) (h : 2 ≤ remaining s) : s.tgtTail.toNat < 2 * s.nleaf.toNat - 1 := by
  have := remaining_of_merging m
  omega

/-- A merge that answers keeps the invariant, and leaves at least one node. -/
theorem Merging.next (m : Merging s₀ s) (h2 : 2 ≤ remaining s) (h : mergeOnce s = .ok t) : Merging s₀ t ∧ 1 ≤ remaining t := by
  have hl := m.tail_lt h2
  obtain ⟨u, a, b, hu, hm⟩ := mergeOnce_spec m.queues h2 hl
  obtain rfl := Except.ok.inj (hu.symm.trans h)
  have mu := m.step hm hl
  have hr := remaining_of_merging mu
  rw [hm.nleaf, hm.tail] at hr
  exact ⟨mu, by omega⟩

theorem Agree.remaining (g : Agree s s') : remaining s' = remaining s := by
  obtain ⟨hn, hsrc, hhead, htail, _⟩ := g
  rw [Machine.remaining, Machine.remaining, hn, hsrc, hhead, htail]

/-- States that agree go through the same merges, and still agree at the end. -/
theorem agree_mergeLoop : ∀ (n : Nat) {s s' t : State}, Merging s₀ s → 2 ≤ remaining s → Agree s s' → mergeLoop n s = .ok t →
    ∃ t', mergeLoop n s' = .ok t' ∧ Agree t t'
  | 0, _, _, _, _, _, _, h => by cases h
  | n + 1, s, s', t, m, h2, g, h => by
    obtain ⟨u, hu, hrest⟩ := mergeLoop_succ_ok.mp h
    obtain ⟨u', hu', gu⟩ := agree_merge m.queues (m.tail_lt h2) h2 g hu
    obtain ⟨mu, hpos⟩ := m.next h2 hu
    have hr := gu.remaining
    rcases hrest with ⟨hone, rfl⟩ | ⟨hmore, hrest⟩
    · exact ⟨u', mergeLoop_succ_ok.mpr ⟨u', hu', .inl ⟨hr.trans hone, rfl⟩⟩, gu⟩
    · obtain ⟨t', ht', gt⟩ := agree_mergeLoop n mu (by omega) gu hrest
      exact ⟨t', mergeLoop_succ_ok.mpr ⟨u', hu', .inr ⟨hr ▸ hmore, ht'⟩⟩, gt⟩

/-- Seed() makes states with the same leaves agree. -/
theorem agree_seed (hn : s'.nleaf = s.nleaf) (h : ∀ i, i < s.nleaf.toNat → nodeEntry s' i = nodeEntry s i) : Agree (seed s) (seed s') :=
  ⟨hn, rfl, hn, hn, h⟩

/-- States with the same leaves build the same tree. -/
theorem agree_buildTree (h1 : 2 ≤ s.nleaf.toNat) (h2 : s.nleaf.toNat ≤ 128) (hn : s'.nleaf = s.nleaf)
    (hleaf : ∀ i, i < s.nleaf.toNat → nodeEntry s' i = nodeEntry s i) (h : buildTree s = .ok t) :
    ∃ t', buildTree s' = .ok t' ∧ t'.root = t.root ∧ Agree t t' := by
  obtain ⟨u, hu, rfl⟩ := buildTree_ok.mp h
  have m := merging_seed h1 h2
  have hr : remaining (seed s) + s.nleaf.toNat = 2 * s.nleaf.toNat := remaining_of_merging m
  obtain ⟨u', hu', g⟩ := agree_mergeLoop 255 m (by omega) (agree_seed hn hleaf) hu
  obtain ⟨_, _, hroot, _⟩ := id g
  exact ⟨finishBuild u', buildTree_ok.mpr ⟨u', hu', rfl⟩, hroot, g⟩

end

/-- Settles O35: the loops of the two states agree on every entry up to the root. -/
theorem buildDependsOnTheLeavesAlone : Obligations.BuildDependsOnTheLeavesAlone := by
  intro s s' t t' he he' hp hp' h1 h2 hn hleaf hx hx'
  have hb := (exec_build_next he hp).mp hx
  obtain ⟨v, hv, hroot, _, _, _, _, hnode⟩ := agree_buildTree h1 h2 hn hleaf hb
  obtain rfl := Except.ok.inj (hv.symm.trans ((exec_build_next he' hp').mp hx'))
  obtain ⟨u, rfl, _, _, hhead, htail⟩ := mergeEnd_of_buildTree h1 h2 hb
  refine ⟨hroot, fun i hi => hnode i ?_⟩
  change i ≤ u.tgtHead.toNat at hi
  show i < u.tgtTail.toNat
  omega

/-! ## The FSM goes through the merges of the loop (41_treebuilder.md R123) -/

section
variable {s t u : State}

/-- A transition, then a run. -/
theorem fsmRun_succ_of_step {n : Nat} (h : fsmStep s = .ok t) : fsmRun (n + 1) s = fsmRun n t := by
  rw [fsmRun, h, ok_bind]

theorem fsmStep_idle (h : s.tbState = tbIdle) : fsmStep s = .ok { seed s with tbState := tbTake1 } := by
  rw [fsmStep, if_pos h]

theorem fsmStep_done (h : s.tbState = tbDone) : fsmStep s = .ok s := by
  rw [fsmStep, h]; rfl

/-- TB_TAKE1 takes the first node, as the loop does. -/
theorem fsmStep_take1 {i : NodeIdx} (h : take s = .ok (i, t)) :
    fsmStep { s with tbState := tbTake1 } = .ok { t with tbA := i, tbState := tbTake2 } := by
  show (takeFirst { s with tbState := tbTake1 } >>= fun t => Except.ok { t with tbState := tbTake2 }) = _
  rw [takeFirst_ok.mpr ⟨i, _, take_tbState tbTake1 h, rfl⟩, ok_bind]

/-- TB_TAKE2 takes the second node, as the loop does. -/
theorem fsmStep_take2 {i : NodeIdx} (h : take s = .ok (i, t)) :
    fsmStep { s with tbState := tbTake2 } = .ok { t with tbB := i, tbState := tbMerge } := by
  show (takeSecond { s with tbState := tbTake2 } >>= fun t => Except.ok { t with tbState := tbMerge }) = _
  rw [takeSecond_ok.mpr ⟨i, _, take_tbState tbTake2 h, rfl⟩, ok_bind]

/-- Writing the merged node does not depend on TBSTATE. -/
theorem writeMerged_tbState (x : BitVec 3) (h : writeMerged s = .ok t) :
    writeMerged { s with tbState := x } = .ok { t with tbState := x } := by
  obtain ⟨ha, hb, htail, rfl⟩ := writeMerged_ok.mp h
  exact writeMerged_ok.mpr ⟨ha, hb, htail, rfl⟩

/-- Where the FSM goes from TB_MERGE: to TB_DONE with the end of the build, or on to the next merge. -/
def afterMerge (u : State) : State := if remaining u = 1 then finishBuild u else { u with tbState := tbTake1 }

/-- TB_MERGE writes the merged node, as the loop does. -/
theorem fsmStep_merge (h : writeMerged s = .ok u) : fsmStep { s with tbState := tbMerge } = .ok (afterMerge u) := by
  show (writeMerged { s with tbState := tbMerge } >>= fun t =>
    if remaining t = 1 then Except.ok (finishBuild t) else .ok { t with tbState := tbTake1 }) = _
  rw [writeMerged_tbState tbMerge h, ok_bind]
  exact (apply_ite Except.ok _ _ _).symm

/-- Three transitions are one merge. -/
theorem fsmRun_mergeOnce {n : Nat} (h : mergeOnce s = .ok u) :
    fsmRun (n + 3) { s with tbState := tbTake1 } = fsmRun n (afterMerge u) := by
  obtain ⟨i, v, j, w, hv, hw, hu⟩ := mergeOnce_ok.mp h
  calc fsmRun (n + 3) { s with tbState := tbTake1 }
      = fsmRun (n + 2) { v with tbA := i, tbState := tbTake2 } := fsmRun_succ_of_step (fsmStep_take1 hv)
    _ = fsmRun (n + 1) { w with tbB := j, tbState := tbMerge } := fsmRun_succ_of_step (fsmStep_take2 hw)
    _ = fsmRun n (afterMerge u) := fsmRun_succ_of_step (fsmStep_merge hu)

/-- From TB_TAKE1 the FSM goes through the merges of the loop. -/
theorem fsmRun_mergeLoop : ∀ (bound : Nat) {s t : State}, mergeLoop bound s = .ok t →
    ∃ n, fsmRun n { s with tbState := tbTake1 } = .ok (finishBuild t)
  | 0, _, _, h => by cases h
  | bound + 1, s, t, h => by
    obtain ⟨u, hu, ⟨hone, rfl⟩ | ⟨hmore, hrest⟩⟩ := mergeLoop_succ_ok.mp h
    · refine ⟨3, ?_⟩
      rw [fsmRun_mergeOnce (n := 0) hu, afterMerge, if_pos hone, fsmRun]
    · obtain ⟨n, hn⟩ := fsmRun_mergeLoop bound hrest
      refine ⟨n + 3, ?_⟩
      rw [fsmRun_mergeOnce hu, afterMerge, if_neg hmore, hn]

end

/-- Settles O36: Seed() is the first transition, `fsmRun_mergeLoop` the others, and TB_DONE has no move. -/
theorem fsmReachesTheStateOfTheLoop : Obligations.FsmReachesTheStateOfTheLoop := by
  intro s t hidle hb
  obtain ⟨u, hu, rfl⟩ := buildTree_ok.mp hb
  obtain ⟨n, hn⟩ := fsmRun_mergeLoop 255 hu
  exact ⟨n + 1, (fsmRun_succ_of_step (fsmStep_idle hidle)).trans hn, fsmStep_done rfl⟩

end Sys2Proof.Machine

/-!
PROOFS of the family 42_codetable.md: what Entry(p) holds (R143), the entries TABLE writes (from `buildTable_spec`, what the traversal
leaves), and prefix freedom, which holds because a path cannot go on below a leaf (R145 c).
-/

namespace Sys2Proof.Machine

/-! ## The entry of a code (42_codetable.md R143; 10_state.md R28) -/

section
variable {p : List Bool}

theorem entryOf_len_toNat (hp : p.length ≤ 127) : (entryOf p).len.toNat = p.length := by
  rw [entryOf, BitVec.toNat_ofNat, Nat.mod_eq_of_lt (by omega)]

/-- The bits of the entry from the top are the code's own. -/
theorem entryOf_getMsbD {j : Nat} (hp : p.length ≤ 127) (hj : j < p.length) : p[j]? = some ((entryOf p).bits.getMsbD j) := by
  rw [entryOf, leftAlign_getMsbD p j (by omega), List.getElem?_eq_getElem hj, Option.getD_some]

/-- Below the code the entry's bits are 0. -/
theorem entryOf_getMsbD_below {j : Nat} (hj : p.length ≤ j) : (entryOf p).bits.getMsbD j = false := by
  by_cases h127 : j < 127
  · rw [entryOf, leftAlign_getMsbD p j h127, List.getElem?_eq_none hj, Option.getD_none]
  · exact BitVec.getMsbD_of_ge _ j (by omega)

end

/-- Settles O38: `leftAlign_getMsbD` gives every bit of the entry, and the lookup reads the first len(p) of them. -/
theorem entryHoldsTheCode : Obligations.EntryHoldsTheCode :=
  fun _ _ hp => ⟨rfl, entryOf_len_toNat hp, sequence_entryOf hp, fun _ hj => entryOf_getMsbD hp hj, fun _ hj => entryOf_getMsbD_below hj⟩

/-! ## What TABLE writes (42_codetable.md R140 to R142) -/

section
variable {s t : State}

/-- A legal TABLE is the traversal. -/
theorem exec_table_next (he : s.err = 0) (hp : s.phase = 2) : exec .table s = .next t ↔ buildTable s = .ok t := by
  rw [exec_table, work_legal he (legal_table.mpr hp), outcomeOf_next]

/-- Sorted leaves have different symbols. -/
theorem LeavesSorted.index_eq (h : LeavesSorted s) {i j : Nat} (hi : i < s.nleaf.toNat) (hj : j < s.nleaf.toNat)
    (hsym : (nodeEntry s i).sym = (nodeEntry s j).sym) : i = j := by
  rcases Nat.lt_trichotomy i j with hlt | heq | hgt
  · exact absurd hsym (h i j hlt hj).1
  · exact heq
  · exact absurd hsym.symm (h j i hgt hi).1

/-- With different symbols, the path entry of a leaf's symbol is the entry of that leaf's own path. -/
theorem PathEntry.own_leaf {c : Memory CodeEntry} {i : Nat} (hsorted : LeavesSorted s) (hi : i < s.nleaf.toNat)
    (h : PathEntry s c (nodeEntry s i).sym) :
    ∃ p, followPath s s.root p = some (BitVec.ofNat 8 i) ∧ 1 ≤ p.length ∧ p.length ≤ s.nleaf.toNat - 1 ∧
      Memory.read .unset c (nodeEntry s i).sym.toNat = entryOf p := by
  obtain ⟨p, j, hne, hfollow, hj, hsym, hlen, hread⟩ := h
  obtain rfl : j.toNat = i := hsorted.index_eq hj hi hsym
  exact ⟨p, by rw [hfollow, BitVec.ofNat_toNat, BitVec.setWidth_eq], List.length_pos_iff.mpr hne, hlen, hread⟩

end

/-- Settles O37: every leaf's symbol has the entry of a path (`buildTable_spec`), which is the leaf's own as symbols differ, and an entry
that is no leaf's is not written. -/
theorem tableWritesThePathOfEveryLeaf : Obligations.TableWritesThePathOfEveryLeaf := by
  intro s he hp T hsorted
  obtain ⟨c, hc, hpath, hleaf⟩ := buildTable_spec T
  refine ⟨_, (exec_table_next he hp).mpr hc, rfl, fun i hi => ?_, fun x hx => ?_, rfl⟩
  · obtain ⟨p, hfollow, h1, hlen, hread⟩ := (hleaf i hi).own_leaf hsorted hi
    have hmax := T.leafCount
    obtain ⟨hvalid, hplen, hseq, -, hbelow⟩ := entryHoldsTheCode p h1 (by omega)
    have hcode : codeAt { s with code := c, phase := pReady } (nodeEntry s i).sym = entryOf p := hread
    refine ⟨p, hfollow, h1, hlen, hcode, ?_⟩
    rw [hcode]
    exact ⟨hvalid, hplen, hseq, hbelow⟩
  · rcases hpath x with hkept | ⟨_, j, _, _, hj, hsym, _⟩
    · exact hkept
    · exact absurd hsym (hx j.toNat hj)

/-! ## Prefix freedom (42_codetable.md R145 c) -/

section
variable {s : State}

/-- No path goes on below a leaf. -/
theorem followPath_of_leaf {i j : NodeIdx} {p : List Bool} (hleaf : (nodeAt s i).leaf = true) (h : followPath s i p = some j) : i = j := by
  cases p with
  | nil => exact Option.some.inj h
  | cons b p =>
    obtain ⟨_, hinternal, _⟩ := followPath_cons_some h
    rw [hleaf] at hinternal
    cases hinternal

/-- A path that another path to a leaf begins with leads to the same leaf. -/
theorem isPathTo_prefix {p q : List Bool} {x y : Symbol} (hx : isPathTo s p x) (hy : isPathTo s q y) (hpq : p <+: q) : x = y := by
  obtain ⟨_, i, hi, _, hleaf, hxi⟩ := hx
  obtain ⟨_, j, hj, _, _, hyj⟩ := hy
  obtain ⟨r, rfl⟩ := hpq
  obtain ⟨k, hk, hrest⟩ := (followPath_append p r).mp hj
  obtain rfl : i = k := Option.some.inj (hi.symm.trans hk)
  obtain rfl := followPath_of_leaf hleaf hrest
  exact hxi.symm.trans hyj

end

/-- Settles O39: a code that begins another would end at its leaf, so the two symbols would be one. -/
theorem noCodeIsAPrefixOfAnother : Obligations.NoCodeIsAPrefixOfAnother :=
  fun _ x y hcodes hxy hx hy hpq => hxy (isPathTo_prefix (hcodes.path x hx) (hcodes.path y hy) hpq)

end Sys2Proof.Machine

/-!
PROOFS of the family 43_bitpacker.md: the next state of ENC and PBIT as `appendBits` has it, with room or without, and the one byte of an
empty PACK, read off the wire format.
-/

namespace Sys2Proof.Machine

/-! ## Bits appended or not (60_exceptions.md R225) -/

section
variable {s : State} {cap : Nat} {c : Word} {bits : List Bool}

theorem appendBits_fits (h : s.bitbuf.length + bits.length ≤ cap) : appendBits cap c bits s = { s with bitbuf := s.bitbuf ++ bits } :=
  if_neg (Nat.not_lt.mpr h)

theorem appendBits_overflows (h : s.bitbuf.length + bits.length > cap) : appendBits cap c bits s = raise .bufferOverflow c s :=
  if_pos h

end

/-! ## ENC (43_bitpacker.md R160; 42_codetable.md R144) -/

theorem sequence_length (e : CodeEntry) : e.sequence.length = e.len.toNat := by
  rw [CodeEntry.sequence, List.length_map, List.length_range]

/-- Bit j of a code is `bits[126 - j]` of its entry. -/
theorem sequence_getElem? {e : CodeEntry} {j : Nat} (hj : j < e.len.toNat) : e.sequence[j]? = some (e.bits.getMsbD j) := by
  rw [CodeEntry.sequence, List.getElem?_map, List.getElem?_range hj, Option.map_some]

/-- A legal ENC of a set entry hands its code to `appendBits`. -/
theorem exec_enc_set {s : State} {x : Symbol} (he : s.err = 0) (hp : s.phase = 3) (hset : (codeAt s x).valid = true) :
    exec (.enc x) s = .next (appendBits Config.bitbufCap (encode (.enc x)) (codeAt s x).sequence s) := by
  rw [exec_enc, work_legal he (legal_enc.mpr hp), encodeSymbol, if_pos hset]

/-- Settles O40: the bits appended are the entry's sequence. -/
theorem encAppendsTheCode : Obligations.EncAppendsTheCode := by
  intro x s he hp hset hfits
  have hlen := sequence_length (codeAt s x)
  refine ⟨(codeAt s x).sequence, ?_, hlen, fun j hj => sequence_getElem? (hlen ▸ hj)⟩
  rw [exec_enc_set he hp hset, appendBits_fits (hlen.symm ▸ hfits)]

/-! ## PBIT (43_bitpacker.md R161) -/

section
variable {s : State} {v : Byte}

theorem decode_pbit_iff {w : Word} : decode w = .ok (.pbit v) ↔ w = mkWord 0x41 v 0 := by
  rw [decode_iff, eq_comm (a := w)]
  exact and_iff_right rfl

/-- The low bit of a bit value is the bit. -/
theorem getLsbD_zero_of_le_one (hv : v.toNat ≤ 1) : v.getLsbD 0 = decide (v.toNat = 1) := by
  rw [BitVec.getLsbD, Nat.testBit_zero, Nat.mod_eq_of_lt (by omega)]

/-- PBIT of a bit value hands the bit to `appendBits`. -/
theorem exec_pbit_bit (he : s.err = 0) (hv : v.toNat ≤ 1) :
    exec (.pbit v) s = .next (appendBits Config.bitbufCap (encode (.pbit v)) [decide (v.toNat = 1)] s) := by
  have hv' : ¬ v > 1 := Nat.not_lt.mpr hv
  rw [exec_pbit, work_legal he legal_pbit, appendRawBit, if_neg hv', getLsbD_zero_of_le_one hv]

/-- Any other value is an invalid bit, whether there is room or not: the value is checked first. -/
theorem exec_pbit_invalid (he : s.err = 0) (hv : 1 < v.toNat) :
    exec (.pbit v) s = .next (raise .invalidBit (encode (.pbit v)) s) := by
  have hv' : v > 1 := hv
  rw [exec_pbit, work_legal he legal_pbit, appendRawBit, if_pos hv']

end

/-- Settles O42: a bit value goes to `appendBits`, with room or without; any other value is raised before that. -/
theorem pbitAppendsOrRaises : Obligations.PbitAppendsOrRaises := by
  refine ⟨fun _ _ => decode_pbit_iff, fun v s he => ⟨fun hv hroom => ?_, fun hv hfull => ?_, fun hv => exec_pbit_invalid he hv⟩⟩
  · rw [exec_pbit_bit he hv, appendBits_fits hroom]
  · rw [exec_pbit_bit he hv, appendBits_overflows hfull]
    rfl

/-! ## PACK of the empty buffer (43_bitpacker.md R166) -/

/-- The padding of an empty buffer is the byte 01: seven zeros, then the sentinel. -/
theorem eq_one_of_padding {y : Byte}
    (h : ∀ k, k < 8 → some (y.getLsbD (7 - k)) = (List.replicate 7 false ++ [true])[k]?) : y = 0x01 := by
  refine BitVec.eq_of_getLsbD_eq fun i hi => Option.some.inj ?_
  have hbit := h (7 - i) (by omega)
  rw [show 7 - (7 - i) = i by omega] at hbit
  rw [hbit]
  interval_cases i <;> rfl

/-- Settles O44: the wire format of no bits is one byte, which holds the padding alone. -/
theorem packOfNothingEmitsOneByte : Obligations.PackOfNothingEmitsOneByte := by
  intro s he ha hn hempty
  obtain ⟨new, hexec, hlen, hbits⟩ := packEmitsTheWireFormat s he ha hn
  rw [hempty] at hlen hbits
  obtain ⟨y, rfl⟩ := List.length_eq_one_iff.mp hlen
  obtain rfl := eq_one_of_padding fun k hk => by simpa using hbits 0 k Nat.one_pos hk
  rw [hexec, ← hempty]

end Sys2Proof.Machine

/-!
PROOFS of the family 44_unpacker_decoder.md: the walk of a path from the root to its leaf, and with it that decoding inverts encoding; the
sentinel of a byte, and with it that the scan of the first byte strips the padding of PACK; and what DBEG, UBYTE and DEND answer.
-/

namespace Sys2Proof.Machine

/-! ## One bit and one path (44_unpacker_decoder.md R184, R187) -/

section
variable {s : State} {x : Bool} {c : NodeIdx}

/-- DecodeBit is decided by the child that the bit names. -/
theorem decodeBit_child (hcur : s.cursor ≠ 255) (hc : c = if x then (nodeAt s s.cursor).right else (nodeAt s s.cursor).left)
    (hne : c ≠ 255) :
    decodeBit x s = .ok (if (nodeAt s c).leaf then { emitS (nodeAt s c).sym s with cursor := s.root } else { s with cursor := c }) :=
  decodeBit_ok.mpr ⟨hcur, c, hc, hne, rfl⟩

theorem decodeBit_leaf (hcur : s.cursor ≠ 255) (hc : c = if x then (nodeAt s s.cursor).right else (nodeAt s s.cursor).left)
    (hne : c ≠ 255) (hleaf : (nodeAt s c).leaf = true) :
    decodeBit x s = .ok { s with outs := s.outs ++ [(nodeAt s c).sym], cursor := s.root } := by
  rw [decodeBit_child hcur hc hne, if_pos hleaf]
  rfl

theorem decodeBit_inner (hcur : s.cursor ≠ 255) (hc : c = if x then (nodeAt s s.cursor).right else (nodeAt s s.cursor).left)
    (hne : c ≠ 255) (hinner : (nodeAt s c).leaf = false) : decodeBit x s = .ok { s with cursor := c } := by
  rw [decodeBit_child hcur hc hne, if_neg (Bool.not_eq_true _ ▸ hinner)]

end

/-- Settles O47: the child the bit names is a leaf or not. -/
theorem decodeBitWalksOneEdge : Obligations.DecodeBitWalksOneEdge :=
  fun _ _ _ hcur hc hne => ⟨decodeBit_leaf hcur hc hne, decodeBit_inner hcur hc hne⟩

/-- From any node the bits of a path down to a leaf emit the leaf's symbol, and no other: an entry in the middle of a path is internal. -/
theorem decodeBits_of_followPath {i : NodeIdx} (p : List Bool) : ∀ {s : State}, p ≠ [] → followPath s s.cursor p = some i →
    i ≠ 255 → (nodeAt s i).leaf = true →
    decodeBits p s = .ok { s with outs := s.outs ++ [(nodeAt s i).sym], cursor := s.root } := by
  induction p with
  | nil => intro s h; exact absurd rfl h
  | cons x p ih =>
    intro s _ hpath hi hleaf
    obtain ⟨hcur, _, hrest⟩ := followPath_cons_some hpath
    generalize hc : (if x then (nodeAt s s.cursor).right else (nodeAt s s.cursor).left) = c at hrest
    cases p with
    | nil =>
      obtain rfl : c = i := Option.some.inj hrest
      exact decodeBits_cons.mpr ⟨_, decodeBit_leaf hcur hc.symm hi hleaf, rfl⟩
    | cons y p =>
      obtain ⟨hne, hinner, _⟩ := followPath_cons_some hrest
      have hrest' : followPath { s with cursor := c } c (y :: p) = some i :=
        (followPath_congr (s := s) (t := { s with cursor := c }) rfl _ _).trans hrest
      exact decodeBits_cons.mpr ⟨_, decodeBit_inner hcur hc.symm hne hinner, ih (List.cons_ne_nil y p) hrest' hi hleaf⟩

/-- Settles O51: the path of a leaf is walked from the root (`decodeBits_of_followPath`). -/
theorem decoderFollowsAPathToItsLeaf : Obligations.DecoderFollowsAPathToItsLeaf := by
  rintro s p x hroot ⟨hp, i, hpath, hi, hleaf, rfl⟩
  exact decodeBits_of_followPath p hp (hroot ▸ hpath) hi hleaf

/-- Settles O52: each code leads from the root to its symbol and back to the root, where the rest of the text starts. -/
theorem decodingInvertsEncoding : Obligations.DecodingInvertsEncoding := by
  intro s text
  induction text generalizing s with
  | nil =>
    intro _ _ _
    rw [List.append_nil]
    rfl
  | cons x text ih =>
    intro hcodes hset hroot
    have hx := hcodes.path x (hset x List.mem_cons_self)
    have hfirst : decodeBits (codeAt s x).sequence s = .ok { s with outs := s.outs ++ [x] } := by
      rw [decoderFollowsAPathToItsLeaf s _ x hroot hx, ← hroot]
    have hrest := ih { s with outs := s.outs ++ [x] } (codesArePaths_congr (s := s) rfl rfl rfl rfl hcodes)
      (fun y hy => hset y (List.mem_cons_of_mem x hy)) hroot
    rw [List.append_assoc] at hrest
    exact (decodeBits_append _ _).mpr ⟨_, hfirst, hrest⟩

/-! ## The sentinel of a byte (44_unpacker_decoder.md R181, R183) -/

section
variable {b : Byte} {j : Nat}

/-- The scan finds the highest set bit. -/
theorem sentinelIndex_of_highest (hj : j < 8) (hset : b.getLsbD j = true) (habove : ∀ k, j < k → b.getLsbD k = false) :
    sentinelIndex b = some j := by
  refine List.find?_eq_some_iff_append.mpr
    ⟨hset, (List.range' (j + 1) (7 - j)).reverse, (List.range j).reverse, ?_, fun k hk => ?_⟩
  · interval_cases j <;> rfl
  · rw [List.mem_reverse, List.mem_range'_1] at hk
    rw [habove k hk.1]
    rfl

theorem sentinelIndex_zero : sentinelIndex 0 = none := by decide

theorem bitsBelow_succ (b : Byte) (n : Nat) : bitsBelow b (n + 1) = b.getLsbD n :: bitsBelow b n := by
  rw [bitsBelow, List.range_succ, List.reverse_concat, List.map_cons, ← bitsBelow]

theorem bitsBelow_eq (b : Byte) (j : Nat) : bitsBelow b j = (List.range j).map fun k => b.getLsbD (j - 1 - k) :=
  List.ext_getElem (by simp [bitsBelow]) fun k _ _ => by simp [bitsBelow]

/-- Zeros and then a 1 at the front of a byte's low bits: the 1 is its highest set bit, and what follows it are the bits below. -/
theorem highest_of_bitsBelow {xs ys : List Bool} : ∀ {k n : Nat}, k < n →
    bitsBelow b n ++ xs = List.replicate k false ++ true :: ys →
    ∃ j, j < n ∧ b.getLsbD j = true ∧ (∀ i, j < i → i < n → b.getLsbD i = false) ∧ bitsBelow b j ++ xs = ys := by
  intro k n hk h
  induction n generalizing k with
  | zero => omega
  | succ n ih =>
    rw [bitsBelow_succ, List.cons_append] at h
    cases k with
    | zero =>
      obtain ⟨hset, hrest⟩ := List.cons.inj h
      exact ⟨n, by omega, hset, fun i hi hin => by omega, hrest⟩
    | succ k =>
      obtain ⟨hclear, hrest⟩ := List.cons.inj h
      obtain ⟨j, hj, hset, habove, hbelow⟩ := ih (by omega) hrest
      refine ⟨j, by omega, hset, fun i hi hin => ?_, hbelow⟩
      rcases Nat.lt_succ_iff_lt_or_eq.mp hin with hlt | rfl
      · exact habove i hi hlt
      · exact hclear

/-- Zeros and a sentinel at the front of a byte are what the scan strips. -/
theorem sentinelIndex_strips {k : Nat} {xs ys : List Bool} (hk : k < 8) (h : byteBits b ++ xs = List.replicate k false ++ true :: ys) :
    ∃ j, sentinelIndex b = some j ∧ bitsBelow b j ++ xs = ys := by
  obtain ⟨j, hj, hset, habove, hbelow⟩ := highest_of_bitsBelow hk h
  refine ⟨j, sentinelIndex_of_highest hj hset fun i hi => ?_, hbelow⟩
  by_cases h8 : i < 8
  · exact habove i hi h8
  · exact BitVec.getLsbD_of_ge b i (by omega)

end

/-! ## Unpacking the bytes of PACK (20_memory.md R62 to R65; 43_bitpacker.md R163) -/

theorem byteBits_length (b : Byte) : (byteBits b).length = 8 := bitsBelow_length b 8

theorem byteBits_getElem? (b : Byte) {k : Nat} (hk : k < 8) : (byteBits b)[k]? = some (b.getLsbD (7 - k)) := by
  rw [byteBits, bitsBelow_eq, List.getElem?_map, List.getElem?_range hk, Option.map_some]

/-- Bytes whose bits, from bit 7 down, are the bits of a stream: they unpack to the stream. -/
theorem flatMap_byteBits (ys : List Byte) : ∀ {bits : List Bool}, bits.length = 8 * ys.length →
    (∀ j k, j < ys.length → k < 8 → (ys[j]?.map fun y => y.getLsbD (7 - k)) = bits[8 * j + k]?) →
    ys.flatMap byteBits = bits := by
  induction ys with
  | nil => intro bits hlen _; exact (List.length_eq_zero_iff.mp hlen).symm
  | cons y ys ih =>
    intro bits hlen hbits
    rw [List.length_cons] at hlen
    have hfirst : byteBits y = bits.take 8 := by
      refine List.ext_getElem? fun k => ?_
      by_cases hk : k < 8
      · have hbit := hbits 0 k (Nat.zero_lt_succ _) hk
        rw [byteBits_getElem? y hk, List.getElem?_take_of_lt hk]
        simpa using hbit
      · rw [List.getElem?_eq_none (by rw [byteBits_length]; omega), List.getElem?_eq_none (by rw [List.length_take]; omega)]
    have hrest : ys.flatMap byteBits = bits.drop 8 := by
      refine ih (by rw [List.length_drop]; omega) fun j k hj hk => ?_
      have hbit := hbits (j + 1) k (Nat.succ_lt_succ hj) hk
      rw [List.getElem?_drop, show 8 + (8 * j + k) = 8 * (j + 1) + k by omega]
      exact hbit
    rw [List.flatMap_cons, hfirst, hrest, List.take_append_drop]

/-- The bytes of PACK unpack to the padding and the buffer. -/
theorem exec_pack_unpacks {s : State} (he : s.err = 0) (ha : s.acc = 0) (hn : s.nbits = 0) :
    ∃ new : List Byte, exec .pack s = .next { s with outb := s.outb ++ new, bitbuf := [] } ∧
      new.flatMap byteBits = paddingBits s.bitbuf.length ++ s.bitbuf := by
  obtain ⟨new, hexec, hlen, hbits⟩ := packEmitsTheWireFormat s he ha hn
  rw [← paddingBits_eq] at hbits
  exact ⟨new, hexec, flatMap_byteBits new (by rw [padded_length, hlen]) hbits⟩

/-- Settles O45: the bytes unpack to the padding and the buffer (`exec_pack_unpacks`), and the padding, at most seven zeros and the
sentinel, is what the scan strips. -/
theorem unpackingUndoesPacking : Obligations.UnpackingUndoesPacking := by
  intro s first rest he ha hn hexec
  obtain ⟨new, hexec', hstream⟩ := exec_pack_unpacks he ha hn
  obtain rfl : first :: rest = new := by
    rw [hexec] at hexec'
    simpa using hexec'
  rw [List.flatMap_cons, paddingBits_eq, List.append_assoc] at hstream
  exact sentinelIndex_strips (by omega) hstream

/-! ## UBYTE (44_unpacker_decoder.md R181, R183, R186) -/

section
variable {s : State} {b : Byte}

theorem exec_ubyte_legal (he : s.err = 0) (hu : s.uphase ≠ uIdle) :
    exec (.ubyte b) s = outcomeOf (unpackByte (encode (.ubyte b)) b s) := by
  rw [exec_ubyte, work_legal he (legal_ubyte.mpr hu)]

/-- A first byte with a sentinel is its bits below it, decoded with the session in its payload. -/
theorem exec_ubyte_first {j : Nat} (he : s.err = 0) (hu : s.uphase = uFirst) (hj : sentinelIndex b = some j) :
    exec (.ubyte b) s = outcomeOf (decodeBits (bitsBelow b j) { s with uphase := uPayload }) := by
  rw [exec_ubyte_legal he (by rw [hu]; decide), unpackByte, if_pos hu, hj]

/-- A first byte without a sentinel. -/
theorem exec_ubyte_malformed (he : s.err = 0) (hu : s.uphase = uFirst) (hb : sentinelIndex b = none) :
    exec (.ubyte b) s = .next (raise .malformedStream (encode (.ubyte b)) s) := by
  rw [exec_ubyte_legal he (by rw [hu]; decide), unpackByte, if_pos hu, hb]
  rfl

/-- A later byte is its eight bits decoded. -/
theorem exec_ubyte_later (he : s.err = 0) (hu : s.uphase = uPayload) : exec (.ubyte b) s = outcomeOf (decodeBits (byteBits b) s) := by
  rw [exec_ubyte_legal he (by rw [hu]; decide), unpackByte, if_neg (by rw [hu]; decide)]

/-- On a tree any bits decode from an internal node; they move the cursor to an internal node and emit at most one symbol each. -/
theorem decodeBits_spec (xs : List Bool) (T : TreeShape s) (h1 : s.nleaf.toNat ≤ s.cursor.toNat) (h2 : s.cursor.toNat ≤ s.root.toNat) :
    ∃ t, decodeBits xs s = .ok t ∧ t = { s with cursor := t.cursor, outs := t.outs } ∧ s.nleaf.toNat ≤ t.cursor.toNat ∧
      t.cursor.toNat ≤ s.root.toNat ∧ ∃ ys, t.outs = s.outs ++ ys ∧ ys.length ≤ xs.length := by
  obtain ⟨t, ht, hlow, hhigh⟩ := decodeBits_internal xs T h1 h2
  obtain ⟨hframe, houts⟩ := decodeBits_frame xs ht
  exact ⟨t, ht, hframe, hlow, hhigh, houts⟩

end

/-- Settles O48: the first byte is the bits below its sentinel and a later byte all eight, and any bits decode on a tree
(`decodeBits_spec`). -/
theorem ubyteDecodesItsPayload : Obligations.UbyteDecodesItsPayload := by
  intro b s he T h1 h2
  refine ⟨fun j hu hj hset habove => ?_, fun hu => ?_⟩
  · obtain ⟨t, ht, hframe, hlow, hhigh, ys, houts, hlen⟩ :=
      decodeBits_spec (bitsBelow b j) (s := { s with uphase := uPayload }) (TreeShape.congr (s := s) rfl rfl rfl T) h1 h2
    rw [bitsBelow_length] at hlen
    refine ⟨t, ?_, by rw [← bitsBelow_eq]; exact ht, hframe, hlow, hhigh, ys, houts, hlen⟩
    rw [exec_ubyte_first he hu (sentinelIndex_of_highest hj hset habove), ht, outcomeOf_ok]
  · obtain ⟨t, ht, hframe, hlow, hhigh, ys, houts, hlen⟩ := decodeBits_spec (byteBits b) T h1 h2
    rw [byteBits_length] at hlen
    refine ⟨t, ?_, by rw [← ht, byteBits, bitsBelow_eq], hframe, hlow, hhigh, ys, houts, hlen⟩
    rw [exec_ubyte_later he hu, ht, outcomeOf_ok]

/-- Settles O49: the byte 00 has no sentinel. -/
theorem firstByteWithoutSentinelIsMalformed : Obligations.FirstByteWithoutSentinelIsMalformed :=
  fun _ he hu => exec_ubyte_malformed he hu sentinelIndex_zero

/-! ## DBEG and DEND (44_unpacker_decoder.md R180, R182, R185, R188) -/

/-- A command without operand limits has exactly its own word. -/
theorem decode_iff_word {w : Word} {i : Instr} (hwf : i.wf = true) : decode w = .ok i ↔ w = encode i := by
  rw [decode_iff, eq_comm (a := w)]
  exact and_iff_right hwf

/-- Settles O46: where DBEG is legal its rule opens the session, and elsewhere it is out of phase. -/
theorem dbegOpensASession : Obligations.DbegOpensASession := by
  refine ⟨fun _ => decode_iff_word rfl, fun s he => ⟨fun hp hu => ?_, fun hillegal => ?_⟩⟩
  · rw [exec_dbeg, work_legal he (legal_dbeg.mpr ⟨hp, hu⟩)]
    rfl
  · rw [exec_dbeg, work_outOfPhase he (Bool.eq_false_iff.mpr (mt legal_dbeg.mp hillegal))]
    rfl

section
variable {s : State}

/-- In an open session DEND gives the verdict of `closeSession`. -/
theorem exec_dend_open (he : s.err = 0) (hu : s.uphase ≠ uIdle) : exec .dend s = .next (closeSession (encode .dend) s) := by
  rw [exec_dend, work_legal he (legal_dend.mpr hu)]

theorem closeSession_first (c : Word) (hu : s.uphase = uFirst) : closeSession c s = raise .malformedStream c s := if_pos hu

theorem closeSession_root (c : Word) (hu : s.uphase = uPayload) (hc : s.cursor = s.root) :
    closeSession c s = { s with uphase := uIdle } := by
  rw [closeSession, if_neg (by rw [hu]; decide), if_neg (not_not_intro hc)]

theorem closeSession_inside (c : Word) (hu : s.uphase = uPayload) (hc : s.cursor ≠ s.root) :
    closeSession c s = raise .malformedStream c s := by
  rw [closeSession, if_neg (by rw [hu]; decide), if_pos hc]

end

/-- Settles O50: with no session DEND is out of phase; in an open one `closeSession` looks at UPHASE, then at the cursor. -/
theorem dendGivesTheVerdict : Obligations.DendGivesTheVerdict := by
  refine ⟨fun _ => decode_iff_word rfl, fun s he => ⟨fun hu => ?_, fun hu hc => ?_, fun hu => ?_, fun hu hc => ?_⟩⟩
  · rw [exec_dend, work_outOfPhase he (Bool.eq_false_iff.mpr fun h => legal_dend.mp h hu)]
    rfl
  · rw [exec_dend_open he (by rw [hu]; decide), closeSession_root _ hu hc]
    rfl
  · rw [exec_dend_open he (by rw [hu]; decide), closeSession_first _ hu]
    rfl
  · rw [exec_dend_open he (by rw [hu]; decide), closeSession_inside _ hu hc]
    rfl

end Sys2Proof.Machine

/-!
PROOFS of the family 45_system.md: a service command has its effect in every state (`service_wf`), so each statement comes to which words
are the command's (30_encoding.md R82 to R85) and to the bits of the word that is appended to RSP.
-/

namespace Sys2Proof

/-! ## Commands with an operand limit (30_encoding.md R84, R85) -/

section
variable {w : Word} {i : Instr}

/-- A command whose operand limit says P has its own word where P holds, and no word elsewhere. -/
theorem decode_iff_limit {P : Prop} (hwf : i.wf = true ↔ P) : decode w = .ok i ↔ P ∧ w = encode i := by
  rw [decode_iff, hwf, eq_comm (a := w)]

/-- The word of a term out of its limit is illegal; only the commands of format X have a limit. -/
theorem decode_encode_error (h : i.wf = false) : ∃ e, decode (encode i) = .error e := by
  cases i with
  | rdcsr k => exact ⟨.csrNumber, by simp [encode, decode, formatX, show csrNumberOk k = false from h]⟩
  | rdnode j | rdwt j => exact ⟨.nodeIndex, by simp [encode, decode, formatX, show nodeIndexOk j = false from h]⟩
  | _ => cases h

theorem rdcsr_wf {k : Byte} : (Instr.rdcsr k).wf = true ↔ k ≤ 5 := decide_eq_true_iff

theorem rdnode_wf {j : NodeIdx} : (Instr.rdnode j).wf = true ↔ j ≤ 254 := decide_eq_true_iff

theorem rdwt_wf {j : NodeIdx} : (Instr.rdwt j).wf = true ↔ j ≤ 254 := decide_eq_true_iff

/-- OPC 0 is NOP's alone, so its only word that decodes is NOP's (45_system.md R200). -/
theorem decode_error_of_opc_zero (ho : fieldOpc w = 0) (hw : w ≠ 0) : ∃ e, decode w = .error e := by
  cases hd : decode w with
  | error e => exact ⟨e, rfl⟩
  | ok i =>
    have hi : encode i = w := encode_of_decode hd
    obtain rfl : i = .nop := by_contra fun h => Machine.opc_ne_zero h (hi ▸ ho)
    exact absurd hi.symm hw

end

end Sys2Proof

namespace Sys2Proof.Machine

/-! ## NOP and CLR (45_system.md R200, R201) -/

/-- Settles O16: NOP has the identity for its effect, and OPC 0 is NOP's alone (`decode_error_of_opc_zero`). -/
theorem nopChangesNothing : Obligations.NopChangesNothing :=
  ⟨by decide, fun _ => decode_error_of_opc_zero, fun _ => by rw [exec_nop, service_wf rfl, id]⟩

@[simp] theorem freqAt_clearAll (s : State) (x : Symbol) : freqAt (clearAll s) x = 0 := rfl
@[simp] theorem nodeAt_clearAll (s : State) (i : NodeIdx) : nodeAt (clearAll s) i = ⟨false, 0, 0, 0, 0⟩ := rfl
@[simp] theorem codeAt_clearAll (s : State) (x : Symbol) : codeAt (clearAll s) x = ⟨false, 0, 0⟩ := rfl

/-- Settles O17: the next state is `clearAll`, whose fields and entries are known one by one. -/
theorem clrClearsAllButTheTraces : Obligations.ClrClearsAllButTheTraces := by
  refine ⟨fun _ => decode_iff_word rfl, fun s => ⟨clearAll s, ?_, ?_⟩⟩
  · rw [exec_clr, service_wf rfl]
  · simp

/-! ## Fields of the words read back (10_state.md R38, R42; 45_system.md R203, R205, R206) -/

theorem status_fields (s : State) :
    s.status.extractLsb' 0 4 = s.err ∧ s.status.extractLsb' 4 2 = s.phase ∧ s.status.extractLsb' 6 2 = s.uphase ∧
      s.status.extractLsb' 8 8 = s.nleaf ∧ s.status.extractLsb' 16 8 = s.root ∧ s.status.extractLsb' 24 8 = s.cursor := by
  simp (disch := decide) only [State.status, BitVec.extractLsb'_append_eq_of_le, BitVec.extractLsb'_append_eq_of_add_le, Nat.reduceSub,
    BitVec.extractLsb'_eq_self, and_self]

theorem qptr_fields (s : State) :
    s.qptr.extractLsb' 0 8 = s.srcHead ∧ s.qptr.extractLsb' 8 8 = s.tgtHead ∧ s.qptr.extractLsb' 16 8 = s.tgtTail ∧
      s.qptr.extractLsb' 24 3 = s.tbState ∧ s.qptr.extractLsb' 27 5 = 0#5 := by
  simp (disch := decide) only [State.qptr, BitVec.extractLsb'_append_eq_of_le, BitVec.extractLsb'_append_eq_of_add_le, Nat.reduceSub,
    BitVec.extractLsb'_eq_self, and_self]

theorem nodeWord_fields (e : NodeEntry) :
    (nodeWord e).extractLsb' 25 7 = 0#7 ∧ (nodeWord e).extractLsb' 24 1 = BitVec.ofBool e.leaf ∧ (nodeWord e).extractLsb' 23 1 = 0#1 ∧
      (nodeWord e).extractLsb' 16 7 = e.sym ∧ (nodeWord e).extractLsb' 8 8 = e.left ∧ (nodeWord e).extractLsb' 0 8 = e.right := by
  simp (disch := decide) only [nodeWord, BitVec.extractLsb'_append_eq_of_le, BitVec.extractLsb'_append_eq_of_add_le, Nat.reduceSub,
    BitVec.extractLsb'_eq_self, and_self]

/-- A bit of a word is the field of one bit at its place. -/
theorem getLsbD_of_field {w : Word} {n : Nat} {b : BitVec 1} (h : w.extractLsb' n 1 = b) : w.getLsbD n = b.getLsbD 0 := by
  rw [← h, BitVec.getLsbD_extractLsb']
  simp

/-- The valid bit stands above the seven bits of the length and one 0, so the two add up. -/
theorem lengthWord_toNat (e : CodeEntry) : (lengthWord e).toNat = (if e.valid then 256 else 0) + e.len.toNat := by
  simp only [lengthWord, BitVec.toNat_append, ← Nat.shiftLeft_add_eq_or_of_lt e.len.isLt]
  cases e.valid <;> simp

/-- Bit j of chunk k from the top is bit 32k + j of the code; the one place beyond the code's 127 bits is 0. -/
theorem codeChunk_getMsbD (bits : BitVec 127) (k : BitVec 2) {j : Nat} (hj : j < 32) :
    (codeChunk bits k).getMsbD j = if 32 * k.toNat + j < 127 then bits.getMsbD (32 * k.toNat + j) else false := by
  have hk : k.toNat < 4 := k.isLt
  have hin : 96 - 32 * k.toNat + 32 - j ≤ 128 := by omega
  have hplace : 128 - (96 - 32 * k.toNat + 32 - j) = 32 * k.toNat + j := by omega
  rw [codeChunk, BitVec.getMsbD_extractLsb', decide_eq_true hj, decide_eq_true hin, Bool.true_and, Bool.true_and, hplace,
    BitVec.getMsbD_append]
  by_cases hcode : 32 * k.toNat + j < 127
  · rw [if_neg (by omega), if_pos hcode]
  · rw [if_pos (by omega), if_neg hcode, BitVec.getMsbD_zero]

/-! ## The read commands (45_system.md R202 to R206) -/

/-- Settles O18: the word is CSR(k), and `status_fields` and `qptr_fields` give the registers that have several fields. -/
theorem rdcsrAppendsTheRegister : Obligations.RdcsrAppendsTheRegister := by
  refine ⟨fun _ _ => decode_iff_limit rdcsr_wf, fun k hk => ?_, fun k s hk => ⟨s.csr k, ?_, ?_, ?_, ?_, ?_, ?_, ?_⟩⟩
  · exact decode_encode_error (i := .rdcsr k) (Bool.eq_false_iff.mpr fun h => BitVec.not_le.mpr hk (rdcsr_wf.mp h))
  · rw [exec_rdcsr, service_wf (rdcsr_wf.mpr hk), emitR]
  · rintro rfl
    exact status_fields s
  · rintro rfl
    rfl
  · rintro rfl
    rfl
  · rintro rfl
    rfl
  · rintro rfl
    exact qptr_fields s
  · rintro rfl
    rfl

/-- Settles O19: the word is `nodeWord`, and its fields are the entry's (`nodeWord_fields`). -/
theorem rdnodeAppendsTheFields : Obligations.RdnodeAppendsTheFields := by
  refine ⟨fun _ _ => decode_iff_limit rdnode_wf, decode_encode_error (i := .rdnode 255) rfl,
    fun i s hi => ⟨nodeWord (nodeAt s i), ?_, ?_⟩⟩
  · rw [exec_rdnode, service_wf (rdnode_wf.mpr hi), emitR]
  · obtain ⟨hhigh, hleaf, hgap, hsym, hleft, hright⟩ := nodeWord_fields (nodeAt s i)
    exact ⟨hhigh, (getLsbD_of_field hleaf).trans (by simp), getLsbD_of_field hgap, hsym, hleft, hright⟩

/-- Settles O20: the word is the entry's weight, where the index is in its limit. -/
theorem rdwtAppendsTheWeight : Obligations.RdwtAppendsTheWeight := by
  refine ⟨fun _ _ => decode_iff_limit rdwt_wf, decode_encode_error (i := .rdwt 255) rfl, fun i s hi => ?_⟩
  rw [exec_rdwt, service_wf (rdwt_wf.mpr hi), emitR]

/-- Settles O21: the word is `lengthWord`, whose value is `lengthWord_toNat`. -/
theorem rdlenAppendsTheLength : Obligations.RdlenAppendsTheLength := by
  refine ⟨fun _ _ => decode_iff_word rfl, fun x s => ⟨lengthWord (codeAt s x), ?_, lengthWord_toNat _⟩⟩
  rw [exec_rdlen, service_wf rfl, emitR]

/-- Settles O22: the word is the chunk of the code, bit by bit (`codeChunk_getMsbD`). -/
theorem rdcodeAppendsTheChunk : Obligations.RdcodeAppendsTheChunk := by
  refine ⟨fun _ _ _ => decode_iff_word rfl, fun x k s => ⟨codeChunk (codeAt s x).bits k, ?_, fun _ hj => codeChunk_getMsbD _ k hj⟩⟩
  rw [exec_rdcode, service_wf rfl, emitR]

end Sys2Proof.Machine

/-!
PROOFS of the family 60_exceptions.md: a work command while faulted and out of its phase, by the dispatch order alone; and, from everything
`exec` can do (`exec_outcomes`), which command leaves which error code and what it changes.
-/

namespace Sys2Proof.Machine

section
variable {i : Instr} {s t : State}

/-! ## Work commands that are ignored or out of phase (30_encoding.md R87, R91; 60_exceptions.md R228, R232) -/

/-- Every command that is no service command goes through the dispatch order of work commands. -/
theorem exec_eq_work (hi : isService i = false) (s : State) : ∃ body, exec i s = work i body s := by
  cases i with
  | nop | clr | rdcsr _ | rdnode _ | rdwt _ | rdlen _ | rdcode _ _ => cases hi
  | sym x => exact ⟨_, exec_sym x⟩
  | addf x n => exact ⟨_, exec_addf x n⟩
  | fin => exact ⟨_, exec_fin⟩
  | build => exact ⟨_, exec_build⟩
  | table => exact ⟨_, exec_table⟩
  | enc x => exact ⟨_, exec_enc x⟩
  | pbit v => exact ⟨_, exec_pbit v⟩
  | pack => exact ⟨_, exec_pack⟩
  | dbeg => exact ⟨_, exec_dbeg⟩
  | ubyte b => exact ⟨_, exec_ubyte b⟩
  | dend => exact ⟨_, exec_dend⟩

/-- Where its row of R91 asks for P, a work command raises SequenceError without P. -/
theorem exec_outOfPhase {P : Prop} (hi : isService i = false) (row : legal i s = true ↔ P) (he : s.err = 0) (hP : ¬ P) :
    exec i s = .next { s with err := 6, errcmd := encode i } := by
  obtain ⟨body, hexec⟩ := exec_eq_work hi s
  rw [hexec, work_outOfPhase he (Bool.eq_false_iff.mpr (mt row.mp hP))]

/-! ## Which command may raise which error (60_exceptions.md R221, the column "raised by") -/

theorem mayRaise_emptyInput : mayRaise i .emptyInput ↔ i = .fin := by
  cases i <;> simp [mayRaise]

theorem mayRaise_invalidBit : mayRaise i .invalidBit ↔ ∃ v, i = .pbit v := by
  cases i <;> simp [mayRaise]

theorem mayRaise_malformedStream : mayRaise i .malformedStream ↔ (∃ b, i = .ubyte b) ∨ i = .dend := by
  cases i <;> simp [mayRaise]

theorem mayRaise_illegalCommand : mayRaise i .illegalCommand ↔ i.wf = false := by
  cases i <;> simp [mayRaise, Instr.wf]

theorem mayRaise_sequence : mayRaise i .sequence ↔ isService i = false := by
  cases i <;> simp [mayRaise, isService]

theorem mayRaise_unsetCode : mayRaise i .unsetCode ↔ ∃ x, i = .enc x := by
  cases i <;> simp [mayRaise]

theorem mayRaise_bufferOverflow : mayRaise i .bufferOverflow ↔ (∃ x, i = .enc x) ∨ ∃ v, i = .pbit v := by
  cases i <;> simp [mayRaise]

theorem mayRaise_countOverflow : mayRaise i .countOverflow ↔ (∃ x, i = .sym x) ∨ ∃ x n, i = .addf x n := by
  cases i <;> simp [mayRaise]

/-! ## How a command sets and clears ERR (60_exceptions.md R231, R234, R236) -/

/-- A command that leaves ERR non-zero from ERR = 0 has raised one of its errors and done nothing else: an effect writes no error. -/
theorem raised_of_err (h : exec i s = .next t) (hs : s.err = 0) (ht : t.err ≠ 0) : ∃ e, mayRaise i e ∧ t = raise e (encode i) s := by
  cases exec_outcomes h with
  | ignored faulted _ _ => exact absurd hs faulted
  | raised e _ may entry => exact ⟨e, may, entry⟩
  | effect h =>
    by_cases hi : i = .clr
    · subst hi
      exact absurd (congrArg State.err h) ht
    · exact absurd ((effect_keeps_err h hi).1.trans hs) ht

/-- Only CLR brings ERR back to 0. -/
theorem clr_of_err_cleared (h : exec i s = .next t) (hs : s.err ≠ 0) (ht : t.err = 0) : i = .clr := by
  cases exec_outcomes h with
  | ignored _ _ same => exact absurd (same ▸ ht) hs
  | raised _ clean _ _ => exact absurd clean hs
  | effect h => exact by_contra fun hi => hs ((effect_keeps_err h hi).1.symm.trans ht)

theorem faultO_eq_one : s.faultO = 1 ↔ s.err ≠ 0 := by
  rw [State.faultO, ← faulted_eq_true]
  cases s.faulted <;> decide

theorem faultO_eq_zero : s.faultO = 0 ↔ s.err = 0 := by
  rw [State.faultO, ← faulted_eq_false]
  cases s.faulted <;> decide

end

/-- Settles O10: the dispatch order looks at ERR before anything else. -/
theorem faultedBlockIgnoresWork : Obligations.FaultedBlockIgnoresWork := by
  intro i s hi he
  obtain ⟨body, hexec⟩ := exec_eq_work hi s
  rw [hexec, work_faulted he]

/-- Settles O11: each row of R91 by its own lemma, negated. -/
theorem outOfPhaseRaisesSequenceError : Obligations.OutOfPhaseRaisesSequenceError := by
  intro s he
  refine ⟨fun hp _ => ?_, fun hp _ _ => ?_, fun hp => ?_, fun hp => ?_, fun hp => ?_, fun hp _ => ?_, fun hp => ?_, fun hu _ => ?_,
    fun hu => ?_⟩
  · exact exec_outOfPhase rfl legal_sym he hp
  · exact exec_outOfPhase rfl legal_addf he hp
  · exact exec_outOfPhase rfl legal_fin he hp
  · exact exec_outOfPhase rfl legal_build he hp
  · exact exec_outOfPhase rfl legal_table he hp
  · exact exec_outOfPhase rfl legal_enc he hp
  · exact exec_outOfPhase rfl legal_dbeg he fun ⟨hphase, hidle⟩ => hp.elim (Nat.not_lt.mpr hphase) (absurd hidle)
  · exact exec_outOfPhase rfl legal_ubyte he (not_not_intro hu)
  · exact exec_outOfPhase rfl legal_dend he (not_not_intro hu)

/-- Settles O12: such a command has raised an error, and `raise` writes ERR and ERRCMD alone. -/
theorem faultsArePrecise : Obligations.FaultsArePrecise := by
  intro i s t hs h ht
  obtain ⟨e, _, rfl⟩ := raised_of_err h hs ht
  rfl

/-- Settles O14: an error left is one the command may raise; each code by the commands that R221 lists for it. -/
theorem errorCodesByCommand : Obligations.ErrorCodesByCommand := by
  intro i s t hs hwf h
  by_cases ht : t.err = 0
  · exact .inl ht
  obtain ⟨e, may, rfl⟩ := raised_of_err h hs ht
  right
  cases e with
  | emptyInput => exact .inl ⟨rfl, mayRaise_emptyInput.mp may⟩
  | invalidBit => exact .inr (.inl ⟨rfl, mayRaise_invalidBit.mp may⟩)
  | malformedStream => exact .inr (.inr (.inl ⟨rfl, mayRaise_malformedStream.mp may⟩))
  | ioFailure => exact absurd rfl (ne_ioFailure_of_mayRaise may)
  | illegalCommand => exact absurd hwf (Bool.eq_false_iff.mp (mayRaise_illegalCommand.mp may))
  | sequence => exact .inr (.inr (.inr (.inl ⟨rfl, mayRaise_sequence.mp may⟩)))
  | unsetCode => exact .inr (.inr (.inr (.inr (.inl ⟨rfl, mayRaise_unsetCode.mp may⟩))))
  | bufferOverflow => exact .inr (.inr (.inr (.inr (.inr (.inl ⟨rfl, mayRaise_bufferOverflow.mp may⟩)))))
  | countOverflow => exact .inr (.inr (.inr (.inr (.inr (.inr ⟨rfl, mayRaise_countOverflow.mp may⟩)))))

/-- Settles O15: fault_o follows ERR, which CLR alone clears (`clr_of_err_cleared`) and a raise alone sets (`raised_of_err`). -/
theorem faultOutputFollowsErr : Obligations.FaultOutputFollowsErr := by
  refine ⟨fun _ => faultO_eq_one, faultO_eq_zero.mpr rfl, fun s t h => ?_, fun i s t h hs ht => ?_, fun i s t h hs ht => ?_⟩
  · rw [exec_clr, service_wf rfl] at h
    cases h
    exact faultO_eq_zero.mpr rfl
  · exact clr_of_err_cleared h (faultO_eq_one.mp hs) (faultO_eq_zero.mp ht)
  · obtain ⟨e, _, rfl⟩ := raised_of_err h (faultO_eq_zero.mp hs) (faultO_eq_one.mp ht)
    rfl

/-! ## Errors of FIN, SYM, ADDF and ENC in their own phase (60_exceptions.md R222, R225, R229, R230) -/

section
variable {s : State} {x : Symbol}

theorem finish_empty (c : Word) (h : recordSet s = []) : finish c s = raise .emptyInput c s := if_pos h

theorem addCount_overflows {n : Word} (c : Word) (h : s.total.toNat + n.toNat > 2 ^ 32 - 1) :
    addCount c x n s = raise .countOverflow c s := if_pos h

theorem encodeSymbol_unset (cap : Nat) (c : Word) (h : (codeAt s x).valid = false) :
    encodeSymbol cap c x s = raise .unsetCode c s := if_neg (Bool.eq_false_iff.mp h)

end

/-- Settles O27: no record means no count (`recordSet_nil`), and a sum of counts is 0 only where every count is. -/
theorem finOfNothingIsEmptyInput : Obligations.FinOfNothingIsEmptyInput := by
  refine fun s he hp => ⟨fun hnone => ?_, fun htotal => ?_⟩
  · rw [exec_fin, work_legal he (legal_fin.mpr hp), finish_empty _ (recordSet_nil.mpr hnone)]
    rfl
  · rw [← countSum_eq_zero, ← htotal]
    exact BitVec.toNat_inj.symm

/-- Settles O25: one more than 2^32 - 1 overflows for SYM, and for ADDF its operand, zero-extended. -/
theorem countOverflowRaised : Obligations.CountOverflowRaised := by
  refine fun x s he hp => ⟨fun hfull => ?_, fun n hfull => ?_⟩
  · have hover : s.total.toNat + (1 : Word).toNat > 2 ^ 32 - 1 := hfull ▸ Nat.lt_succ_self _
    rw [exec_sym, work_legal he (legal_sym.mpr hp), addCount_overflows _ hover]
    rfl
  · rw [← countOperand_toNat n] at hfull
    rw [exec_addf, work_legal he (legal_addf.mpr hp), addCount_overflows _ hfull]
    rfl

/-- Settles O41: an unset entry is raised before its bits are looked at; a set one goes to `appendBits`, without room. -/
theorem encErrors : Obligations.EncErrors := by
  refine fun x s he hp => ⟨fun hunset => ?_, fun hset hfull => ?_⟩
  · rw [exec_enc, work_legal he (legal_enc.mpr hp), encodeSymbol_unset _ _ hunset]
    rfl
  · rw [exec_enc_set he hp hset, appendBits_overflows ((sequence_length (codeAt s x)).symm ▸ hfull)]
    rfl

/-! ## The idle block and hardware reset (60_exceptions.md R245; 70_reset_and_hazards.md R250, R251) -/

@[simp] theorem freqAt_hardReset (s : State) (x : Symbol) : freqAt (hardReset s) x = 0 := rfl
@[simp] theorem nodeAt_hardReset (s : State) (i : NodeIdx) : nodeAt (hardReset s) i = ⟨false, 0, 0, 0, 0⟩ := rfl
@[simp] theorem codeAt_hardReset (s : State) (x : Symbol) : codeAt (hardReset s) x = ⟨false, 0, 0⟩ := rfl

/-- Settles O9: the next state after a reset is `hardReset`, whose fields and entries are known one by one. -/
theorem idleStepAndHardwareReset : Obligations.IdleStepAndHardwareReset := by
  refine ⟨fun _ => step_idle, fun s q hport => ⟨hardReset { s with port := q }, step_rst hport, ?_⟩⟩
  simp

end Sys2Proof.Machine
